-- ==== Sys2Proof/Word.lean ====
section
/-! DEFINITION. The byte, the register value of the host port, and the constants of the wire and its buffers. -/

namespace Sys2Proof

/-- One byte of a frame (00_scope section 6). -/
abbrev Byte := BitVec 8

/-- An unsigned register value as the host port carries it (R65 `u(8w)`, where `w` is the register's). -/
abbrev RegVal := Nat

/-- `HDR`, the first byte of every frame the block sends (R5). -/
abbrev hdrByte : Byte := 0xA5

/-- `CTRL_ADDR`, the fixed control address (R6, R33). -/
abbrev ctrlAddr : Byte := 0xEA

/-- The write bit of an address byte (R32). -/
abbrev writeBit : Byte := 0x80

/-- The least `NMAX` there is (R7, decision D2). -/
abbrev leastNmax : Nat := 4

end Sys2Proof
end

