-- ==== Sys2Proof/Config.lean ====
section
/-! DEFINITION. What the spec leaves to the implementation: the types of the OPEN parameters
(00_scope R8 to R13), the conditions a configuration must meet, the opaque parameters of the
hardware and the opaque free values. -/

namespace Sys2Proof

/-- A current channel (R19). -/
inductive CurCh where
  | A | B
  deriving DecidableEq, Repr, Inhabited

/-- A channel with a gain (R20): the two current channels and the voltage channel. -/
inductive Ch3 where
  | A | B | U
  deriving DecidableEq, Repr, Inhabited

/-- `IFKIND` (R9). -/
inductive IfKind where
  | uart | spi
  deriving DecidableEq, Repr, Inhabited

/-- The nine fields of the CoefficientSet (R22). -/
inductive CoefField where
  | rmsA | rmsB | rmsU | powerA | powerB | powerS | energyA | energyB | hfconst
  deriving DecidableEq, Repr, Inhabited

/-- The twelve fields of the CalibrationRecord (R25). -/
inductive CalField where
  | hfconst | paGain | pbGain | phaseA | phaseB | paos | pbos | rmsIaos | rmsIbos | ibGain
  | psGain | psos
  deriving DecidableEq, Repr, Inhabited

/-- The logical register identifiers (R35); `other k` is a register that only a field descriptor
names (R97). -/
inductive RegId where
  | rmsIA | rmsIB | rmsU | powerPA | powerPB | energyPA | energyPB | freqU | pf | angle
  | coefRmsA | coefRmsB | coefRmsU | coefPowerA | coefPowerB | coefPowerS | coefEnergyA | coefEnergyB
  | hfconst | paGain | pbGain | phaseA | phaseB | paos | pbos | rmsIaos | rmsIbos | ibGain
  | psGain | psos
  | other (k : Nat)
  deriving DecidableEq, Repr, Inhabited

/-- The measurement registers R35 names, which the device itself keeps changing (R49). -/
def RegId.isMeasurement : RegId → Bool
  | .rmsIA | .rmsIB | .rmsU | .powerPA | .powerPB | .energyPA | .energyPB | .freqU | .pf | .angle => true
  | _ => false

/-- The quantities of the converter, with their channel where they have one (R109). -/
inductive Quantity where
  | rms (ch : Ch3) | power (ch : CurCh) | energy (ch : CurCh) | freq | pf | phase
  deriving DecidableEq, Repr, Inhabited

/-- The register a conversion is about, and by default the only one it reads (R117). -/
def Quantity.register : Quantity → RegId
  | .rms .A => .rmsIA
  | .rms .B => .rmsIB
  | .rms .U => .rmsU
  | .power .A => .powerPA
  | .power .B => .powerPB
  | .energy .A => .energyPA
  | .energy .B => .energyPB
  | .freq => .freqU
  | .pf => .pf
  | .phase => .angle

/-- The five command codes (R8). -/
structure Codes where
  reset : Byte
  selA : Byte
  selB : Byte
  wren : Byte
  wrdis : Byte
  deriving DecidableEq, Repr, Inhabited

/-- An entry of `RegTable` (R10). -/
structure RegEntry where
  raddr : Byte
  waddr : Byte
  width : Nat
  deriving DecidableEq, Repr, Inhabited

/-- A field descriptor (R97). -/
structure FieldDesc where
  reg : RegId
  mask : RegVal
  shift : Nat
  deriving DecidableEq, Repr, Inhabited

/-- The configuration entries that have no operation number of their own (R96). -/
inductive Feature where
  | channel (ch : Ch3) | calcMode | updateFreq | waveform | zeroCrossing | powerFactor | pulse
  deriving DecidableEq, Repr, Inhabited

/-- The entries of R96, each channel once. -/
def Feature.all : List Feature :=
  [.channel .A, .channel .B, .channel .U, .calcMode, .updateFreq, .waveform, .zeroCrossing, .powerFactor,
   .pulse]

/-- Whether an entry is enabled and disabled, and not set to one of several codes (R96). -/
def Feature.isSwitch : Feature → Bool
  | .calcMode | .updateFreq => false
  | .channel _ | .waveform | .zeroCrossing | .powerFactor | .pulse => true

/-- The descriptor of an entry of R96 with its codes (R97): the disabling code and then the enabling one,
or the codes of the settings. -/
structure FeatureDesc where
  field : FieldDesc
  codes : List Nat
  deriving DecidableEq, Repr, Inhabited

/-- The parameters that are plain data (00_scope section 5). `spare` is how far `NMAX` is above the least
one. `gains` lists `PgaSet` with the `PgaCode` of each gain. `regs` gives the `Regs_q` that are not the
default (R117). `signed` lists the registers whose OPEN signedness is signed (R35, R117). `selfChanging`
lists further registers the device changes by itself (R49). -/
structure Board where
  codes : Codes
  spare : Nat
  regTable : List (RegId × RegEntry)
  gains : List (Nat × Nat)
  pgaA : FieldDesc
  pgaB : FieldDesc
  pgaU : FieldDesc
  features : List (Feature × FeatureDesc)
  calOrder : List (CalField × RegId)
  coefOrder : List (CoefField × RegId)
  regs : List (Quantity × List RegId)
  signed : List RegId
  selfChanging : List RegId
  wrContinue : Bool
  deriving DecidableEq, Repr, Inhabited

/-- `NMAX`, the largest payload length: any number from 4 up (R7, decision D2). -/
def Board.nmax (b : Board) : Nat := b.spare + leastNmax

/-- `RegTable[reg]` (R10). -/
def Board.entry (b : Board) (r : RegId) : Option RegEntry :=
  b.regTable.lookup r

/-- `Regs_q` (R110, R117): the quantity's register unless the configuration says otherwise. -/
def Board.regsOf (b : Board) (q : Quantity) : List RegId :=
  (b.regs.lookup q).getD [q.register]

/-- The register of `Regs_q` whose value the special cases and obligations of R111 to R113 and R121 speak of:
the quantity's own register, or the first where `Regs_q` does not have it. DEDUCED (log 27). -/
def Board.mainRegister (b : Board) (q : Quantity) : RegId :=
  if (b.regsOf q).contains q.register then q.register else (b.regsOf q).headD q.register

/-- `PgaField(ch)` (R12). -/
def Board.pgaField (b : Board) : Ch3 → FieldDesc
  | .A => b.pgaA
  | .B => b.pgaB
  | .U => b.pgaU

/-- Whether a register is decoded signed (R110): as R35 states it for RMS, power, energy and the
coefficients, and as the OPEN parameter `Signed(reg)` says for the rest (R117, D24). -/
def Board.isSigned (b : Board) (r : RegId) : Bool :=
  match r with
  | .powerPA | .powerPB => true
  | .rmsIA | .rmsIB | .rmsU | .energyPA | .energyPB | .coefRmsA | .coefRmsB | .coefRmsU | .coefPowerA
  | .coefPowerB | .coefPowerS | .coefEnergyA | .coefEnergyB | .hfconst => false
  | .freqU | .pf | .angle | .paGain | .pbGain | .phaseA | .phaseB | .paos | .pbos | .rmsIaos | .rmsIbos
  | .ibGain | .psGain | .psos | .other _ => b.signed.contains r

/-- The identifiers of R35 that every `RegTable` must map. -/
def RegId.required : List RegId :=
  [.rmsIA, .rmsIB, .rmsU, .powerPA, .powerPB, .energyPA, .energyPB, .freqU, .pf, .angle,
   .coefRmsA, .coefRmsB, .coefRmsU, .coefPowerA, .coefPowerB, .coefPowerS, .coefEnergyA, .coefEnergyB,
   .hfconst]

/-- The coefficient registers, of width 2 (R100). -/
def RegId.coefficients : List RegId :=
  [.coefRmsA, .coefRmsB, .coefRmsU, .coefPowerA, .coefPowerB, .coefPowerS, .coefEnergyA, .coefEnergyB,
   .hfconst]

/-- The CoefficientSet's fields in their listing order (R99). -/
def CoefField.all : List CoefField :=
  [.rmsA, .rmsB, .rmsU, .powerA, .powerB, .powerS, .energyA, .energyB, .hfconst]

/-- R10, R33 and C6: the write address is the read address with bit 7 set, the read address has bit
7 clear, neither leads to the control address, and the width fits the buffers. -/
def RegEntry.wf (nmax : Nat) (e : RegEntry) : Bool :=
  !e.raddr.msb && e.waddr == (e.raddr ||| writeBit) && e.waddr != ctrlAddr && decide (e.width ≤ nmax)

/-- A map has one entry for a key (R10: a finite map). -/
def keysDistinct {α β : Type} [DecidableEq α] : List (α × β) → Bool
  | [] => true
  | (k, _) :: rest => !(rest.any fun p => decide (p.1 = k)) && keysDistinct rest

/-- A register of a list has width 2 in the table (R100). -/
def Board.hasWidthTwo (b : Board) (r : RegId) : Bool :=
  match b.entry r with
  | some e => e.width == 2
  | none => false

/-- A register decoded signed has a sign bit (R106: `DEC_S` needs `n ≥ 1`). DEDUCED from the status
table after R132, in which `CONV_FREQ`, `CONV_PF` and `CONV_PHASE` never end with `INVALID_PARAM`. -/
def Board.hasSignBit (b : Board) (r : RegId) : Bool :=
  match b.entry r with
  | some e => decide (1 ≤ e.width)
  | none => false

/-- R97: `mask` is a run of ones from bit `shift` up, within the register's width. -/
def Board.fieldWf (b : Board) (f : FieldDesc) : Bool :=
  match b.entry f.reg with
  | some e =>
    (List.range (8 * e.width + 1)).any fun n =>
      decide (1 ≤ n) && decide (f.shift + n ≤ 8 * e.width) &&
        f.mask == (2 ^ n - 1) * 2 ^ f.shift
  | none => false

/-- A quantity reads some register, its registers are in the table, and the signed ones have a sign bit
(R110, R117; log 3). The list may name a register more than once; its last reading then counts (log 27). -/
def Board.quantityWf (b : Board) (q : Quantity) : Bool :=
  !(b.regsOf q).isEmpty &&
    (b.regsOf q).all fun r => (b.entry r).isSome && (!b.isSigned r || b.hasSignBit r)

/-- The converter's quantities, each channel once. -/
def Quantity.all : List Quantity :=
  [.rms .A, .rms .B, .rms .U, .power .A, .power .B, .energy .A, .energy .B, .freq, .pf, .phase]

/-- Every entry of R96 has its descriptor and its codes (R97). -/
def Board.featureWf (b : Board) (f : Feature) : Bool :=
  match b.features.lookup f with
  | some d => b.fieldWf d.field && (if f.isSwitch then d.codes.length == 2 else !d.codes.isEmpty)
  | none => false

/-- The coefficient and calibration registers, which change only when written (R49): R100's, and those
`COEF_ORDER` and `CAL_ORDER` name (R12). -/
def Board.isStatic (b : Board) (r : RegId) : Bool :=
  RegId.coefficients.contains r || (b.coefOrder.any fun p => p.2 == r) || b.calOrder.any fun p => p.2 == r

/-- Whether the configuration takes a register for one that changes by itself (R49): it lists it, or a
conversion reads it. -/
def Board.mayChange (b : Board) (r : RegId) : Bool :=
  b.selfChanging.contains r || Quantity.all.any fun q => (b.regsOf q).contains r

/-- The command codes are pairwise distinct (R8). -/
def Codes.wf (c : Codes) : Bool :=
  decide [c.reset, c.selA, c.selB, c.wren, c.wrdis].Nodup

/-- The conditions the spec puts on a configuration. A configuration that breaks one is rejected, not
given a meaning (R100, R121): `WfBoard` holds none such. `CAL_ORDER` is any list of fields, of any length
and with any repetition (R103, C1). Two identifiers may stand for one address (log 34). The fields of two descriptors,
of the gains or of the entries of R96, may overlap (R93, R97; DESIGN CHOICE, log 40). -/
def Board.wf (b : Board) : Bool :=
  b.codes.wf &&
  keysDistinct b.regTable && b.regTable.all (fun p => p.2.wf b.nmax) &&
  RegId.required.all (fun r => (b.entry r).isSome) &&
  RegId.coefficients.all b.hasWidthTwo &&
  !b.gains.isEmpty && keysDistinct b.gains && b.gains.all (fun p => decide (0 < p.1)) &&
  b.fieldWf b.pgaA && b.fieldWf b.pgaB && b.fieldWf b.pgaU &&
  Feature.all.all b.featureWf && keysDistinct b.features &&
  b.calOrder.all (fun p => (b.entry p.2).isSome) &&
  b.coefOrder.length == 9 && keysDistinct b.coefOrder && b.coefOrder.all (fun p => b.hasWidthTwo p.2) &&
  Quantity.all.all b.quantityWf

/-- A configuration of this hardware. -/
abbrev WfBoard := { b : Board // b.wf = true }

/-- A positive rational in lowest terms (R11, R28). -/
structure Ratio where
  num : Nat
  den : Nat
  deriving DecidableEq, Repr, Inhabited

/-- `n / d` in lowest terms. -/
def Ratio.reduce (n d : Nat) : Ratio := ⟨n / Nat.gcd n d, d / Nat.gcd n d⟩

/-- Positive and in lowest terms. -/
def Ratio.wf (r : Ratio) : Bool :=
  decide (0 < r.num) && decide (0 < r.den) && Nat.gcd r.num r.den == 1

/-- The resistor-ratio triple (R21). -/
structure Ratio3 where
  k1A : Ratio
  k1B : Ratio
  k2 : Ratio
  deriving DecidableEq, Repr, Inhabited

/-- The gain of each channel (R20). -/
structure Pga where
  A : Nat
  B : Nat
  U : Nat
  deriving DecidableEq, Repr, Inhabited

/-- The nine cached coefficients, unsigned 16-bit (R22). -/
structure CoefSet where
  rmsA : BitVec 16
  rmsB : BitVec 16
  rmsU : BitVec 16
  powerA : BitVec 16
  powerB : BitVec 16
  powerS : BitVec 16
  energyA : BitVec 16
  energyB : BitVec 16
  hfconst : BitVec 16
  deriving DecidableEq, Repr, Inhabited

/-- `ctx.coef` (R22). -/
inductive CoefCache where
  | notLoaded
  | loaded (cs : CoefSet)
  deriving DecidableEq, Repr, Inhabited

/-- What the scaling functions may depend on beside the channel (R120). `raws` is the finite map `raw` of R110
step 3: each register of `Regs_q` once, in the order of its first reading, with its decoded integer. -/
structure ScaleArgs where
  raws : List (RegId × Int)
  coef : CoefSet
  pga : Pga
  ratio : Ratio3
  sel : CurCh
  deriving DecidableEq, Repr, Inhabited

/-- The parts of the device's new state that the spec leaves open (U7, U8, U9, U17). -/
structure DeviceDraw where
  we : Bool
  sel : CurCh
  ready : Bool
  line : List Byte
  deriving DecidableEq, Repr, Inhabited

/-- The context where the spec leaves it open (R30, R145). A gain is drawn as a position in
`PgaSet`, a ratio as a numerator and a denominator less one each. -/
structure ContextDraw where
  sel : CurCh
  gainA : Nat
  gainB : Nat
  gainU : Nat
  k1A : Nat × Nat
  k1B : Nat × Nat
  k2 : Nat × Nat
  coef : CoefCache
  ifkind : IfKind
  deriving DecidableEq, Repr, Inhabited

/-! ### The opaque parameters -/

/-- The OPEN parameters of the hardware before their conditions are asked for (log 2). -/
opaque Config.rawBoard : Board

/-- The `IFKIND` given when the context is created (R30; log 7). -/
opaque Config.ifKind : IfKind

/-- `Num_rms`, a natural number by R121 (log 4). -/
opaque Config.rmsNum : Ch3 → ScaleArgs → Nat

/-- The size of `Num_power`; its sign is the raw value's by R121 (log 4). -/
opaque Config.powerMag : CurCh → ScaleArgs → Nat

/-- `Num_energy` wherever R113 and R121 allow it beside `Config.denPred` (log 4). -/
opaque Config.energyNum : CurCh → ScaleArgs → Int

/-- `Num_q` of frequency, power factor and phase (R114 to R116). -/
opaque Config.plainNum : Quantity → ScaleArgs → Int

/-- `Den_q` less one (R13), of energy wherever R113 and R121 allow it beside `Config.energyNum` (log 4). -/
opaque Config.denPred : Quantity → ScaleArgs → Nat

/-! ### The opaque free values -/

/-- The result on the port when the exact one does not fit (R118, U4; log 5). -/
opaque Config.freeInt32 : Nat → BitVec 32

/-- The transmit buffer where its content is not defined (R26; log 8). -/
opaque Config.freeTx : Nat → List Byte

/-- The receive buffer where its content is not defined (R26; log 8). -/
opaque Config.freeRx : Nat → List Byte

/-- The context's unspecified fields at creation and after destruction (R30, R145; log 6). -/
opaque Config.resetDraw : Nat → ContextDraw

/-- The device after a frame whose effect is not stated (log 18). -/
opaque Config.deviceDraw : Nat → DeviceDraw

/-- The bytes of a register whose content is not known (R29, R49; log 20): draw, then byte index. -/
opaque Config.freeByte : Nat → Nat → Byte

/-- The register values the device takes as out of range (U10; log 21). -/
opaque Config.outOfRange : List (Byte × Nat)

/-! ### A configuration that exists -/

/-- A configuration with the values the spec lists as general knowledge (G1, G2, G3) and, where it
lists none, values of the model's own. PRESUMED. It shows that the conditions of `Board.wf` can be met, and the
tests run on it; no statement rests on it. -/
def Config.sampleBoard : Board where
  codes := ⟨0x96, 0x5A, 0xA5, 0xE5, 0xDC⟩
  spare := 0
  regTable :=
    [(.rmsIA, ⟨0x24, 0xA4, 3⟩), (.rmsIB, ⟨0x25, 0xA5, 3⟩), (.rmsU, ⟨0x26, 0xA6, 3⟩),
     (.powerPA, ⟨0x2C, 0xAC, 4⟩), (.powerPB, ⟨0x2D, 0xAD, 4⟩),
     (.energyPA, ⟨0x28, 0xA8, 3⟩), (.energyPB, ⟨0x29, 0xA9, 3⟩),
     (.freqU, ⟨0x23, 0xA3, 2⟩), (.pf, ⟨0x27, 0xA7, 3⟩), (.angle, ⟨0x22, 0xA2, 2⟩),
     (.coefRmsA, ⟨0x70, 0xF0, 2⟩), (.coefRmsB, ⟨0x71, 0xF1, 2⟩), (.coefRmsU, ⟨0x72, 0xF2, 2⟩),
     (.coefPowerA, ⟨0x73, 0xF3, 2⟩), (.coefPowerB, ⟨0x74, 0xF4, 2⟩), (.coefPowerS, ⟨0x75, 0xF5, 2⟩),
     (.coefEnergyA, ⟨0x76, 0xF6, 2⟩), (.coefEnergyB, ⟨0x77, 0xF7, 2⟩), (.hfconst, ⟨0x02, 0x82, 2⟩)] ++
    [(.paGain, ⟨0x05, 0x85, 2⟩), (.pbGain, ⟨0x07, 0x87, 2⟩), (.phaseA, ⟨0x08, 0x88, 2⟩),
     (.phaseB, ⟨0x09, 0x89, 1⟩), (.paos, ⟨0x0A, 0x8A, 2⟩), (.pbos, ⟨0x0B, 0x8B, 2⟩),
     (.rmsIaos, ⟨0x0E, 0x8E, 2⟩), (.rmsIbos, ⟨0x0F, 0x8F, 2⟩), (.ibGain, ⟨0x10, 0x90, 2⟩),
     (.psGain, ⟨0x11, 0x91, 2⟩), (.psos, ⟨0x12, 0x92, 2⟩),
     (.other 0, ⟨0x00, 0x80, 2⟩), (.other 1, ⟨0x13, 0x93, 2⟩)]
  gains := [(1, 0), (2, 1), (4, 2), (8, 3), (16, 4)]
  pgaA := ⟨.other 0, 0x0007, 0⟩
  pgaB := ⟨.other 0, 0x01C0, 6⟩
  pgaU := ⟨.other 0, 0x0038, 3⟩
  features :=
    [(.channel .A, ⟨⟨.other 0, 0x0200, 9⟩, [0, 1]⟩), (.channel .B, ⟨⟨.other 0, 0x0400, 10⟩, [0, 1]⟩),
     (.channel .U, ⟨⟨.other 0, 0x0800, 11⟩, [0, 1]⟩), (.calcMode, ⟨⟨.other 1, 0x0003, 0⟩, [0, 1, 2]⟩),
     (.updateFreq, ⟨⟨.other 1, 0x0300, 8⟩, [0, 1, 2, 3]⟩), (.waveform, ⟨⟨.other 1, 0x0020, 5⟩, [0, 1]⟩),
     (.zeroCrossing, ⟨⟨.other 1, 0x0010, 4⟩, [0, 1]⟩), (.powerFactor, ⟨⟨.other 1, 0x0040, 6⟩, [0, 1]⟩),
     (.pulse, ⟨⟨.other 1, 0x0080, 7⟩, [0, 1]⟩)]
  calOrder :=
    [(.hfconst, .hfconst), (.paGain, .paGain), (.pbGain, .pbGain), (.phaseA, .phaseA),
     (.phaseB, .phaseB), (.paos, .paos), (.pbos, .pbos), (.rmsIaos, .rmsIaos),
     (.rmsIbos, .rmsIbos), (.ibGain, .ibGain), (.psGain, .psGain), (.psos, .psos)]
  coefOrder :=
    [(.rmsA, .coefRmsA), (.rmsB, .coefRmsB), (.rmsU, .coefRmsU), (.powerA, .coefPowerA),
     (.powerB, .coefPowerB), (.powerS, .coefPowerS), (.energyA, .coefEnergyA),
     (.energyB, .coefEnergyB), (.hfconst, .hfconst)]
  regs := []
  signed := [.pf]
  selfChanging := []
  wrContinue := true

theorem Config.sampleBoard_wf : Config.sampleBoard.wf = true := by decide

/-- The sample with the proof that it is a configuration. -/
def Config.sample : WfBoard := ⟨Config.sampleBoard, Config.sampleBoard_wf⟩

/-- The OPEN parameters of the hardware: the opaque `Config.rawBoard` where it is a configuration.
Every configuration is a possible value, and only configurations are (log 2). -/
def Config.board : WfBoard :=
  if h : Config.rawBoard.wf = true then ⟨Config.rawBoard, h⟩ else Config.sample

end Sys2Proof
end

