-- ==== Sys2Proof/Syntax.lean ====
section
/-! DEFINITION. The instructions: one constructor for each row of spec/opcode_table.json. -/

namespace Sys2Proof

/-- A ratio as the host port carries it: it can be zero, negative or without a value (R89). -/
structure RawRatio where
  num : Int
  den : Nat
  deriving DecidableEq, Repr, Inhabited

/-- A CalibrationRecord (R25), the operand of `APPLY_CAL`. -/
structure CalRec where
  hfconst : RegVal
  paGain : RegVal
  pbGain : RegVal
  phaseA : RegVal
  phaseB : RegVal
  paos : RegVal
  pbos : RegVal
  rmsIaos : RegVal
  rmsIbos : RegVal
  ibGain : RegVal
  psGain : RegVal
  psos : RegVal
  deriving DecidableEq, Repr, Inhabited

/-- The rows of the opcode table. The first nine are the wire frames (R56 to R59, R82, R85, R86); the
rest are the host's operations with the operands of R65. A channel selector is the 2-bit value on the
port, so that one out of its domain can be presented. -/
inductive Instr where
  | rq (addr : Byte)
  | wf (waddr : Byte) (payload : List Byte) (cks : Byte)
  | cf (code cks : Byte)
  | rs (payload : List Byte) (cks : Byte)
  | wren
  | wrdis
  | selA
  | selB
  | devreset
  | cksum (hdr addr : Byte) (payload : List Byte)
  | encRead (addr : Byte)
  | encWrite (waddr : Byte) (payload : List Byte)
  | encCmd (caddr code : Byte)
  | validate (hdr addr : Byte) (payload : List Byte) (rxck : Byte)
  | rdReg (addr : Byte) (w : Nat)
  | wrReg (addr : Byte) (payload : List Byte)
  | sendCmd (caddr code : Byte)
  | reset
  | selCh (ch : BitVec 2)
  | setRatio (k1A k1B k2 : RawRatio)
  | getRatio
  | getPga (ch : BitVec 2)
  | getSel
  | setPga (ch : BitVec 2) (g : Nat)
  | rmwField (reg : RegId) (mask value : RegVal)
  | loadCoef
  | applyCal (rec : CalRec)
  | decU (payload : List Byte)
  | decS (payload : List Byte)
  | rdiv (num den : Int)
  | convRms (ch : BitVec 2)
  | convPower (ch : BitVec 2)
  | convEnergy (ch : BitVec 2)
  | convFreq
  | convPf
  | convPhase
  deriving DecidableEq, Repr

end Sys2Proof
end

