-- ==== Sys2Proof/Machine/Flags.lean ====
section
/-! DEFINITION. The checksum and the frames built with it. The block has no condition codes and no
sticky flags (R18); the one test that decides a status on data is the checksum comparison of R77. -/

namespace Sys2Proof.Machine

/-- The integer sum the checksum is taken of (R73). -/
def cksumSum (hdr addr : Byte) (payload : List Byte) : Nat :=
  hdr.toNat + addr.toNat + (payload.map BitVec.toNat).sum

/-- `0xFF - (S mod 256)` (R73). -/
def cksumByte (hdr addr : Byte) (payload : List Byte) : Byte :=
  BitVec.ofNat 8 (0xFF - cksumSum hdr addr payload % 256)

/-- The checksum test of R77. -/
def cksumMatches (hdr addr : Byte) (payload : List Byte) (rxck : Byte) : Bool :=
  cksumByte hdr addr payload == rxck

/-- Format `RQ` (R56, R74). -/
def readFrame (addr : Byte) : List Byte := [hdrByte, addr]

/-- Format `WF` (R57, R75). -/
def writeFrame (waddr : Byte) (payload : List Byte) : List Byte :=
  [hdrByte, waddr] ++ payload ++ [cksumByte hdrByte waddr payload]

/-- Format `CF` (R58, R76). -/
def cmdFrame (caddr code : Byte) : List Byte :=
  [hdrByte, caddr, code, cksumByte hdrByte caddr [code]]

/-- The address byte of a register write (R61): bit 7 set. -/
def writeAddr (addr : Byte) : Byte := addr ||| writeBit

end Sys2Proof.Machine
end

