-- ==== Sys2Proof/Machine/Operands.lean ====
section
/-! DEFINITION. The operand forms: channel selectors, payload values, serialised values, register
fields, ratios, and the integer arithmetic of the converter's kernels. Pure functions. -/

namespace Sys2Proof.Machine

/-- `ch2` (R65): `0 = A`, `1 = B`, the rest out of domain. -/
def curChOf (ch : BitVec 2) : Option CurCh :=
  match ch.toNat with
  | 0 => some .A
  | 1 => some .B
  | _ => none

/-- `ch3` (R65): `0 = A`, `1 = B`, `2 = U`, and `3` out of domain. -/
def ch3Of (ch : BitVec 2) : Option Ch3 :=
  match ch.toNat with
  | 0 => some .A
  | 1 => some .B
  | 2 => some .U
  | _ => none

/-- The value of a payload as a big-endian unsigned integer (R62, R105). -/
def beNat (p : List Byte) : Nat :=
  p.foldl (fun v d => v * 256 + d.toNat) 0

/-- `sext_N(v)` for an unsigned `N`-bit `v` (00_scope section 6). -/
def sextInt (n v : Nat) : Int :=
  if v.testBit (n - 1) then (v : Int) - 2 ^ n else v

/-- The value of a payload as a two's-complement integer of its own width (R62, R106). -/
def beInt (p : List Byte) : Int :=
  sextInt (8 * p.length) (beNat p)

/-- `SER(v, w)` (R95): byte `i` is `(v >> (8 * (w - 1 - i))) & 0xFF`. -/
def serBytes (v w : Nat) : List Byte :=
  (List.range w).map fun i => BitVec.ofNat 8 ((v >>> (8 * (w - 1 - i))) &&& 0xFF)

/-- An operand of type `u(8w)` (R65): the low `8 * w` bits of the port's value (log 16). -/
def fieldOf (w : Nat) (v : RegVal) : Nat :=
  v % 256 ^ w

/-- `(old & ~mask) | (value & mask)` at `8 * w` bits (R94). -/
def mergeField (w old mask value : Nat) : Nat :=
  (old &&& ((256 ^ w - 1) ^^^ mask)) ||| (value &&& mask)

/-- The rounding division of R107 for a positive divisor: to the nearest integer, halves away from
zero. -/
def rdivInt (num : Int) (den : Nat) : Int :=
  let m : Nat := (2 * num.natAbs + den) / (2 * den)
  if 0 ≤ num then (m : Int) else -(m : Int)

/-- Whether an integer is a signed 32-bit value (R118). -/
def fitsPort (v : Int) : Bool :=
  decide (-2147483648 ≤ v) && decide (v ≤ 2147483647)

/-- A ratio operand as a positive rational, if it is one (R89, D15). -/
def ratioOf (r : RawRatio) : Option Ratio :=
  if 0 < r.num ∧ 0 < r.den then some (Ratio.reduce r.num.toNat r.den) else none

/-- The value of a field of a register, as a "get" entry of R96 extracts it:
`(DEC_U(p) & mask) >> shift`. -/
def fieldValue (f : FieldDesc) (p : List Byte) : Nat :=
  (beNat p &&& f.mask) >>> f.shift

/-- A field of a CalibrationRecord (R25). -/
def calField (rec : CalRec) : CalField → RegVal
  | .hfconst => rec.hfconst
  | .paGain => rec.paGain
  | .pbGain => rec.pbGain
  | .phaseA => rec.phaseA
  | .phaseB => rec.phaseB
  | .paos => rec.paos
  | .pbos => rec.pbos
  | .rmsIaos => rec.rmsIaos
  | .rmsIbos => rec.rmsIbos
  | .ibGain => rec.ibGain
  | .psGain => rec.psGain
  | .psos => rec.psos

/-- `tmp[field] <- v` of `LOAD_COEF` (R101). -/
def setCoef (cs : CoefSet) (v : BitVec 16) : CoefField → CoefSet
  | .rmsA => { cs with rmsA := v }
  | .rmsB => { cs with rmsB := v }
  | .rmsU => { cs with rmsU := v }
  | .powerA => { cs with powerA := v }
  | .powerB => { cs with powerB := v }
  | .powerS => { cs with powerS := v }
  | .energyA => { cs with energyA := v }
  | .energyB => { cs with energyB := v }
  | .hfconst => { cs with hfconst := v }

/-- A field of a CoefficientSet (R22). -/
def getCoef (cs : CoefSet) : CoefField → BitVec 16
  | .rmsA => cs.rmsA
  | .rmsB => cs.rmsB
  | .rmsU => cs.rmsU
  | .powerA => cs.powerA
  | .powerB => cs.powerB
  | .powerS => cs.powerS
  | .energyA => cs.energyA
  | .energyB => cs.energyB
  | .hfconst => cs.hfconst

/-- `ctx.pga[ch]` (R20). -/
def getGain (p : Pga) : Ch3 → Nat
  | .A => p.A
  | .B => p.B
  | .U => p.U

/-- `ctx.pga[ch] <- g` (R93). -/
def setGain (p : Pga) (g : Nat) : Ch3 → Pga
  | .A => { p with A := g }
  | .B => { p with B := g }
  | .U => { p with U := g }

end Sys2Proof.Machine
end

