-- ==== Sys2Proof/WellFormed.lean ====
section
/-! DEFINITION. Which instructions an encoding exists for: the operand ranges of the wire frames
(R56 to R59) and the width operand's (R65). The other operands of the host port have no bound: a payload of any
length, a number of any size and every logical identifier has an encoding (log 13). A configuration's conditions are
`Board.wf`. An operand out of its DOMAIN (a selector of 3, a payload above `NMAX`) is well-formed: it
ends in a status (R68). -/

namespace Sys2Proof

/-- A command frame has a form of its own only if it is not one of the five named ones with its right
checksum, which are constructors themselves. -/
def commandWf (c : Codes) (code cks : Byte) : Bool :=
  !(Machine.cksumByte hdrByte ctrlAddr [code] == cks &&
    (code == c.wren || code == c.wrdis || code == c.selA || code == c.selB || code == c.reset))

/-- The instructions that have an encoding, under the configuration `b`. -/
def Instr.valid (b : Board) : Instr → Bool
  | .wf waddr payload _ => decide (payload.length ≤ b.nmax) && !(waddr == ctrlAddr && payload.length == 1)
  | .cf code cks => commandWf b.codes code cks
  | .rs payload _ => decide (payload.length ≤ b.nmax)
  | .rdReg _ w => decide (w < 256)
  | .rq _ | .wren | .wrdis | .selA | .selB | .devreset | .cksum _ _ _ | .encRead _ | .encWrite _ _ | .encCmd _ _
  | .validate _ _ _ _ | .wrReg _ _ | .sendCmd _ _ | .reset | .selCh _ | .setRatio _ _ _ | .getRatio | .getPga _
  | .getSel | .setPga _ _ | .rmwField _ _ _ | .loadCoef | .applyCal _ | .decU _ | .decS _ | .rdiv _ _ | .convRms _
  | .convPower _ | .convEnergy _ | .convFreq | .convPf | .convPhase => true

end Sys2Proof
end

