-- ==== Sys2Proof/Decode.lean ====
section
/-! DEFINITION. Decoding and encoding. A frame on the line is decoded by its format (R56 to R59); an
operation at the host port by its number (R64) and its operands in the order of R65, in the model's
byte layout (log 13). Then the words of spec/opcode_table.json (log 14). -/

namespace Sys2Proof

/-- Why bytes are no presentation of a row. -/
inductive DecodeError where
  /-- No byte at all. -/
  | empty
  /-- An operation number outside the table of R64; the step answers it with `NOT_IMPLEMENTED` (R66). -/
  | unknownOp (op : Byte)
  /-- The bytes end before the operands of the row do. -/
  | truncated
  /-- A frame to the device starts with another byte than `HDR` (R55). -/
  | badHeader (b : Byte)
  /-- No frame format has this many bytes (R56 to R59). -/
  | badFrameLength (n : Nat)
  deriving DecidableEq, Repr

/-- Where an instruction is received: at the host port, by the remote device, or by the block as a
response. -/
inductive Port where
  | host | down | up
  deriving DecidableEq, Repr

/-! ### Operands at the host port -/

/-- A parser's answer: a value and the bytes after it. -/
abbrev Parsed (α : Type) := Except DecodeError (α × List Byte)

/-- Parse, then go on with the value and the bytes after it. -/
def thenTake {α β : Type} (x : Parsed α) (f : α → List Byte → Parsed β) : Parsed β :=
  match x with
  | .error e => .error e
  | .ok (a, r) => f a r

/-- One byte. -/
def takeByte : List Byte → Parsed Byte
  | [] => .error .truncated
  | b :: r => .ok (b, r)

/-- `n` bytes. -/
def takeBytes (n : Nat) (bs : List Byte) : Parsed (List Byte) :=
  if bs.length < n then .error .truncated else .ok (bs.take n, bs.drop n)

/-- A count without a bound: as many bytes `0xFF` as it holds 255, then a byte below `0xFF` with the rest. -/
def takeCount : List Byte → Parsed Nat
  | [] => .error .truncated
  | b :: r => if b = 0xFF then thenTake (takeCount r) fun n r => .ok (n + 255, r) else .ok (b.toNat, r)

/-- A payload: its length, then its bytes. -/
def takePayload (bs : List Byte) : Parsed (List Byte) :=
  thenTake (takeCount bs) takeBytes

/-- A natural number: its length in bytes, then the bytes, most significant first. -/
def takeNat (bs : List Byte) : Parsed Nat :=
  match takePayload bs with
  | .error e => .error e
  | .ok (p, r) => .ok (Machine.beNat p, r)

/-- The integer a natural number stands for. -/
def unzigzag (n : Nat) : Int :=
  if n % 2 = 0 then ((n / 2 : Nat) : Int) else -(((n + 1) / 2 : Nat) : Int)

/-- An integer. -/
def takeInt (bs : List Byte) : Parsed Int :=
  match takeNat bs with
  | .error e => .error e
  | .ok (n, r) => .ok (unzigzag n, r)

/-- A channel selector: one byte. A byte above 3 names no channel, as 3 does: the source's out-of-range
selector "presupposes a selector wider than its domain" (R65), and R68 gives it `INVALID_PARAM` (log 33). -/
def takeSel (bs : List Byte) : Parsed (BitVec 2) :=
  match bs with
  | [] => .error .truncated
  | b :: r => .ok (BitVec.ofNat 2 (min b.toNat 3), r)

/-- A ratio: numerator, denominator. -/
def takeRatio (bs : List Byte) : Parsed RawRatio :=
  thenTake (takeInt bs) fun n r =>
  thenTake (takeNat r) fun d r =>
  .ok (⟨n, d⟩, r)

/-- Number of logical identifiers that have a name (R35). -/
def namedRegs : Nat := 30

/-- The logical identifier of a number: the named ones in the order of R35, then the others. -/
def regIdOf : Nat → RegId
  | 0 => .rmsIA | 1 => .rmsIB | 2 => .rmsU | 3 => .powerPA | 4 => .powerPB
  | 5 => .energyPA | 6 => .energyPB | 7 => .freqU | 8 => .pf | 9 => .angle
  | 10 => .coefRmsA | 11 => .coefRmsB | 12 => .coefRmsU | 13 => .coefPowerA | 14 => .coefPowerB
  | 15 => .coefPowerS | 16 => .coefEnergyA | 17 => .coefEnergyB | 18 => .hfconst | 19 => .paGain
  | 20 => .pbGain | 21 => .phaseA | 22 => .phaseB | 23 => .paos | 24 => .pbos
  | 25 => .rmsIaos | 26 => .rmsIbos | 27 => .ibGain | 28 => .psGain | 29 => .psos
  | n => .other (n - namedRegs)

/-- A logical identifier: its number. -/
def takeRegId (bs : List Byte) : Parsed RegId :=
  thenTake (takeCount bs) fun n r =>
  .ok (regIdOf n, r)

/-- A CalibrationRecord: twelve register values in the order of R25. -/
def takeCalRec (bs : List Byte) : Parsed CalRec :=
  thenTake (takeNat bs) fun hfconst r =>
  thenTake (takeNat r) fun paGain r =>
  thenTake (takeNat r) fun pbGain r =>
  thenTake (takeNat r) fun phaseA r =>
  thenTake (takeNat r) fun phaseB r =>
  thenTake (takeNat r) fun paos r =>
  thenTake (takeNat r) fun pbos r =>
  thenTake (takeNat r) fun rmsIaos r =>
  thenTake (takeNat r) fun rmsIbos r =>
  thenTake (takeNat r) fun ibGain r =>
  thenTake (takeNat r) fun psGain r =>
  thenTake (takeNat r) fun psos r =>
  .ok (⟨hfconst, paGain, pbGain, phaseA, phaseB, paos, pbos, rmsIaos, rmsIbos, ibGain, psGain, psos⟩, r)

/-! ### Operations -/

/-- The operation with number `op` (R64) and its operands (R65) from the bytes after the number, with
the bytes that are left. -/
def decodeOperands (op : Byte) (bs : List Byte) : Parsed Instr :=
  match op.toNat with
  | 0x00 =>
    thenTake (takeByte bs) fun h r =>
    thenTake (takeByte r) fun a r =>
    thenTake (takePayload r) fun p r =>
    .ok (.cksum h a p, r)
  | 0x01 =>
    thenTake (takeByte bs) fun a r =>
    .ok (.encRead a, r)
  | 0x02 =>
    thenTake (takeByte bs) fun a r =>
    thenTake (takePayload r) fun p r =>
    .ok (.encWrite a p, r)
  | 0x03 =>
    thenTake (takeByte bs) fun a r =>
    thenTake (takeByte r) fun k r =>
    .ok (.encCmd a k, r)
  | 0x04 =>
    thenTake (takeByte bs) fun h r =>
    thenTake (takeByte r) fun a r =>
    thenTake (takePayload r) fun p r =>
    thenTake (takeByte r) fun c r =>
    .ok (.validate h a p c, r)
  | 0x10 =>
    thenTake (takeByte bs) fun a r =>
    thenTake (takeByte r) fun w r =>
    .ok (.rdReg a w.toNat, r)
  | 0x11 =>
    thenTake (takeByte bs) fun a r =>
    thenTake (takePayload r) fun p r =>
    .ok (.wrReg a p, r)
  | 0x12 =>
    thenTake (takeByte bs) fun a r =>
    thenTake (takeByte r) fun k r =>
    .ok (.sendCmd a k, r)
  | 0x13 => .ok (.reset, bs)
  | 0x14 =>
    thenTake (takeSel bs) fun ch r =>
    .ok (.selCh ch, r)
  | 0x20 =>
    thenTake (takeRatio bs) fun k1A r =>
    thenTake (takeRatio r) fun k1B r =>
    thenTake (takeRatio r) fun k2 r =>
    .ok (.setRatio k1A k1B k2, r)
  | 0x21 => .ok (.getRatio, bs)
  | 0x22 =>
    thenTake (takeSel bs) fun ch r =>
    .ok (.getPga ch, r)
  | 0x23 => .ok (.getSel, bs)
  | 0x24 =>
    thenTake (takeSel bs) fun ch r =>
    thenTake (takeNat r) fun g r =>
    .ok (.setPga ch g, r)
  | 0x25 =>
    thenTake (takeRegId bs) fun reg r =>
    thenTake (takeNat r) fun mask r =>
    thenTake (takeNat r) fun value r =>
    .ok (.rmwField reg mask value, r)
  | 0x26 => .ok (.loadCoef, bs)
  | 0x27 =>
    thenTake (takeCalRec bs) fun rec r =>
    .ok (.applyCal rec, r)
  | 0x30 =>
    thenTake (takePayload bs) fun p r =>
    .ok (.decU p, r)
  | 0x31 =>
    thenTake (takePayload bs) fun p r =>
    .ok (.decS p, r)
  | 0x32 =>
    thenTake (takeInt bs) fun n r =>
    thenTake (takeInt r) fun d r =>
    .ok (.rdiv n d, r)
  | 0x33 =>
    thenTake (takeSel bs) fun ch r =>
    .ok (.convRms ch, r)
  | 0x34 =>
    thenTake (takeSel bs) fun ch r =>
    .ok (.convPower ch, r)
  | 0x35 =>
    thenTake (takeSel bs) fun ch r =>
    .ok (.convEnergy ch, r)
  | 0x36 => .ok (.convFreq, bs)
  | 0x37 => .ok (.convPf, bs)
  | 0x38 => .ok (.convPhase, bs)
  | _ => .error (.unknownOp op)

/-- The operation presented as `bs` at the host port. Lines beyond the row's operands are not read
(log 13). -/
def decodeOp (bs : List Byte) : Except DecodeError Instr :=
  match bs with
  | [] => .error .empty
  | op :: r =>
    match decodeOperands op r with
    | .error e => .error e
    | .ok (i, _) => .ok i

/-! ### Frames -/

/-- A command frame with code `k` and checksum byte `ck` (R58): one of the five named commands if its
checksum is right and its code is theirs. -/
def decodeCommand (c : Codes) (k ck : Byte) : Instr :=
  if Machine.cksumMatches hdrByte ctrlAddr [k] ck then
    if k = c.wren then .wren
    else if k = c.wrdis then .wrdis
    else if k = c.selA then .selA
    else if k = c.selB then .selB
    else if k = c.reset then .devreset
    else .cf k ck
  else .cf k ck

/-- The frame a write frame's bytes after its address make (R57), where a payload has up to `n` bytes. -/
def decodeWrite (n : Nat) (wa : Byte) (rest : List Byte) : Except DecodeError Instr :=
  match rest.getLast? with
  | none => .error .truncated
  | some ck =>
    if rest.length ≤ n + 1 then .ok (.wf wa rest.dropLast ck)
    else .error (.badFrameLength (rest.length + 2))

/-- A frame to the device whose end is known, by its format: the row of the table it is (R56 to R58). It is
no part of a step of the device, which finds its frames by their address byte (R69: `deviceFrame`). -/
def decodeFrame (b : Board) (bs : List Byte) : Except DecodeError Instr :=
  match bs with
  | [] => .error .empty
  | h :: r =>
    if h ≠ hdrByte then .error (.badHeader h)
    else
      match r with
      | [] => .error .truncated
      | [a] => .ok (.rq a)
      | [a, k, ck] => if a = ctrlAddr then .ok (decodeCommand b.codes k ck) else .ok (.wf a [k] ck)
      | a :: rest => decodeWrite b.nmax a rest

/-- A response (R59), its end known. -/
def decodeResponse (b : Board) (bs : List Byte) : Except DecodeError Instr :=
  match bs.getLast? with
  | none => .error .empty
  | some ck => if bs.length ≤ b.nmax + 1 then .ok (.rs bs.dropLast ck) else .error (.badFrameLength bs.length)

/-- Decoding at a port. -/
def decode (b : Board) : Port → List Byte → Except DecodeError Instr
  | .host, bs => decodeOp bs
  | .down, bs => decodeFrame b bs
  | .up, bs => decodeResponse b bs

/-! ### Encoding -/

/-- The port an instruction is received at. -/
def Instr.port : Instr → Port
  | .rq _ | .wf _ _ _ | .cf _ _ | .wren | .wrdis | .selA | .selB | .devreset => .down
  | .rs _ _ => .up
  | .cksum _ _ _ | .encRead _ | .encWrite _ _ | .encCmd _ _ | .validate _ _ _ _ | .rdReg _ _ | .wrReg _ _
  | .sendCmd _ _ | .reset | .selCh _ | .setRatio _ _ _ | .getRatio | .getPga _ | .getSel | .setPga _ _
  | .rmwField _ _ _ | .loadCoef | .applyCal _ | .decU _ | .decS _ | .rdiv _ _ | .convRms _ | .convPower _
  | .convEnergy _ | .convFreq | .convPf | .convPhase => .host

/-- A count. -/
def putCount (n : Nat) : List Byte := List.replicate (n / 255) 0xFF ++ [BitVec.ofNat 8 (n % 255)]

/-- A payload operand. -/
def putPayload (p : List Byte) : List Byte := putCount p.length ++ p

/-- The least number of bytes that hold `n`. -/
def byteLen (n : Nat) : Nat := if n = 0 then 0 else n.log2 / 8 + 1

/-- A natural number operand. -/
def putNat (n : Nat) : List Byte := putPayload (Machine.serBytes n (byteLen n))

/-- The natural number an integer operand is carried as: 0, -1, 1, -2, 2, … -/
def zigzag (v : Int) : Nat :=
  if 0 ≤ v then 2 * v.toNat else 2 * (-v).toNat - 1

/-- An integer operand. -/
def putInt (v : Int) : List Byte := putNat (zigzag v)

/-- A channel selector operand. -/
def putSel (ch : BitVec 2) : List Byte := [BitVec.ofNat 8 ch.toNat]

/-- A ratio operand. -/
def putRatio (r : RawRatio) : List Byte := putInt r.num ++ putNat r.den

/-- The number of a logical identifier. -/
def regIdCode : RegId → Nat
  | .rmsIA => 0 | .rmsIB => 1 | .rmsU => 2 | .powerPA => 3 | .powerPB => 4
  | .energyPA => 5 | .energyPB => 6 | .freqU => 7 | .pf => 8 | .angle => 9
  | .coefRmsA => 10 | .coefRmsB => 11 | .coefRmsU => 12 | .coefPowerA => 13 | .coefPowerB => 14
  | .coefPowerS => 15 | .coefEnergyA => 16 | .coefEnergyB => 17 | .hfconst => 18 | .paGain => 19
  | .pbGain => 20 | .phaseA => 21 | .phaseB => 22 | .paos => 23 | .pbos => 24
  | .rmsIaos => 25 | .rmsIbos => 26 | .ibGain => 27 | .psGain => 28 | .psos => 29
  | .other k => k + namedRegs

/-- A logical identifier operand. -/
def putRegId (r : RegId) : List Byte := putCount (regIdCode r)

/-- A CalibrationRecord operand. -/
def putCalRec (c : CalRec) : List Byte :=
  putNat c.hfconst ++ (putNat c.paGain ++ (putNat c.pbGain ++ (putNat c.phaseA ++
  (putNat c.phaseB ++ (putNat c.paos ++ (putNat c.pbos ++ (putNat c.rmsIaos ++
  (putNat c.rmsIbos ++ (putNat c.ibGain ++ (putNat c.psGain ++ putNat c.psos))))))))))

/-- The bytes of an instruction at its port, under the command codes `c`. -/
def encode (c : Codes) : Instr → List Byte
  | .rq a => Machine.readFrame a
  | .wf wa p ck => [hdrByte, wa] ++ p ++ [ck]
  | .cf k ck => [hdrByte, ctrlAddr, k, ck]
  | .rs p ck => p ++ [ck]
  | .wren => Machine.cmdFrame ctrlAddr c.wren
  | .wrdis => Machine.cmdFrame ctrlAddr c.wrdis
  | .selA => Machine.cmdFrame ctrlAddr c.selA
  | .selB => Machine.cmdFrame ctrlAddr c.selB
  | .devreset => Machine.cmdFrame ctrlAddr c.reset
  | .cksum h a p => [0x00, h, a] ++ putPayload p
  | .encRead a => [0x01, a]
  | .encWrite a p => [0x02, a] ++ putPayload p
  | .encCmd a k => [0x03, a, k]
  | .validate h a p ck => [0x04, h, a] ++ (putPayload p ++ [ck])
  | .rdReg a w => [0x10, a, BitVec.ofNat 8 w]
  | .wrReg a p => [0x11, a] ++ putPayload p
  | .sendCmd a k => [0x12, a, k]
  | .reset => [0x13]
  | .selCh ch => 0x14 :: putSel ch
  | .setRatio k1A k1B k2 => 0x20 :: (putRatio k1A ++ (putRatio k1B ++ putRatio k2))
  | .getRatio => [0x21]
  | .getPga ch => 0x22 :: putSel ch
  | .getSel => [0x23]
  | .setPga ch g => 0x24 :: (putSel ch ++ putNat g)
  | .rmwField reg mask value => 0x25 :: (putRegId reg ++ (putNat mask ++ putNat value))
  | .loadCoef => [0x26]
  | .applyCal rec => 0x27 :: putCalRec rec
  | .decU p => 0x30 :: putPayload p
  | .decS p => 0x31 :: putPayload p
  | .rdiv n d => 0x32 :: (putInt n ++ putInt d)
  | .convRms ch => 0x33 :: putSel ch
  | .convPower ch => 0x34 :: putSel ch
  | .convEnergy ch => 0x35 :: putSel ch
  | .convFreq => [0x36]
  | .convPf => [0x37]
  | .convPhase => [0x38]

/-! ### The words of the opcode table -/

/-- Whether a word of the table is one of a frame to the device: a 16-bit word has its first byte in
the high byte (the table's note on `RQ`), an 8-bit word is that byte. -/
def wordIsFrame (nbits w : Nat) : Bool :=
  if nbits = 16 then w / 256 == 0xA5 else w == 0xA5

/-- The bytes of a frame word, every byte the table gives no bits being 0: the shortest frame of the
row (`RQ` 2 bytes, `CF` 4 bytes, `WF` 3 bytes). -/
def wordFrame (nbits w : Nat) : List Byte :=
  if nbits = 16 then
    if w % 256 = 0xEA then [hdrByte, ctrlAddr, 0, 0] else [hdrByte, BitVec.ofNat 8 w]
  else [hdrByte, 0, 0]

/-- The bytes of an operation word: the number and operand bytes of 0, as many as the longest row
has. -/
def wordOp (w : Nat) : List Byte :=
  BitVec.ofNat 8 w :: List.replicate 48 0

/-- The bytes of a word of a row without fixed bits, which is `RS`: the shortest response. -/
def wordResponse : List Byte := [0]

/-- What the decoder reads from a word of the opcode table. -/
def decodeTableWord (nbits w : Nat) : Option Instr :=
  if nbits = 0 then (decodeResponse Config.board.val wordResponse).toOption
  else if wordIsFrame nbits w then (decodeFrame Config.board.val (wordFrame nbits w)).toOption
  else if w < 256 then (decodeOp (wordOp w)).toOption
  else none

end Sys2Proof
end

