-- ==== Sys2Proof/Machine/State.lean ====
section
/-! DEFINITION. The state of the machine: the block (10_state), its ports, and the environment the
spec names (10_state R29, 20_memory), with the state right after reset (R30, R143). -/

namespace Sys2Proof.Machine

/-- The ten statuses (R124). -/
inductive Status where
  | ok
  | invalidParam
  | ioError
  | ioMissingBytes
  | incorrectResponse
  | noResponse
  | notImplemented
  | bufferTooSmall
  | checksumMismatch
  | invalidData
  deriving DecidableEq, Repr, Inhabited

/-- The number of a status (R124). -/
def statusCode : Status → Nat
  | .ok => 0
  | .invalidParam => 1
  | .ioError => 2
  | .ioMissingBytes => 3
  | .incorrectResponse => 4
  | .noResponse => 5
  | .notImplemented => 6
  | .bufferTooSmall => 7
  | .checksumMismatch => 8
  | .invalidData => 9

/-- The results of R65; `none` for an operation without one and for every status but `OK`. -/
inductive Result where
  | none
  | byte (b : Byte)
  | bytes (p : List Byte)
  | bool (b : Bool)
  | int (v : Int)
  | gain (g : Nat)
  | ratio (r : Ratio3)
  | chan (ch : CurCh)
  deriving DecidableEq, Repr, Inhabited

/-- What leaves on the host port when an operation ends (R15, R123). -/
structure Response where
  status : Status
  result : Result
  deriving DecidableEq, Repr, Inhabited

/-- The transport's answer to a `Send` (R43). -/
inductive SendAnswer where
  | sent (n : Nat)
  | fail
  deriving DecidableEq, Repr, Inhabited

/-- The transport's answer to a `Recv` (R44). -/
inductive RecvAnswer where
  | got (bs : List Byte)
  | fail
  deriving DecidableEq, Repr, Inhabited

/-- What the transport will answer a `Recv` with: bytes of the environment's choice, what has arrived
on the line from the device, or a failure (log 9, log 10). -/
inductive RecvPlan where
  | bytes (bs : List Byte)
  | line
  | fail
  deriving DecidableEq, Repr, Inhabited

/-- An answered transaction as the operation sees it. -/
inductive Answer where
  | send (a : SendAnswer)
  | recv (a : RecvAnswer)
  deriving DecidableEq, Repr, Inhabited

/-- An answered transaction as an observer sees it (R4): what was presented, and the answer. -/
inductive Event where
  | send (frame : List Byte) (a : SendAnswer)
  | recv (n : Nat) (a : RecvAnswer)
  deriving DecidableEq, Repr, Inhabited

/-- Where the operation in progress stands (R16): the operation, and the answers its transactions
have had so far. The other two are the model's own. `slipped`: a frame of this operation was not taken whole,
so the device may not know where the next one begins (U9; log 18). `pending`: the frame of a `Send` the
transport has not answered (R139; log 35). -/
structure Seq where
  op : Option Instr
  answers : List Answer
  slipped : Bool
  pending : Option (List Byte)
  deriving DecidableEq, Repr

/-- No operation in progress (R16). -/
def Seq.idle : Seq := ⟨none, [], false, none⟩

/-- `seq.busy` (R16). -/
def Seq.busy (q : Seq) : Bool := q.op.isSome

/-- `seq.phase` (R16): the transport transactions answered so far, which is the index of the next one from 0.
It counts a transaction when its answer comes: while the first `Send` is presented and unanswered it is 0,
where the comments in R81 and R82 call that transaction 1 (log 11, DESIGN CHOICE). -/
def Seq.phase (q : Seq) : Nat := q.answers.length

/-- The device context (R19 to R23). -/
structure Ctx where
  sel : CurCh
  pga : Pga
  ratio : Ratio3
  coef : CoefCache
  ifkind : IfKind
  deriving DecidableEq, Repr

/-- The known content of the remote register space: byte `i` of register `a` at `i * 256 + a`. -/
abbrev Memory := List Host.Cell

/-- The remote device as the block may assume it (R29, R46 to R49), with the bytes on the line to the
block (R45). `ready`: in frame synchronism and past the settle time. `outOfRange`: the register values
it does not store as written (U10). `tick` counts its free values. -/
structure Device where
  we : Bool
  sel : CurCh
  reg : Memory
  line : List Byte
  ready : Bool
  outOfRange : List (Byte × Nat)
  tick : Nat
  deriving DecidableEq, Repr

/-- What the host presents (R64, R143, R145, R159). -/
inductive HostItem where
  | op (bs : List Byte)
  | create (k : IfKind)
  | destroy
  | settled
  deriving DecidableEq, Repr, Inhabited

/-- What comes from outside the block and the host: a frame on the line to the device, bytes on the
line to the block, answers of the transport that come late, and a power cycle of the device (R157). -/
inductive WorldItem where
  | down (bs : List Byte)
  | up (bs : List Byte)
  | sendAnswer (a : SendAnswer)
  | recvAnswer (p : RecvPlan)
  | powerCycle
  deriving DecidableEq, Repr, Inhabited

/-- The state. The block: `seq`, `ctx`, `tx`, `rx`, `created`, and its parameters `board`. Its ports:
`host`, `out`. The environment: `sends`, `recvs`, `log`, `world`, `dev`. The model's counter: `draws`. -/
structure State where
  seq : Seq
  ctx : Ctx
  tx : List Byte
  rx : List Byte
  created : Bool
  board : WfBoard
  host : List HostItem
  out : Option Response
  sends : List SendAnswer
  recvs : List RecvPlan
  log : List Event
  world : List WorldItem
  dev : Device
  draws : Nat
  deriving DecidableEq, Repr

/-- The faults: closed. The block itself has none (R135); every error of an operation is a status. -/
inductive Fault where
  /-- Raised by the step when the bytes at the host port are no presentation of a row of the table: no byte
  at all, or operands cut short. R64 and R65 have no such presentation (log 12, log 13). Safe: the machine
  stops. -/
  | undecodable (e : DecodeError)
  deriving DecidableEq, Repr

/-- The refusals: closed. -/
inductive Refusal where
  /-- Raised by `exec` for an instruction without a meaning. Safe: the machine stops. -/
  | notModelled (mnemonic : String)
  /-- Raised by `CONV_POWER` with channel `S`, to which R112 and U2 give no result and no status.
  Safe: the machine stops. -/
  | apparentPower
  /-- Raised by the step for an operation presented after the context was destroyed and before the
  next creation (R145, U17). Safe: the machine stops. -/
  | contextDestroyed
  /-- Raised by the step when a second agent's frame reaches the device between the frames of one
  operation (R151, U12) or, by the model's choice, before the first of them or during an operation of one frame
  (log 25). Safe: the machine stops. -/
  | interleavedAgent
  deriving DecidableEq, Repr

/-- The gain at position `i` of `PgaSet`, counted around it. -/
def gainAt (b : WfBoard) (i : Nat) : Nat :=
  ((b.val.gains.map Prod.fst)[i % b.val.gains.length]?).getD 0

/-- The ratio with numerator `p.1 + 1` and denominator `p.2 + 1`. -/
def ratioAt (p : Nat × Nat) : Ratio := Ratio.reduce (p.1 + 1) (p.2 + 1)

/-- A context whose fields are drawn: any selection, any gains of `PgaSet`, any ratios (R30). -/
def drawnCtx (b : WfBoard) (d : ContextDraw) (coef : CoefCache) (k : IfKind) : Ctx where
  sel := d.sel
  pga := ⟨gainAt b d.gainA, gainAt b d.gainB, gainAt b d.gainU⟩
  ratio := ⟨ratioAt d.k1A, ratioAt d.k1B, ratioAt d.k2⟩
  coef := coef
  ifkind := k

/-- The transmit buffer where its content is not defined (R26). -/
def drawnTx (b : WfBoard) (n : Nat) : List Byte := (Config.freeTx n).take (b.val.nmax + 3)

/-- The receive buffer where its content is not defined (R26). -/
def drawnRx (b : WfBoard) (n : Nat) : List Byte := (Config.freeRx n).take (b.val.nmax + 1)

/-- Right after reset (R30, R143): the sequencer idle, `ctx.coef = NotLoaded`, `ctx.ifkind` as given,
the unspecified fields drawn (log 6), nothing presented, nothing sent and nothing answered. -/
def State.reset : State where
  seq := Seq.idle
  ctx := drawnCtx Config.board (Config.resetDraw 0) .notLoaded Config.ifKind
  tx := drawnTx Config.board 0
  rx := drawnRx Config.board 0
  created := true
  board := Config.board
  host := []
  out := none
  sends := []
  recvs := []
  log := []
  world := []
  dev :=
    { we := (Config.deviceDraw 0).we
      sel := (Config.deviceDraw 0).sel
      reg := []
      line := []
      ready := (Config.deviceDraw 0).ready
      outOfRange := Config.outOfRange
      tick := 1 }
  draws := 1

end Sys2Proof.Machine
end

