-- ==== Sys2Proof/Machine/Device.lean ====
section
/-! DEFINITION. The remote device and its register memory: environment (R29). What a frame does when
it is delivered (R46 to R49, R69), and the free reaction where the spec states none (U7 to U9, U17). -/

namespace Sys2Proof.Machine

/-! ### The register memory -/

/-- The cell of byte `i` of the register at read address `a`: a register has as many cells as it is wide. -/
def cellAddr (a : Byte) (i : Nat) : Nat := i * 256 + a.toNat

/-- The byte at a cell, if it is known. -/
def readCell : Memory → Nat → Option Byte
  | [], _ => none
  | (k, v) :: rest, a => if a = k then some v else readCell rest a

/-- The memory with one cell set; the list stays sorted. -/
def writeCell : Memory → Nat → Byte → Memory
  | [], a, v => [(a, v)]
  | (k, u) :: rest, a, v =>
    if a < k then (a, v) :: (k, u) :: rest
    else if a = k then (a, v) :: rest
    else (k, u) :: writeCell rest a v

/-- The canonical form: addresses strictly rising. An unlisted cell has no known value, so no entry can
equal what an unlisted address reads as. -/
def Memory.wf (m : Memory) : Bool :=
  decide ((m.map Prod.fst).Pairwise (· < ·))

/-- `n` bytes of a register from a cell on, if all are known. -/
def readCells (m : Memory) (a : Nat) : Nat → Option (List Byte)
  | 0 => some []
  | n + 1 =>
    match readCell m a, readCells m (a + 256) n with
    | some v, some vs => some (v :: vs)
    | _, _ => none

/-- Bytes of a register stored from a cell on. -/
def writeCells (m : Memory) (a : Nat) : List Byte → Memory
  | [] => m
  | v :: vs => writeCells (writeCell m a v) (a + 256) vs

/-- `dev.reg[a]` at width `w` (R29), if it is known. -/
def readReg (m : Memory) (a : Byte) (w : Nat) : Option (List Byte) :=
  readCells m (cellAddr a 0) w

/-- `dev.reg[a] <- p`. -/
def writeReg (m : Memory) (a : Byte) (p : List Byte) : Memory :=
  writeCells m (cellAddr a 0) p

/-- The memory with nothing known of register `a`. -/
def forgetReg (m : Memory) (a : Byte) : Memory :=
  m.filter fun c => c.1 % 256 != a.toNat

/-! ### The device's registers -/

/-- The width of the register at a read address (R34). Where two identifiers stand for one address with two
widths, which R10 does not exclude, the one listed first gives it (log 34, DESIGN CHOICE). -/
def widthAt (b : Board) (a : Byte) : Option Nat :=
  (b.regTable.find? fun p => p.2.raddr == a).map fun p => p.2.width

/-- Whether an identifier with this property stands for the register at a read address. -/
def anyAt (b : Board) (a : Byte) (f : RegId → Bool) : Bool :=
  b.regTable.any fun p => p.2.raddr == a && f p.1

/-- Whether the device itself changes the register at a read address (R49). It changes a measurement register
R35 names, and one the configuration takes for such; of those that only the configuration takes for such it
leaves a coefficient or calibration register alone, under whichever identifier that is one (log 20). -/
def measuresAt (b : Board) (a : Byte) : Bool :=
  anyAt b a RegId.isMeasurement || (anyAt b a b.mayChange && !anyAt b a b.isStatic)

/-- The read address of a write address (R32). -/
def readAddrOf (wa : Byte) : Byte := wa &&& 0x7F

/-! ### What the spec leaves open -/

/-- What a frame can reach in the device when its effect is not stated: only what the device puts on the line,
its write-enable, its selection, one register, or everything (log 18). -/
inductive Touch where
  | answer
  | enable
  | select
  | register (a : Byte)
  | all
  deriving DecidableEq, Repr, Inhabited

/-- Bytes that begin no frame reach nothing, unless a header is among them, from which the device may take a
frame to begin (R69). -/
def strayTouch (bs : List Byte) : Touch := if bs.contains hdrByte then .all else .answer

/-- A command frame reaches what its code commands; a code that is none of the five can command anything. -/
def commandTouch (c : Codes) (k : Byte) : Touch :=
  if k = c.wren ∨ k = c.wrdis then .enable
  else if k = c.selA ∨ k = c.selB then .select
  else .all

/-- What a frame reaches: a read request the line, a write frame the register it addresses. -/
def frameTouch (c : Codes) (f : List Byte) : Touch :=
  match f with
  | [] => .answer
  | h :: r =>
    if h ≠ hdrByte then strayTouch r
    else
      match r with
      | [] => .answer
      | a :: rest =>
        if a = ctrlAddr then
          match rest with
          | [] => .answer
          | [k, _] => commandTouch c k
          | _ => .all
        else if a.msb then .register (readAddrOf a)
        else strayTouch rest

/-- The device with what `t` names drawn: any value (U7, U8). It may put any bytes on the line, and one that was
not ready is not ready by this. -/
def deviceOpen (d : Device) (t : Touch) : Device :=
  let x := Config.deviceDraw d.tick
  let e := { d with line := d.line ++ x.line, tick := d.tick + 1 }
  match t with
  | .answer => e
  | .enable => { e with we := x.we }
  | .select => { e with sel := x.sel }
  | .register a => { e with reg := forgetReg d.reg a }
  | .all => { e with we := x.we, sel := x.sel, reg := [], ready := d.ready && x.ready }

/-- The device after a frame it should not get (U7): what the frame reaches is drawn. Any frame before the
settle time is over can reach everything (U8). -/
def deviceUpset (c : Codes) (d : Device) (f : List Byte) : Device :=
  deviceOpen d (if d.ready then frameTouch c f else .all)

/-- The device after a frame of which any part may have reached it (U9): its write-enable is open unless the
frame was a read request. -/
def deviceLost (c : Codes) (d : Device) (f : List Byte) : Device :=
  { deviceUpset c d f with
    we := if 2 < f.length then (Config.deviceDraw d.tick).we else (deviceUpset c d f).we }

/-- The device after its reset command (R48, U17): write-enable, selection and registers drawn, and
not ready before its settle time is over (R159). -/
def deviceReset (d : Device) : Device :=
  let x := Config.deviceDraw d.tick
  { d with we := x.we, sel := x.sel, ready := false, reg := [], tick := d.tick + 1 }

/-- The device after a power cycle (R157): the spec gives no value of it, and it may be ready at once
(log 36). -/
def devicePowerCycle (d : Device) : Device :=
  let x := Config.deviceDraw d.tick
  { d with we := x.we, sel := x.sel, ready := x.ready, reg := [], tick := d.tick + 1 }

/-! ### What a delivered frame does -/

/-- A payload of width `w` that nothing is known of. -/
def drawnPayload (n w : Nat) : List Byte := (List.range w).map (Config.freeByte n)

/-- The content of register `a`, and the device after it was looked at: a known register that only
writes change gives what it holds; a register the device changes itself, or one whose content is not known,
holds some content (R49). -/
def deviceContent (b : Board) (d : Device) (a : Byte) (w : Nat) : List Byte × Device :=
  match (if measuresAt b a then none else readReg d.reg a w) with
  | some p => (p, d)
  | none =>
    let p := drawnPayload d.tick w
    (p, { d with reg := writeReg d.reg a p, tick := d.tick + 1 })

/-- A read request at the device (R46): the register's bytes and their checksum go on the line. What it answers
for an address it does not have is not stated (U7). -/
def deviceRead (b : Board) (d : Device) (a : Byte) : Device :=
  match widthAt b a with
  | none => deviceOpen d .answer
  | some w =>
    let (p, d') := deviceContent b d a w
    { d' with line := d'.line ++ p ++ [cksumByte hdrByte a p] }

/-- A write frame of the register's width at the device (R47). A value out of the device's range is stored as
something (U10). -/
def deviceWrite (d : Device) (wa : Byte) (p : List Byte) (ck : Byte) : Device :=
  if cksumMatches hdrByte wa p ck && d.we then
    if (readAddrOf wa, beNat p) ∈ d.outOfRange then
      { d with reg := writeReg d.reg (readAddrOf wa) (drawnPayload d.tick p.length), tick := d.tick + 1 }
    else { d with reg := writeReg d.reg (readAddrOf wa) p }
  else deviceOpen d (.register (readAddrOf wa))

/-- A command frame at the device (R47, R48). -/
def deviceCommand (c : Codes) (d : Device) (k ck : Byte) : Device :=
  if cksumMatches hdrByte ctrlAddr [k] ck then
    if k = c.wren then { d with we := true }
    else if k = c.wrdis then { d with we := false }
    else if k = c.selA then { d with sel := .A }
    else if k = c.selB then { d with sel := .B }
    else if k = c.reset then deviceReset d
    else deviceOpen d .all
  else deviceOpen d .all

/-- Bytes after the frame the device has found, and before the next one it is given. -/
def deviceStray (d : Device) (bs : List Byte) : Device :=
  if bs.isEmpty then d else deviceOpen d (strayTouch bs)

/-- What a ready device does with the bytes it is given at once, by the procedure of R69: byte 0 must be
`HDR`; to the control address it is a command of 4 bytes; with bit 7 of byte 1 clear a read request of 2
bytes; else a write frame whose payload has the width of the register. A frame that is too short for
this, or whose register the device does not have, is one it should not get (U7), and so are the bytes
beyond it. -/
def deviceFrame (b : Board) (d : Device) (f : List Byte) : Device :=
  match f with
  | h :: a :: rest =>
    if h ≠ hdrByte then deviceUpset b.codes d f
    else if a = ctrlAddr then
      match rest with
      | k :: ck :: more => deviceStray (deviceCommand b.codes d k ck) more
      | _ => deviceUpset b.codes d f
    else if a.msb then
      match widthAt b (readAddrOf a) with
      | none => deviceStray (deviceUpset b.codes d f) rest
      | some w =>
        if rest.length = w + 1 then deviceWrite d a (rest.take w) (rest.getD w 0)
        else deviceStray (deviceUpset b.codes d f) (rest.drop (w + 1))
    else deviceStray (deviceRead b d a) rest
  | _ => deviceUpset b.codes d f

/-- A frame delivered to the device (R47, R48): handled if the device is ready for it; before its
settle time is over its reaction is not stated (U8). -/
def deviceReceive (b : Board) (d : Device) (f : List Byte) : Device :=
  if d.ready then deviceFrame b d f else deviceUpset b.codes d f

end Sys2Proof.Machine
end

