-- ==== Sys2Proof/Machine/Ops.lean ====
section
/-! DEFINITION. The shared operations: the transport transactions (R43, R44), a program of
transactions and its run (R16, R50), the end of an operation with its status (R123, R135), and the
named register accesses every operation is built of (R80 to R84). -/

namespace Sys2Proof.Machine

/-! ### Transactions -/

/-- The answer the transport gives to a `Send` of `len` bytes: it never takes more than it is offered
(R43). -/
def sendAnswerOf (len : Nat) : SendAnswer → SendAnswer
  | .sent n => .sent (min n len)
  | .fail => .fail

/-- Whether a `Send`'s answer says that the whole frame was taken (R43, R80). -/
def tookAll (f : List Byte) (a : SendAnswer) : Bool :=
  a == .sent f.length

/-- The device after the transport answered a `Send`: a frame taken whole is delivered (R50); of a
frame taken in part, or whose send failed, any part may have been (U9; log 18). -/
def deviceAfterSend (b : Board) (d : Device) (f : List Byte) (a : SendAnswer) : Device :=
  if tookAll f a then deviceReceive b d f else deviceLost b.codes d f

/-- The next `Send` is the data frame of a `WR_REG` to the control address (R33, U6): the answers so far
are the enable frame's alone. -/
def isControlData (q : Seq) : Bool :=
  match q.op with
  | some (.wrReg addr _) => writeAddr addr == ctrlAddr && q.answers.length == 1
  | _ => false

/-- The device after a `Send` of the operation in progress. After one of its frames was not taken whole the
device may not know where the next begins, and any part of it may be lost on it (R45, U9; log 18). What it does with
a data frame at the control address is not stated (U6; log 22). -/
def sendEffect (s : State) (f : List Byte) (a : SendAnswer) : Device :=
  if s.seq.slipped then deviceLost s.board.val.codes s.dev f
  else if isControlData s.seq && tookAll f a then deviceUpset s.board.val.codes s.dev f
  else deviceAfterSend s.board.val s.dev f a

/-- The sequencer after an answered `Send`. -/
def Seq.sent (q : Seq) (f : List Byte) (a : SendAnswer) : Seq :=
  ⟨q.op, q.answers ++ [.send a], q.slipped || !tookAll f a, none⟩

/-- The sequencer after an answered `Recv`. -/
def Seq.received (q : Seq) (a : RecvAnswer) : Seq :=
  ⟨q.op, q.answers ++ [.recv a], q.slipped, none⟩

/-- `Send(f)` (R43): none while the transport has not answered (R139). Only with the answer has the frame reached
the device (log 35, DESIGN CHOICE). -/
def transSend (f : List Byte) (s : State) : Option (SendAnswer × State) :=
  match s.sends with
  | [] => none
  | plan :: rest =>
    let a := sendAnswerOf f.length plan
    some (a,
      { s with
        sends := rest
        tx := f
        log := s.log ++ [.send f a]
        dev := sendEffect s f a
        seq := s.seq.sent f a })

/-- The transport's answer to a `Recv(n)` and the bytes then left on the line: it never delivers more
than `n` bytes (R44). A receive that fails leaves all of them, which R160 and U5 leave open (log 10, DESIGN
CHOICE). -/
def recvAnswerOf (n : Nat) (line : List Byte) : RecvPlan → RecvAnswer × List Byte
  | .bytes bs => (.got (bs.take n), line)
  | .line => (.got (line.take n), line.drop n)
  | .fail => (.fail, line)

/-- The receive buffer after an answer: it holds what was delivered (R26). -/
def rxAfter (s : State) : RecvAnswer → List Byte
  | .got bs => bs
  | .fail => s.rx

/-- `Recv(n)` (R44): none while the transport has not answered (R139). -/
def transRecv (n : Nat) (s : State) : Option (RecvAnswer × State) :=
  match s.recvs with
  | [] => none
  | plan :: rest =>
    let r := recvAnswerOf n s.dev.line plan
    some (r.1,
      { s with
        recvs := rest
        rx := rxAfter s r.1
        log := s.log ++ [.recv n r.1]
        dev := { s.dev with line := r.2 }
        seq := s.seq.received r.1 })

/-! ### Programs of transactions -/

/-- What an operation does (00_scope section 6, R16): return a value, raise a status, or make a
transaction and go on with its answer. -/
inductive Prog (α : Type) where
  | ret (a : α)
  | raise (st : Status)
  | send (frame : List Byte) (k : SendAnswer → Prog α)
  | recv (n : Nat) (k : RecvAnswer → Prog α)

/-- How a program stands: ended with a value, ended with a status, or waiting for the transport. -/
inductive RunEnd (α : Type) where
  | done (a : α)
  | raised (st : Status)
  | waiting

/-- What is left of a program after transactions that were answered before. An answer of the other kind
cannot come and is skipped over. -/
def progAfter {α : Type} : Prog α → List Answer → Prog α
  | p, [] => p
  | .send _ k, .send a :: h => progAfter (k a) h
  | .recv _ k, .recv a :: h => progAfter (k a) h
  | p, _ :: _ => p

/-- The state while a `Send` is presented and unanswered (R139): the frame stands in the transmit buffer, and the
device is as it was, whatever part of the frame the transport may have taken (log 35, DESIGN CHOICE). -/
def presentSend (f : List Byte) (s : State) : State :=
  { s with tx := f, seq := { s.seq with pending := some f } }

/-- A run of a program: its transactions one after another in program order (R50), as far as the
transport answers (R139). -/
def runProg {α : Type} : Prog α → State → RunEnd α × State
  | .ret a, s => (.done a, s)
  | .raise st, s => (.raised st, s)
  | .send f k, s =>
    match transSend f s with
    | none => (.waiting, presentSend f s)
    | some (a, t) => runProg (k a) t
  | .recv n k, s =>
    match transRecv n s with
    | none => (.waiting, s)
    | some (a, t) => runProg (k a) t

/-! ### An operation's beginning and end -/

/-- The end of an operation that made no transaction, or of one whose buffers are then drawn (R26): the
response leaves, the block is idle (R16, R135). -/
def finishOp (s : State) (resp : Response) (c : Ctx) : State :=
  if s.seq.answers = [] then { s with ctx := c, out := some resp, seq := Seq.idle }
  else
    { s with
      ctx := c, out := some resp, seq := Seq.idle
      tx := drawnTx s.board s.draws, rx := drawnRx s.board s.draws, draws := s.draws + 1 }

/-- The sequencer when operation `i` begins, or is taken up again. -/
def Seq.taken (q : Seq) (i : Instr) : Seq := ⟨some i, q.answers, q.slipped, none⟩

/-- The operation `i` with its program `p`: taken up where its answered transactions left it (R16), run
as far as the transport answers, and ended with `OK`, its result and its new context, or with the
status it raised and the context as it was (R123, R135). -/
def perform (i : Instr) (p : Prog (Result × Ctx)) (s : State) : State :=
  match runProg (progAfter p s.seq.answers) { s with out := none, seq := s.seq.taken i } with
  | (.done (r, c), t) => finishOp t ⟨.ok, r⟩ c
  | (.raised st, t) => finishOp t ⟨st, .none⟩ t.ctx
  | (.waiting, t) => t

/-! ### Codec calls -/

/-- `raise BUFFER_TOO_SMALL` above `NMAX`, else go on (R130). -/
def withinBuffer {α : Type} (b : Board) (n : Nat) (k : Prog α) : Prog α :=
  if b.nmax < n then .raise .bufferTooSmall else k

/-- `raise INVALID_PARAM` for a value that is not there, else go on with it (R125). -/
def orInvalid {α β : Type} (x : Option α) (k : α → Prog β) : Prog β :=
  match x with
  | none => .raise .invalidParam
  | some a => k a

/-- `DEC_U` (R105). -/
def progDecU {α : Type} (b : Board) (p : List Byte) (k : Nat → Prog α) : Prog α :=
  withinBuffer b p.length (k (beNat p))

/-- `DEC_S` (R106). -/
def progDecS {α : Type} (b : Board) (p : List Byte) (k : Int → Prog α) : Prog α :=
  if p.length = 0 then .raise .invalidParam else withinBuffer b p.length (k (beInt p))

/-! ### Register access -/

/-- The status `SendFrame` returns (R80). -/
def sendStatus (f : List Byte) (a : SendAnswer) : Status :=
  if tookAll f a then .ok else .ioError

/-- `SendFrame(f)` (R80). -/
def sendFrame {α : Type} (f : List Byte) (k : Status → Prog α) : Prog α :=
  .send f fun a => k (sendStatus f a)

/-- What `RD_REG` makes of a `Recv(w + 1)` (R81): the count, then the checksum. -/
def checkResponse {α : Type} (addr : Byte) (w : Nat) (k : List Byte → Prog α) : RecvAnswer → Prog α
  | .fail => .raise .ioError
  | .got b =>
    if b.length < w + 1 then .raise .ioMissingBytes
    else if cksumMatches hdrByte addr (b.take w) (b.getD w 0) then k (b.take w)
    else .raise .checksumMismatch

/-- `RD_REG(addr, w)` (R81). -/
def progRdReg {α : Type} (b : Board) (addr : Byte) (w : Nat) (k : List Byte → Prog α) : Prog α :=
  withinBuffer b w <|
    sendFrame (readFrame addr) fun s =>
      if s = .ok then .recv (w + 1) (checkResponse addr w k) else .raise .ioError

/-- `WR_REG(addr, payload)` (R82, R83). -/
def progWrReg {α : Type} (b : Board) (addr : Byte) (payload : List Byte) (k : Prog α) : Prog α :=
  withinBuffer b payload.length <|
    sendFrame (cmdFrame ctrlAddr b.codes.wren) fun s1 =>
      if s1 ≠ .ok ∧ b.wrContinue = false then .raise .ioError
      else
        sendFrame (writeFrame (writeAddr addr) payload) fun s2 =>
          sendFrame (cmdFrame ctrlAddr b.codes.wrdis) fun s3 =>
            if s1 ≠ .ok then .raise .ioError
            else if s2 ≠ .ok then .raise .ioError
            else if s3 ≠ .ok then .raise .ioError
            else k

/-- `SEND_CMD(caddr, code)` (R84). -/
def progSendCmd {α : Type} (caddr code : Byte) (k : Prog α) : Prog α :=
  sendFrame (cmdFrame caddr code) fun s => if s = .ok then k else .raise .ioError

/-- `RegTable[reg]` and a read of that register at its width (R38). -/
def progRead {α : Type} (b : Board) (r : RegId) (k : List Byte → Prog α) : Prog α :=
  orInvalid (b.entry r) fun e => progRdReg b e.raddr e.width k

/-- `RMW_FIELD(reg, mask, value)` (R94). -/
def progRmw {α : Type} (b : Board) (r : RegId) (mask value : RegVal) (k : Prog α) : Prog α :=
  orInvalid (b.entry r) fun e =>
    progRdReg b e.raddr e.width fun p =>
      progDecU b p fun old =>
        progWrReg b e.raddr
          (serBytes (mergeField e.width old (fieldOf e.width mask) (fieldOf e.width value)) e.width) k

end Sys2Proof.Machine
end

