-- ==== Sys2Proof/Machine/Codec.lean ====
section
/-! DEFINITION. The frame codec (40_framecodec): pure operations, no transaction, no state (R79). -/

namespace Sys2Proof.Machine

/-- `CKSUM` (R73). -/
def execCksum (hdr addr : Byte) (payload : List Byte) (s : State) : Host.Outcome State Fault Refusal :=
  .next (perform (.cksum hdr addr payload)
    (withinBuffer s.board.val payload.length (.ret (.byte (cksumByte hdr addr payload), s.ctx))) s)

/-- `ENC_READ` (R74). -/
def execEncRead (addr : Byte) (s : State) : Host.Outcome State Fault Refusal :=
  .next (perform (.encRead addr) (.ret (.bytes (readFrame addr), s.ctx)) s)

/-- `ENC_WRITE` (R75). -/
def execEncWrite (waddr : Byte) (payload : List Byte) (s : State) : Host.Outcome State Fault Refusal :=
  .next (perform (.encWrite waddr payload)
    (withinBuffer s.board.val payload.length (.ret (.bytes (writeFrame waddr payload), s.ctx))) s)

/-- `ENC_CMD` (R76). -/
def execEncCmd (caddr code : Byte) (s : State) : Host.Outcome State Fault Refusal :=
  .next (perform (.encCmd caddr code) (.ret (.bytes (cmdFrame caddr code), s.ctx)) s)

/-- `VALIDATE` (R77). -/
def execValidate (hdr addr : Byte) (payload : List Byte) (rxck : Byte) (s : State) :
    Host.Outcome State Fault Refusal :=
  .next (perform (.validate hdr addr payload rxck)
    (withinBuffer s.board.val payload.length (.ret (.bool (cksumMatches hdr addr payload rxck), s.ctx))) s)

end Sys2Proof.Machine
end

