-- ==== Sys2Proof/Machine/Composite.lean ====
section
/-! DEFINITION. The composite sequences (42_context_sequences R93 to R104): `SET_PGA`, `RMW_FIELD`,
`LOAD_COEF`, `APPLY_CAL`. -/

namespace Sys2Proof.Machine

/-- `PgaCode(g) << shift` as the value `RMW_FIELD` is given (R93). -/
def pgaValue (code : Nat) (f : FieldDesc) : RegVal := code <<< f.shift

/-- `SET_PGA` (R93): the read-modify-write, then the context. -/
def execSetPga (ch : BitVec 2) (g : Nat) (s : State) : Host.Outcome State Fault Refusal :=
  .next (perform (.setPga ch g)
    (orInvalid (ch3Of ch) fun c =>
      orInvalid (s.board.val.gains.lookup g) fun code =>
        let f := s.board.val.pgaField c
        progRmw s.board.val f.reg f.mask (pgaValue code f)
          (.ret (.none, { s.ctx with pga := setGain s.ctx.pga g c }))) s)

/-- `RMW_FIELD` (R94): written back even when nothing changes (D23). -/
def execRmwField (reg : RegId) (mask value : RegVal) (s : State) : Host.Outcome State Fault Refusal :=
  .next (perform (.rmwField reg mask value)
    (progRmw s.board.val reg mask value (.ret (.none, s.ctx))) s)

/-- The reads of `LOAD_COEF` in `COEF_ORDER`, into a set of the operation's own (R101). -/
def progLoadCoefs {α : Type} (b : Board) : List (CoefField × RegId) → CoefSet → (CoefSet → Prog α) → Prog α
  | [], tmp, k => k tmp
  | (f, r) :: rest, tmp, k =>
    progRead b r fun p =>
      progDecU b p fun v => progLoadCoefs b rest (setCoef tmp (BitVec.ofNat 16 v) f) k

/-- The set `LOAD_COEF` starts from (R101: an empty CoefficientSet); every field is read before it is
used. -/
def emptyCoefs : CoefSet := ⟨0, 0, 0, 0, 0, 0, 0, 0, 0⟩

/-- `LOAD_COEF` (R101): one assignment to `ctx.coef`, after the ninth read. -/
def execLoadCoef (s : State) : Host.Outcome State Fault Refusal :=
  .next (perform .loadCoef
    (progLoadCoefs s.board.val s.board.val.coefOrder emptyCoefs fun cs =>
      .ret (.none, { s.ctx with coef := .loaded cs })) s)

/-- The writes of `APPLY_CAL` in `CAL_ORDER` (R103); the first that raises ends them. -/
def progApplyCal {α : Type} (b : Board) (rec : CalRec) : List (CalField × RegId) → Prog α → Prog α
  | [], k => k
  | (f, r) :: rest, k =>
    orInvalid (b.entry r) fun e =>
      progWrReg b e.raddr (serBytes (fieldOf e.width (calField rec f)) e.width)
        (progApplyCal b rec rest k)

/-- `APPLY_CAL` (R103): `ctx.coef` stays as it was (R54, R155). -/
def execApplyCal (rec : CalRec) (s : State) : Host.Outcome State Fault Refusal :=
  .next (perform (.applyCal rec)
    (progApplyCal s.board.val rec s.board.val.calOrder (.ret (.none, s.ctx))) s)

end Sys2Proof.Machine
end

