-- ==== Sys2Proof/Machine/Context.lean ====
section
/-! DEFINITION. The context operations (42_context_sequences R89 to R92): no transaction. -/

namespace Sys2Proof.Machine

/-- `SET_RATIO` (R89): the three constants together; a port value that is no positive rational gives
`INVALID_PARAM`. -/
def execSetRatio (k1A k1B k2 : RawRatio) (s : State) : Host.Outcome State Fault Refusal :=
  .next (perform (.setRatio k1A k1B k2)
    (orInvalid (ratioOf k1A) fun a =>
      orInvalid (ratioOf k1B) fun b =>
        orInvalid (ratioOf k2) fun c =>
          .ret (.none, { s.ctx with ratio := ⟨a, b, c⟩ })) s)

/-- `GET_RATIO` (R90). -/
def execGetRatio (s : State) : Host.Outcome State Fault Refusal :=
  .next (perform .getRatio (.ret (.ratio s.ctx.ratio, s.ctx)) s)

/-- `GET_PGA` (R91). -/
def execGetPga (ch : BitVec 2) (s : State) : Host.Outcome State Fault Refusal :=
  .next (perform (.getPga ch)
    (orInvalid (ch3Of ch) fun c => .ret (.gain (getGain s.ctx.pga c), s.ctx)) s)

/-- `GET_SEL` (R92). -/
def execGetSel (s : State) : Host.Outcome State Fault Refusal :=
  .next (perform .getSel (.ret (.chan s.ctx.sel, s.ctx)) s)

end Sys2Proof.Machine
end

