-- ==== Sys2Proof/Machine/Convert.lean ====
section
/-! DEFINITION. The measurement converter (43_conversion R108 to R121): the scaling functions with the
obligations of R121 by construction (log 4), the common wrapper (R110) and the six quantities. -/

namespace Sys2Proof.Machine

/-! ### Scaling -/

/-- `raw[r] <- x` on a finite map (R110 step 3): a key keeps the place of its first assignment and the value of
its last. -/
def assign {α : Type} (m : List (RegId × α)) (r : RegId) (x : α) : List (RegId × α) :=
  match m with
  | [] => [(r, x)]
  | (k, y) :: rest => if k = r then (r, x) :: rest else (k, y) :: assign rest r x

/-- The raw value the obligations of R121 speak of: that of the quantity's own register (log 27). -/
def mainRaw (b : Board) (q : Quantity) (a : ScaleArgs) : Int := (a.raws.lookup (b.mainRegister q)).getD 0

/-- A numerator with its denominator, which is positive. -/
abbrev Fraction := Int × Nat

/-- `p ≤ q` as quotients, by R121's cross multiplication. -/
def Fraction.le (p q : Fraction) : Bool := decide (p.1 * q.2 ≤ q.1 * p.2)

/-- The rounding division of the two is not negative (R113): the quotient is above minus one half. -/
def Fraction.roundsNonneg (p : Fraction) : Bool := decide (-(p.2 : Int) < 2 * p.1)

/-- The free `Num_energy` and `Den_energy` with the raw value `r` in place of the one in the arguments; both may
depend on it in any way (R13). -/
def energyFree (b : Board) (ch : CurCh) (a : ScaleArgs) (r : Int) : Fraction :=
  let x := { a with raws := assign a.raws (b.mainRegister (.energy ch)) r }
  (Config.energyNum ch x, Config.denPred (.energy ch) x + 1)

/-- The least fraction R121 allows at the raw value `n + 1` after the fraction `p` at `n`: `p`, and at the wrap
`256 ^ w` no less than the rounded result of `p`. -/
def energyFloor (w n : Nat) (p : Fraction) : Fraction :=
  if n + 1 = 256 ^ w then (max p.1 (rdivInt p.1 p.2 * p.2), p.2) else p

/-- The fraction at a raw value from 0 up: the free one wherever R113 and R121 allow it, and else the least one that
they allow. Every pair of functions that meets the two rules is one of these (log 4). -/
def energyUp (free : Int → Fraction) (w : Nat) : Nat → Fraction
  | 0 => if (free 0).roundsNonneg then free 0 else (0, 1)
  | n + 1 =>
    let least := energyFloor w n (energyUp free w n)
    if least.le (free (n + 1)) then free (n + 1) else least

/-- The fraction at the raw value `-n`, held to the same rules, of which R121 does not speak (log 39, DESIGN CHOICE):
the free one wherever they allow it, and else the one at `-(n - 1)`. -/
def energyDown (free : Int → Fraction) (w : Nat) : Nat → Fraction
  | 0 => energyUp free w 0
  | n + 1 =>
    let p := free (-(n + 1))
    if p.le (energyDown free w n) && p.roundsNonneg then p else energyDown free w n

/-- `Num_energy` with `Den_energy` (R13) at the arguments' raw value, for a register of the main register's width. -/
def energyFraction (b : Board) (ch : CurCh) (a : ScaleArgs) : Fraction :=
  let w := ((b.entry (b.mainRegister (.energy ch))).map RegEntry.width).getD 0
  let raw := mainRaw b (.energy ch) a
  if raw < 0 then energyDown (energyFree b ch a) w (-raw).toNat else energyUp (energyFree b ch a) w raw.toNat

/-- `Num_q` (R13). For RMS a natural number, 0 at a raw value of 0; for power with the sign of the raw
value (R121). -/
def scaleNum (b : Board) (q : Quantity) (a : ScaleArgs) : Int :=
  match q with
  | .rms ch => if mainRaw b (.rms ch) a = 0 then 0 else Config.rmsNum ch a
  | .power ch => (mainRaw b (.power ch) a).sign * Config.powerMag ch a
  | .energy ch => (energyFraction b ch a).1
  | .freq => Config.plainNum .freq a
  | .pf => Config.plainNum .pf a
  | .phase => Config.plainNum .phase a

/-- `Den_q`, strictly positive (R13). -/
def scaleDen (b : Board) (q : Quantity) (a : ScaleArgs) : Nat :=
  match q with
  | .energy ch => (energyFraction b ch a).2
  | .rms ch => Config.denPred (.rms ch) a + 1
  | .power ch => Config.denPred (.power ch) a + 1
  | .freq => Config.denPred .freq a + 1
  | .pf => Config.denPred .pf a + 1
  | .phase => Config.denPred .phase a + 1

/-- What leaves on the port for an exact result: itself, or a free 32-bit value where it does not
fit (R118, U4; log 5). -/
def portInt (n : Nat) (v : Int) : Int :=
  if fitsPort v then v else (Config.freeInt32 n).toInt

/-! ### The wrapper -/

/-- Decoding of a register by its signedness (R110 step 3). -/
def progDec {α : Type} (b : Board) (r : RegId) (p : List Byte) (k : Int → Prog α) : Prog α :=
  if b.isSigned r then progDecS b p k else progDecU b p fun v => k v

/-- The registers of `Regs_q`, each read and decoded in order (R110 step 3): the map from a register to its payload
and its value. A register that `Regs_q` names again is read again, and its later payload and value take the place of
the earlier ones. DEDUCED (log 27). -/
def progReads {α : Type} (b : Board) :
    List RegId → List (RegId × List Byte × Int) → (List (RegId × List Byte × Int) → Prog α) → Prog α
  | [], acc, k => k acc
  | r :: rest, acc, k =>
    progRead b r fun p => progDec b r p fun v => progReads b rest (assign acc r (p, v)) k

/-- The value the quantity's special cases give, if one applies (R111: a raw RMS of 0; R112: every byte
of the power payload `0xFF`). -/
def specialCase (q : Quantity) (p : List Byte) (raw : Int) : Option Int :=
  match q with
  | .rms _ => if raw = 0 then some 0 else none
  | .power _ => if p.all (fun d => d == 0xFF) then some 0 else none
  | .energy _ | .freq | .pf | .phase => none

/-- The arguments of the scaling functions (R120). -/
def scaleArgs (c : Ctx) (cs : CoefSet) (raws : List (RegId × Int)) : ScaleArgs :=
  { raws := raws, coef := cs, pga := c.pga, ratio := c.ratio, sel := c.sel }

/-- Steps 4 and 5 of R110: the special cases, on the payload `p` of the main register (log 27), else the
rounding division of `Num_q` by `Den_q`. -/
def convResult (b : Board) (q : Quantity) (a : ScaleArgs) (p : List Byte) : Int :=
  match specialCase q p (mainRaw b q a) with
  | some v => v
  | none => rdivInt (scaleNum b q a) (scaleDen b q a)

/-- Steps 2 to 5 of R110 for a quantity whose channel is in its domain. -/
def progConv (s : State) (q : Quantity) : Prog (Result × Ctx) :=
  match s.ctx.coef with
  | .notLoaded => .raise .invalidData
  | .loaded cs =>
    progReads s.board.val (s.board.val.regsOf q) [] fun xs =>
      .ret (.int (portInt s.draws (convResult s.board.val q
        (scaleArgs s.ctx cs (xs.map fun x => (x.1, x.2.2)))
        ((xs.lookup (s.board.val.mainRegister q)).map Prod.fst |>.getD []))), s.ctx)

/-! ### The six quantities -/

/-- `CONV_RMS` (R111). -/
def execConvRms (ch : BitVec 2) (s : State) : Host.Outcome State Fault Refusal :=
  .next (perform (.convRms ch) (orInvalid (ch3Of ch) fun c => progConv s (.rms c)) s)

/-- `CONV_POWER` (R112). Channel `S` has no meaning (U2, D27): it is refused. -/
def execConvPower (ch : BitVec 2) (s : State) : Host.Outcome State Fault Refusal :=
  if ch = 2 then .refused .apparentPower
  else .next (perform (.convPower ch) (orInvalid (curChOf ch) fun c => progConv s (.power c)) s)

/-- `CONV_ENERGY` (R113). -/
def execConvEnergy (ch : BitVec 2) (s : State) : Host.Outcome State Fault Refusal :=
  .next (perform (.convEnergy ch) (orInvalid (curChOf ch) fun c => progConv s (.energy c)) s)

/-- `CONV_FREQ` (R114). -/
def execConvFreq (s : State) : Host.Outcome State Fault Refusal :=
  .next (perform .convFreq (progConv s .freq) s)

/-- `CONV_PF` (R115). -/
def execConvPf (s : State) : Host.Outcome State Fault Refusal :=
  .next (perform .convPf (progConv s .pf) s)

/-- `CONV_PHASE` (R116). -/
def execConvPhase (s : State) : Host.Outcome State Fault Refusal :=
  .next (perform .convPhase (progConv s .phase) s)

end Sys2Proof.Machine
end

