-- ==== Sys2Proof/Machine/Kernel.lean ====
section
/-! DEFINITION. The pure kernels of the converter (43_conversion R105 to R107). Their result on the
port is the integer itself: only a `CONV_*` result is limited to 32 bits (R118; log 5). -/

namespace Sys2Proof.Machine

/-- `DEC_U` (R105). -/
def execDecU (payload : List Byte) (s : State) : Host.Outcome State Fault Refusal :=
  .next (perform (.decU payload) (progDecU s.board.val payload fun v => .ret (.int v, s.ctx)) s)

/-- `DEC_S` (R106). -/
def execDecS (payload : List Byte) (s : State) : Host.Outcome State Fault Refusal :=
  .next (perform (.decS payload) (progDecS s.board.val payload fun v => .ret (.int v, s.ctx)) s)

/-- `RDIV` (R107). -/
def execRdiv (num den : Int) (s : State) : Host.Outcome State Fault Refusal :=
  .next (perform (.rdiv num den)
    (if den ≤ 0 then .raise .invalidParam else .ret (.int (rdivInt num den.toNat), s.ctx)) s)

end Sys2Proof.Machine
end

