-- ==== Sys2Proof/Machine/Register.lean ====
section
/-! DEFINITION. Register access (41_register_access): `RD_REG`, `WR_REG`, `SEND_CMD`, `RESET`,
`SEL_CH`. The first three are address-agnostic (R88). -/

namespace Sys2Proof.Machine

/-- `RD_REG` (R81). -/
def execRdReg (addr : Byte) (w : Nat) (s : State) : Host.Outcome State Fault Refusal :=
  .next (perform (.rdReg addr w) (progRdReg s.board.val addr w fun p => .ret (.bytes p, s.ctx)) s)

/-- `WR_REG` (R82, R83). -/
def execWrReg (addr : Byte) (payload : List Byte) (s : State) : Host.Outcome State Fault Refusal :=
  .next (perform (.wrReg addr payload)
    (progWrReg s.board.val addr payload (.ret (.none, s.ctx))) s)

/-- `SEND_CMD` (R84). -/
def execSendCmd (caddr code : Byte) (s : State) : Host.Outcome State Fault Refusal :=
  .next (perform (.sendCmd caddr code) (progSendCmd caddr code (.ret (.none, s.ctx))) s)

/-- `RESET` (R85): no context field is written (R146). -/
def execReset (s : State) : Host.Outcome State Fault Refusal :=
  .next (perform .reset (progSendCmd ctrlAddr s.board.val.codes.reset (.ret (.none, s.ctx))) s)

/-- The command code that selects a channel (R86). -/
def selectCode (c : Codes) : CurCh → Byte
  | .A => c.selA
  | .B => c.selB

/-- `SEL_CH` (R86). -/
def execSelCh (ch : BitVec 2) (s : State) : Host.Outcome State Fault Refusal :=
  .next (perform (.selCh ch)
    (orInvalid (curChOf ch) fun c =>
      progSendCmd ctrlAddr (selectCode s.board.val.codes c) (.ret (.none, { s.ctx with sel := c }))) s)

end Sys2Proof.Machine
end

