-- ==== Sys2Proof/Machine/Wire.lean ====
section
/-! DEFINITION. The wire-frame rows of the table: a whole frame arriving where it is received, at the
remote device (R47, R48, R69) or, for `RS`, at the block's side of the line (R46, R59). Log 17. -/

namespace Sys2Proof.Machine

/-- A frame arrives at the device. -/
def frameArrives (f : List Byte) (s : State) : State :=
  { s with dev := deviceReceive s.board.val s.dev f }

/-- Bytes arrive on the line to the block, and the transport has them to deliver. -/
def responseArrives (bs : List Byte) (s : State) : State :=
  { s with dev := { s.dev with line := s.dev.line ++ bs }, recvs := s.recvs ++ [.line] }

/-- `RQ` (R56): the device answers with the register's bytes and their checksum (R46). -/
def execRq (addr : Byte) (s : State) : Host.Outcome State Fault Refusal :=
  .next (frameArrives (readFrame addr) s)

/-- `WF` (R57): the device stores the payload if it is write-enabled and the frame is right (R47). -/
def execWf (waddr : Byte) (payload : List Byte) (cks : Byte) (s : State) : Host.Outcome State Fault Refusal :=
  .next (frameArrives ([hdrByte, waddr] ++ payload ++ [cks]) s)

/-- `CF` (R58): a command by its code (R47, R48), or one the device does not know (U7). -/
def execCf (code cks : Byte) (s : State) : Host.Outcome State Fault Refusal :=
  .next (frameArrives [hdrByte, ctrlAddr, code, cks] s)

/-- `RS` (R59): payload and checksum arrive at the block. -/
def execRs (payload : List Byte) (cks : Byte) (s : State) : Host.Outcome State Fault Refusal :=
  .next (responseArrives (payload ++ [cks]) s)

/-- `WREN` (R82): the device becomes write-enabled (R47). -/
def execWren (s : State) : Host.Outcome State Fault Refusal :=
  .next (frameArrives (cmdFrame ctrlAddr s.board.val.codes.wren) s)

/-- `WRDIS` (R82): the device becomes write-protected (R47). -/
def execWrdis (s : State) : Host.Outcome State Fault Refusal :=
  .next (frameArrives (cmdFrame ctrlAddr s.board.val.codes.wrdis) s)

/-- `SEL_A` (R86): the device selects channel A (R48). -/
def execSelA (s : State) : Host.Outcome State Fault Refusal :=
  .next (frameArrives (cmdFrame ctrlAddr s.board.val.codes.selA) s)

/-- `SEL_B` (R86): the device selects channel B (R48). -/
def execSelB (s : State) : Host.Outcome State Fault Refusal :=
  .next (frameArrives (cmdFrame ctrlAddr s.board.val.codes.selB) s)

/-- `DEVRESET` (R85): the device resets (R48). -/
def execDevreset (s : State) : Host.Outcome State Fault Refusal :=
  .next (frameArrives (cmdFrame ctrlAddr s.board.val.codes.reset) s)

end Sys2Proof.Machine
end

