-- ==== Sys2Proof/Machine/Dispatch.lean ====
section
/-! DEFINITION. One arm per instruction. -/

namespace Sys2Proof.Machine

def exec (i : Instr) (s : State) : Host.Outcome State Fault Refusal :=
  match i with
  | .rq addr => Sys2Proof.Machine.execRq addr s
  | .wf waddr payload cks => Sys2Proof.Machine.execWf waddr payload cks s
  | .cf code cks => Sys2Proof.Machine.execCf code cks s
  | .rs payload cks => Sys2Proof.Machine.execRs payload cks s
  | .wren => Sys2Proof.Machine.execWren s
  | .wrdis => Sys2Proof.Machine.execWrdis s
  | .selA => Sys2Proof.Machine.execSelA s
  | .selB => Sys2Proof.Machine.execSelB s
  | .devreset => Sys2Proof.Machine.execDevreset s
  | .cksum hdr addr payload => Sys2Proof.Machine.execCksum hdr addr payload s
  | .encRead addr => Sys2Proof.Machine.execEncRead addr s
  | .encWrite waddr payload => Sys2Proof.Machine.execEncWrite waddr payload s
  | .encCmd caddr code => Sys2Proof.Machine.execEncCmd caddr code s
  | .validate hdr addr payload rxck => Sys2Proof.Machine.execValidate hdr addr payload rxck s
  | .rdReg addr w => Sys2Proof.Machine.execRdReg addr w s
  | .wrReg addr payload => Sys2Proof.Machine.execWrReg addr payload s
  | .sendCmd caddr code => Sys2Proof.Machine.execSendCmd caddr code s
  | .reset => Sys2Proof.Machine.execReset s
  | .selCh ch => Sys2Proof.Machine.execSelCh ch s
  | .setRatio k1A k1B k2 => Sys2Proof.Machine.execSetRatio k1A k1B k2 s
  | .getRatio => Sys2Proof.Machine.execGetRatio s
  | .getPga ch => Sys2Proof.Machine.execGetPga ch s
  | .getSel => Sys2Proof.Machine.execGetSel s
  | .setPga ch g => Sys2Proof.Machine.execSetPga ch g s
  | .rmwField reg mask value => Sys2Proof.Machine.execRmwField reg mask value s
  | .loadCoef => Sys2Proof.Machine.execLoadCoef s
  | .applyCal rec => Sys2Proof.Machine.execApplyCal rec s
  | .decU payload => Sys2Proof.Machine.execDecU payload s
  | .decS payload => Sys2Proof.Machine.execDecS payload s
  | .rdiv num den => Sys2Proof.Machine.execRdiv num den s
  | .convRms ch => Sys2Proof.Machine.execConvRms ch s
  | .convPower ch => Sys2Proof.Machine.execConvPower ch s
  | .convEnergy ch => Sys2Proof.Machine.execConvEnergy ch s
  | .convFreq => Sys2Proof.Machine.execConvFreq s
  | .convPf => Sys2Proof.Machine.execConvPf s
  | .convPhase => Sys2Proof.Machine.execConvPhase s

end Sys2Proof.Machine
end

