-- ==== Sys2Proof/Machine/Port.lean ====
section
/-! DEFINITION. The ports: what the step does with what the host presents (R17, R64, R66, R143, R145,
R159) and with what arrives from outside (R43 to R45, R139, R151). -/

namespace Sys2Proof.Machine

/-- The device when the block gives up the operation in progress: as it was, but where a `Send` is presented and
unanswered, of whose frame any part may have reached it (log 35, DESIGN CHOICE). -/
def deviceAbandoned (s : State) : Device :=
  match s.seq.pending with
  | none => s.dev
  | some f => deviceLost s.board.val.codes s.dev f

/-- The block's reset: a context is created (R143). The sequencer is idle, `ctx.coef = NotLoaded`,
`ctx.ifkind` as given, the rest drawn; nothing is sent, and the device is as it was (R146), if no `Send`
stands unanswered (log 35). -/
def createContext (k : IfKind) (s : State) : State :=
  { s with
    seq := Seq.idle
    ctx := drawnCtx s.board (Config.resetDraw s.draws) .notLoaded k
    tx := drawnTx s.board s.draws
    rx := drawnRx s.board s.draws
    created := true
    out := none
    dev := deviceAbandoned s
    draws := s.draws + 1 }

/-- The context is destroyed (R145): nothing is sent, and the device is as it was, if no `Send` stands unanswered
(log 35); the block's state is then unspecified until the next reset, and no operation runs. An operation in
progress ends without a status (log 38, DESIGN CHOICE). -/
def destroyContext (s : State) : State :=
  { s with
    seq := Seq.idle
    ctx := drawnCtx s.board (Config.resetDraw s.draws) (Config.resetDraw s.draws).coef
      (Config.resetDraw s.draws).ifkind
    tx := drawnTx s.board s.draws
    rx := drawnRx s.board s.draws
    created := false
    out := none
    dev := deviceAbandoned s
    draws := s.draws + 1 }

/-- The device is past its settle time (R159) and in frame synchronism: the host's event (D28). -/
def deviceSettled (s : State) : State :=
  { s with dev := { s.dev with ready := true } }

/-- The response to an operation number that names no operation (R66). -/
def respondUnknown (s : State) : State :=
  { s with out := some ⟨.notImplemented, .none⟩ }

/-- An operation is presented to an idle block (R17, R64). -/
def acceptOp (bs : List Byte) (s : State) : Host.Outcome State Fault Refusal :=
  if s.created then
    match decodeOp bs with
    | .ok i => exec i s
    | .error (.unknownOp _) => .next (respondUnknown s)
    | .error e => .fault (.undecodable e)
  else .refused .contextDestroyed

/-- The block with nothing new at its ports: the operation in progress goes on as far as the transport
answers (R16, R139), or the block waits for the host (R144). -/
def advance (s : State) : Host.Outcome State Fault Refusal :=
  match s.seq.op with
  | some i => exec i s
  | none => .next s

/-- What the host presents first. An operation presented to a busy block is held (R17); creation,
destruction and the settle event are not operations and take effect at once. -/
def hostStep (s : State) : Host.Outcome State Fault Refusal :=
  match s.host with
  | [] => advance s
  | .create k :: rest => .next (createContext k { s with host := rest })
  | .destroy :: rest => .next (destroyContext { s with host := rest })
  | .settled :: rest => .next (deviceSettled { s with host := rest })
  | .op bs :: rest =>
    match s.seq.op with
    | some i => exec i s
    | none => acceptOp bs { s with host := rest }

/-- A frame arrives at the device that the block did not send (R151, U12). U12 refuses a run in which it comes
between the frames of one operation. That it is refused all the time an operation is in progress, while the first
`Send` stands unanswered and during an operation of one frame too, is the model's choice (log 25, DESIGN CHOICE).
Bytes of no format are something the device takes as it can (R69, U7). -/
def downArrives (bs : List Byte) (s : State) : Host.Outcome State Fault Refusal :=
  match s.seq.op with
  | some _ => .refused .interleavedAgent
  | none =>
    match decodeFrame s.board.val bs with
    | .ok i => exec i s
    | .error _ => .next (frameArrives bs s)

/-- Bytes arrive on the line to the block: a response frame (R59), or any other bytes. -/
def upArrives (bs : List Byte) (s : State) : Host.Outcome State Fault Refusal :=
  match decodeResponse s.board.val bs with
  | .ok i => exec i s
  | .error _ => .next (responseArrives bs s)

/-- The device loses its power and has it again (R157): the block does not see it (log 36). -/
def powerCycled (s : State) : State :=
  { s with dev := devicePowerCycle s.dev }

/-- What arrives from outside. -/
def worldStep (w : WorldItem) (s : State) : Host.Outcome State Fault Refusal :=
  match w with
  | .down bs => downArrives bs s
  | .up bs => upArrives bs s
  | .sendAnswer a => .next { s with sends := s.sends ++ [a] }
  | .recvAnswer p => .next { s with recvs := s.recvs ++ [p] }
  | .powerCycle => .next (powerCycled s)

/-- One step: what came from outside first, then the host, then the operation in progress. -/
def portStep (s : State) : Host.Outcome State Fault Refusal :=
  match s.world with
  | w :: rest => worldStep w { s with world := rest }
  | [] => hostStep s

/-- An idle block with a context, an operation word presented first and nothing waiting outside. -/
def presentOp (bs : List Byte) (s : State) : State :=
  { s with seq := Seq.idle, created := true, world := [], host := .op bs :: s.host }

/-- An idle block with a context, a frame to the device arriving first. -/
def presentFrame (bs : List Byte) (s : State) : State :=
  { s with seq := Seq.idle, created := true, world := .down bs :: s.world }

/-- An idle block with a context, bytes on the line to it arriving first. -/
def presentResponse (bs : List Byte) (s : State) : State :=
  { s with seq := Seq.idle, created := true, world := .up bs :: s.world }

/-- A word of the opcode table, stored where the next step takes it from (log 14, log 28). -/
def placeWord (s : State) (nbits w : Nat) : State :=
  if nbits = 0 then presentResponse wordResponse s
  else if wordIsFrame nbits w then presentFrame (wordFrame nbits w) s else presentOp (wordOp w) s

end Sys2Proof.Machine
end

