-- ==== Sys2Proof/Machine/Feature.lean ====
section
/-! DEFINITION. The configuration entries without an operation number (42_context_sequences R96, R97): the
operation the host issues for each, made from the entry's descriptor and codes. -/

namespace Sys2Proof.Machine

/-- The `n`-th setting of an entry: `RMW_FIELD(d.reg, d.mask, code << d.shift)` with its `n`-th code (R96). -/
def featureSet (b : Board) (f : Feature) (n : Nat) : Option Instr :=
  match b.features.lookup f with
  | none => none
  | some d => (d.codes[n]?).map fun code => .rmwField d.field.reg d.field.mask (code <<< d.field.shift)

/-- The "disable" of an entry that is a switch (R96). -/
def featureDisable (b : Board) (f : Feature) : Option Instr :=
  if f.isSwitch then featureSet b f 0 else none

/-- The "enable" of an entry that is a switch (R96). -/
def featureEnable (b : Board) (f : Feature) : Option Instr :=
  if f.isSwitch then featureSet b f 1 else none

/-- The `RD_REG` of an entry's "get" (R96), which also tells whether a switch is on (R98). -/
def featureGet (b : Board) (f : Feature) : Option Instr :=
  match b.features.lookup f with
  | none => none
  | some d => (b.entry d.field.reg).map fun e => .rdReg e.raddr e.width

/-- The extraction of a "get" from the payload that read gave: `(DEC_U(p) & d.mask) >> d.shift` (R96). -/
def featureValue (b : Board) (f : Feature) (p : List Byte) : Option Nat :=
  (b.features.lookup f).map fun d => fieldValue d.field p

end Sys2Proof.Machine
end

