-- ==== Sys2Proof/Safety.lean ====
section
/-! DEFINITION. The terms the statements use: an idle block, what an operation leaves alone, the
transport answers it needs, the invariant of the machine, and the status table after R132. -/

namespace Sys2Proof.Machine

/-- No operation is in progress (R16). -/
def Idle (s : State) : Prop := s.seq = Seq.idle

/-- What no operation ever writes: the parameters, whether a context exists, and what waits at the
ports. -/
def PortsKept (s t : State) : Prop :=
  t.board = s.board ∧ t.created = s.created ∧ t.host = s.host ∧ t.world = s.world

/-- The operation that began in `s` has ended in `t` with this response, the block idle again, nothing
waiting at the ports touched. -/
def EndedWith (s t : State) (r : Response) : Prop :=
  t.out = some r ∧ Idle t ∧ PortsKept s t

/-- The transport will take the whole of the frame (R43, R80). -/
def Takes (f : List Byte) (a : SendAnswer) : Prop :=
  tookAll f (sendAnswerOf f.length a) = true

/-- The event of a frame's `Send` under an answer of the transport. -/
def sendEvent (f : List Byte) (a : SendAnswer) : Event := .send f (sendAnswerOf f.length a)

/-- The response `w` payload bytes and their checksum make (R46, R59). -/
def goodResponse (addr : Byte) (p : List Byte) : List Byte := p ++ [cksumByte hdrByte addr p]

/-- The transactions of one read that succeeds (R81). -/
def readEvents (addr : Byte) (p : List Byte) : List Event :=
  [.send (readFrame addr) (.sent 2), .recv (p.length + 1) (.got (goodResponse addr p))]

/-- The transactions of one write bracket under these answers (R82). -/
def writeEvents (b : Board) (addr : Byte) (p : List Byte) (a1 a2 a3 : SendAnswer) : List Event :=
  [sendEvent (cmdFrame ctrlAddr b.codes.wren) a1, sendEvent (writeFrame (addr ||| 0x80) p) a2,
   sendEvent (cmdFrame ctrlAddr b.codes.wrdis) a3]

/-- The device after the frames of these transactions of one operation were sent to it, where `slipped` says
that one before them was not taken whole (U9). A receive of bytes of the environment's choice does not touch the
device. -/
def deviceAfterFrom (b : Board) (slipped : Bool) (d : Device) : List Event → Device
  | [] => d
  | .send f a :: rest =>
    deviceAfterFrom b (slipped || !tookAll f a)
      (if slipped then deviceLost b.codes d f else deviceAfterSend b d f a) rest
  | .recv _ _ :: rest => deviceAfterFrom b slipped d rest

/-- The device after the frames of an operation's transactions. -/
def deviceAfterEvents (b : Board) (d : Device) (es : List Event) : Device :=
  deviceAfterFrom b false d es

/-- The transport takes the next frames whole, one read request each, and delivers these payloads with
their right checksums. -/
def ReadsAnswered (s : State) (rs : List (Byte × List Byte)) (sends : List SendAnswer)
    (recvs : List RecvPlan) : Prop :=
  (∃ as : List SendAnswer, as.length = rs.length ∧ (∀ a ∈ as, ∃ n, a = .sent n ∧ 2 ≤ n) ∧
    s.sends = as ++ sends) ∧
  s.recvs = rs.map (fun p => RecvPlan.bytes (goodResponse p.1 p.2)) ++ recvs

/-- The operation `i` ends with the status of a read that fails, after the reads `rs` that the transport answers
well (R81, R134): the read of `w` bytes at `addr` whose request is not taken whole, or whose receive fails, is
short or has a wrong checksum. The transactions are those reads and that one, no more; the context is as it was. -/
def EndsAtFailedRead (i : Instr) (s : State) (rs : List (Byte × List Byte)) (addr : Byte) (w : Nat) : Prop :=
  ∀ (a : SendAnswer) (sends : List SendAnswer) (recvs : List RecvPlan) (evs : List Event),
    ReadsAnswered s rs (a :: sends) recvs → evs = rs.flatMap (fun q => readEvents q.1 q.2) →
    (¬ Takes (readFrame addr) a →
      ∃ t, exec i s = .next t ∧ EndedWith s t ⟨.ioError, .none⟩ ∧ t.ctx = s.ctx ∧ t.sends = sends ∧
        t.recvs = recvs ∧ t.log = s.log ++ (evs ++ [sendEvent (readFrame addr) a]) ∧
        t.dev = deviceAfterEvents s.board.val s.dev (evs ++ [sendEvent (readFrame addr) a])) ∧
    (Takes (readFrame addr) a → ∀ (plan : RecvPlan) (plans : List RecvPlan) (d : Device) (ans : RecvAnswer)
      (line : List Byte),
      recvs = plan :: plans →
      d = deviceAfterEvents s.board.val s.dev (evs ++ [.send (readFrame addr) (.sent 2)]) →
      recvAnswerOf (w + 1) d.line plan = (ans, line) →
      (∀ p : List Byte, p.length = w → ans ≠ .got (goodResponse addr p)) →
      ∃ t st, exec i s = .next t ∧ EndedWith s t ⟨st, .none⟩ ∧ t.ctx = s.ctx ∧ t.sends = sends ∧
        t.recvs = plans ∧ t.log = s.log ++ (evs ++ [.send (readFrame addr) (.sent 2), .recv (w + 1) ans]) ∧
        t.dev = { d with line := line } ∧
        (ans = .fail → st = .ioError) ∧
        (∀ bs, ans = .got bs → bs.length ≤ w → st = .ioMissingBytes) ∧
        (∀ bs, ans = .got bs → bs.length = w + 1 → st = .checksumMismatch))

/-- The conversions with a meaning, each with the quantity it converts (R109). -/
def conversions : List (Instr × Quantity) :=
  [(.convRms 0, .rms .A), (.convRms 1, .rms .B), (.convRms 2, .rms .U),
   (.convPower 0, .power .A), (.convPower 1, .power .B),
   (.convEnergy 0, .energy .A), (.convEnergy 1, .energy .B),
   (.convFreq, .freq), (.convPf, .pf), (.convPhase, .phase)]

/-- Gains of `PgaSet` and positive ratios in lowest terms (R20, R21). -/
def ctxOk (b : WfBoard) (c : Ctx) : Prop :=
  c.pga.A ∈ b.val.gains.map Prod.fst ∧ c.pga.B ∈ b.val.gains.map Prod.fst ∧
  c.pga.U ∈ b.val.gains.map Prod.fst ∧
  c.ratio.k1A.wf = true ∧ c.ratio.k1B.wf = true ∧ c.ratio.k2.wf = true

/-- A transaction as the rules allow it: a frame starts with `HDR` and fits the transmit buffer, no
more is taken than offered; a receive asks for at most `NMAX + 1` bytes and gets no more than it asks
for (R26, R43, R44, R87). -/
def eventOk (b : Board) : Event → Prop
  | .send f a =>
    f.head? = some hdrByte ∧ 2 ≤ f.length ∧ f.length ≤ b.nmax + 3 ∧
      (∀ n, a = .sent n → n ≤ f.length)
  | .recv n a => 1 ≤ n ∧ n ≤ b.nmax + 1 ∧ (∀ bs, a = .got bs → bs.length ≤ n)

/-- A response as the rules allow it: no result unless the status is `OK`, and neither of the two
statuses that no rule raises (R128, R81 "no error is downgraded to a default/zero value"). -/
def responseOk (r : Response) : Prop :=
  (r.status ≠ .ok → r.result = .none) ∧ r.status ≠ .incorrectResponse ∧ r.status ≠ .noResponse

/-- The invariant of the machine. -/
structure Inv (s : State) : Prop where
  context : ctxOk s.board s.ctx
  memory : s.dev.reg.wf = true
  transmit : s.tx.length ≤ s.board.val.nmax + 3
  receive : s.rx.length ≤ s.board.val.nmax + 1
  sequencer : s.seq.op = none → s.seq = Seq.idle
  transactions : ∀ e ∈ s.log, eventOk s.board.val e
  response : ∀ r, s.out = some r → responseOk r

/-- The statuses an operation can end with (the table after R132). A frame ends with none. -/
def allowedStatuses : Instr → List Status
  | .cksum _ _ _ | .encWrite _ _ | .validate _ _ _ _ | .decU _ => [.ok, .bufferTooSmall]
  | .encRead _ | .encCmd _ _ => [.ok]
  | .decS _ => [.ok, .invalidParam, .bufferTooSmall]
  | .rdiv _ _ => [.ok, .invalidParam]
  | .rdReg _ _ => [.ok, .ioError, .ioMissingBytes, .bufferTooSmall, .checksumMismatch]
  | .wrReg _ _ => [.ok, .ioError, .bufferTooSmall]
  | .sendCmd _ _ | .reset => [.ok, .ioError]
  | .selCh _ => [.ok, .invalidParam, .ioError]
  | .setRatio _ _ _ => [.ok, .invalidParam]
  | .getRatio | .getSel => [.ok]
  | .getPga _ => [.ok, .invalidParam]
  | .setPga _ _ | .rmwField _ _ _ => [.ok, .invalidParam, .ioError, .ioMissingBytes, .checksumMismatch]
  | .loadCoef => [.ok, .ioError, .ioMissingBytes, .checksumMismatch]
  | .applyCal _ => [.ok, .ioError]
  | .convRms _ | .convPower _ | .convEnergy _ =>
    [.ok, .invalidParam, .ioError, .ioMissingBytes, .checksumMismatch, .invalidData]
  | .convFreq | .convPf | .convPhase =>
    [.ok, .ioError, .ioMissingBytes, .checksumMismatch, .invalidData]
  | .rq _ | .wf _ _ _ | .cf _ _ | .rs _ _ | .wren | .wrdis | .selA | .selB | .devreset => []

/-- The operations of the frame codec (R79). -/
def isCodec : Instr → Bool
  | .cksum _ _ _ | .encRead _ | .encWrite _ _ | .encCmd _ _ | .validate _ _ _ _ => true
  | _ => false

/-- The operations presented at the host port (R64), with a meaning on their operands: all but the
wire frames and `CONV_POWER(S)`. -/
def isOperation (i : Instr) : Bool :=
  decide (i.port = .host) && decide (i ≠ .convPower 2)

end Sys2Proof.Machine
end

