-- ==== Sys2Proof/Certificates/Slice0/Obligations.lean ====
section
/-! DEFINITION. The statements for the provers. Each docstring names the rule of spec/ it formalises or
the log entry it rests on. -/

open Sys2Proof Sys2Proof.Machine

/-! ### Encoding -/

/-- Decode and encode agree: every instruction that has an encoding is read back from it, under any configuration
whose command codes are pairwise distinct, whatever follows an operation's bytes on the host port. The operand
layout is the model's (log 13). -/
def Obligations.DecodeOfEncodeIsTheInstruction : Prop :=
  ∀ (b : Board) (i : Instr) (rest : List Byte), b.codes.wf = true → i.valid b = true →
    decode b i.port (if i.port = .host then encode b.codes i ++ rest else encode b.codes i) = .ok i

/-- Three frames written out from the spec's examples (R74, R75, R81) decode to their instructions, and one
operation word, `33 02` for `CONV_RMS(U)`, in the operand layout of the model's own choice (log 13). -/
def Obligations.WrittenOutWordsDecode : Prop :=
  ∀ b : Board,
    decode b .down [0xA5, 0x24] = .ok (.rq 0x24) ∧
    decode b .down [0xA5, 0x82, 0x10, 0x00, 0xC8] = .ok (.wf 0x82 [0x10, 0x00] 0xC8) ∧
    decode b .up [0xFF, 0xFF, 0xEC] = .ok (.rs [0xFF, 0xFF] 0xEC) ∧
    decode b .host [0x33, 0x02] = .ok (.convRms 2)

/-- The encoding of a payload value and its decoding are inverse (R95): bytes to number and back. -/
def Obligations.SerialisedValueDecodesToItself : Prop :=
  (∀ v w : Nat, v < 256 ^ w → beNat (serBytes v w) = v ∧ (serBytes v w).length = w) ∧
  (∀ p : List Byte, serBytes (beNat p) p.length = p) ∧
  (∀ (v w i : Nat) (d : Byte), (serBytes v w)[i]? = some d →
    d.toNat = (v >>> (8 * (w - 1 - i))) &&& 0xFF)

/-! ### The frame codec -/

/-- `CKSUM` (R73): the complement of the low byte of the sum, or `BUFFER_TOO_SMALL`; no state but the
response. -/
def Obligations.CksumReturnsComplementOfSum : Prop :=
  ∀ (s : State) (h a : Byte) (p : List Byte), Idle s →
    (p.length ≤ s.board.val.nmax →
      ∃ c : Byte, c.toNat = 0xFF - (h.toNat + a.toNat + (p.map BitVec.toNat).sum) % 256 ∧
        exec (.cksum h a p) s = .next { s with out := some ⟨.ok, .byte c⟩ }) ∧
    (s.board.val.nmax < p.length →
      exec (.cksum h a p) s = .next { s with out := some ⟨.bufferTooSmall, .none⟩ })

/-- `ENC_READ`, `ENC_WRITE`, `ENC_CMD` (R74, R75, R76): the frames byte by byte, and `ENC_CMD` the write
frame of a one-byte payload. -/
def Obligations.EncodersReturnTheirFrames : Prop :=
  ∀ (s : State) (a k : Byte) (p : List Byte), Idle s →
    exec (.encRead a) s = .next { s with out := some ⟨.ok, .bytes [0xA5, a]⟩ } ∧
    (p.length ≤ s.board.val.nmax → ∃ c : Byte,
      c.toNat = 0xFF - ((0xA5 : Byte).toNat + a.toNat + (p.map BitVec.toNat).sum) % 256 ∧
      exec (.encWrite a p) s = .next { s with out := some ⟨.ok, .bytes ([0xA5, a] ++ p ++ [c])⟩ }) ∧
    (s.board.val.nmax < p.length →
      exec (.encWrite a p) s = .next { s with out := some ⟨.bufferTooSmall, .none⟩ }) ∧
    (∃ c : Byte, c.toNat = 0xFF - ((0xA5 : Byte).toNat + a.toNat + k.toNat) % 256 ∧
      exec (.encCmd a k) s = .next { s with out := some ⟨.ok, .bytes [0xA5, a, k, c]⟩ } ∧
      exec (.encWrite a [k]) s = .next { s with out := some ⟨.ok, .bytes [0xA5, a, k, c]⟩ })

/-- `VALIDATE` (R77): true exactly when the sum of all bytes, the received checksum among them, is 0xFF
modulo 256. -/
def Obligations.ValidateTestsTheByteSum : Prop :=
  ∀ (s : State) (h a ck : Byte) (p : List Byte), Idle s →
    (p.length ≤ s.board.val.nmax → ∃ b : Bool,
      (b = true ↔ (h.toNat + a.toNat + (p.map BitVec.toNat).sum + ck.toNat) % 256 = 0xFF) ∧
      exec (.validate h a p ck) s = .next { s with out := some ⟨.ok, .bool b⟩ }) ∧
    (s.board.val.nmax < p.length →
      exec (.validate h a p ck) s = .next { s with out := some ⟨.bufferTooSmall, .none⟩ })

/-- The round trip of R78: `VALIDATE` accepts the checksum `CKSUM` and the encoders produce, and rejects
every other checksum byte, one with any single bit flipped among them. -/
def Obligations.ValidateAcceptsOwnChecksumOnly : Prop :=
  ∀ (s : State) (h a k : Byte) (p : List Byte), Idle s → p.length ≤ s.board.val.nmax →
    (∃ c : Byte, exec (.cksum h a p) s = .next { s with out := some ⟨.ok, .byte c⟩ } ∧
      exec (.validate h a p c) s = .next { s with out := some ⟨.ok, .bool true⟩ } ∧
      (∀ c' : Byte, c' ≠ c →
        exec (.validate h a p c') s = .next { s with out := some ⟨.ok, .bool false⟩ }) ∧
      ∀ i < 8, c ^^^ (1#8 <<< i) ≠ c) ∧
    (∃ f c, exec (.encWrite a p) s = .next { s with out := some ⟨.ok, .bytes f⟩ } ∧ f.getLast? = some c ∧
      exec (.validate 0xA5 a p c) s = .next { s with out := some ⟨.ok, .bool true⟩ }) ∧
    (∃ f c, exec (.encCmd a k) s = .next { s with out := some ⟨.ok, .bytes f⟩ } ∧ f.getLast? = some c ∧
      exec (.validate 0xA5 a [k] c) s = .next { s with out := some ⟨.ok, .bool true⟩ })

/-- What the checksum sees and what it does not (R78, consequences (a) to (d)): one changed byte changes
it; two changes that cancel, and any reordering of the payload, do not; the bytes of a frame with its
checksum sum to 0xFF modulo 256. -/
def Obligations.ChecksumSeesTheByteSumAlone : Prop :=
  (∀ (h h' a a' x y : Byte) (p q : List Byte),
    (h ≠ h' → cksumByte h a p ≠ cksumByte h' a p) ∧ (a ≠ a' → cksumByte h a p ≠ cksumByte h a' p) ∧
    (x ≠ y → cksumByte h a (p ++ [x] ++ q) ≠ cksumByte h a (p ++ [y] ++ q))) ∧
  (∀ (h a x y x' y' : Byte) (p q r : List Byte), x + y = x' + y' →
    cksumByte h a (p ++ [x] ++ q ++ [y] ++ r) = cksumByte h a (p ++ [x'] ++ q ++ [y'] ++ r)) ∧
  (∀ (h a : Byte) (p q : List Byte), p.Perm q → cksumByte h a p = cksumByte h a q) ∧
  (∀ (wa c k : Byte) (p : List Byte),
    ((writeFrame wa p).map BitVec.toNat).sum % 256 = 0xFF ∧
    ((cmdFrame c k).map BitVec.toNat).sum % 256 = 0xFF)

/-- The codec is pure (R79): its five operations write nothing but the response, and the response depends
on the operands and the constant `NMAX` alone. -/
def Obligations.CodecResponseDependsOnOperandsAlone : Prop :=
  ∀ (i : Instr) (n : Nat), isCodec i = true →
    ∃ r : Response, ∀ s : State, Idle s → s.board.val.nmax = n → exec i s = .next { s with out := some r }

/-! ### Register access -/

/-- `RD_REG` (R81, R80): a width above `NMAX`, a request that is not taken whole, and the four outcomes
of the one receive; what was sent and received, and of the block no state but the response. What the device makes
of the request is the model's choice: taken whole it answers what log 17 and 20 say, and of one that is not (U9) any
part may have reached it (log 18). So is where the bytes of a receive come from, the environment or the line, and what
it leaves on the line (log 9, 10). -/
def Obligations.ReadRegisterFollowsItsResponse : Prop :=
  ∀ (s : State) (addr : Byte) (w : Nat), Idle s →
    (s.board.val.nmax < w → exec (.rdReg addr w) s = .next { s with out := some ⟨.bufferTooSmall, .none⟩ }) ∧
    (w ≤ s.board.val.nmax → ∀ a as, s.sends = a :: as →
      (¬ Takes [0xA5, addr] a →
        ∃ t, exec (.rdReg addr w) s = .next t ∧ EndedWith s t ⟨.ioError, .none⟩ ∧ t.ctx = s.ctx ∧
          t.sends = as ∧ t.recvs = s.recvs ∧ t.log = s.log ++ [sendEvent [0xA5, addr] a] ∧
          t.dev = deviceAfterEvents s.board.val s.dev [sendEvent [0xA5, addr] a]) ∧
      (Takes [0xA5, addr] a → ∀ plan plans, s.recvs = plan :: plans →
        ∃ t ans r, exec (.rdReg addr w) s = .next t ∧ EndedWith s t r ∧ t.ctx = s.ctx ∧
          t.sends = as ∧ t.recvs = plans ∧
          ans = (recvAnswerOf (w + 1)
            (deviceAfterSend s.board.val s.dev [0xA5, addr] (.sent 2)).line plan).1 ∧
          t.log = s.log ++ [.send [0xA5, addr] (.sent 2), .recv (w + 1) ans] ∧
          t.dev = { deviceAfterSend s.board.val s.dev [0xA5, addr] (.sent 2) with
            line := (recvAnswerOf (w + 1)
              (deviceAfterSend s.board.val s.dev [0xA5, addr] (.sent 2)).line plan).2 } ∧
          (ans = .fail → r = ⟨.ioError, .none⟩) ∧
          (∀ b, ans = .got b → b.length ≤ w → r = ⟨.ioMissingBytes, .none⟩) ∧
          (∀ p ck, ans = .got (p ++ [ck]) → p.length = w →
            (cksumByte 0xA5 addr p = ck → r = ⟨.ok, .bytes p⟩) ∧
            (cksumByte 0xA5 addr p ≠ ck → r = ⟨.checksumMismatch, .none⟩))))

/-- `WR_REG` (R82, R83): a payload above `NMAX`; an enable frame not taken whole where
`WR_CONTINUE_AFTER_WREN_FAIL` is false; else exactly three sends, the data frame at `addr | 0x80`, and
`OK` exactly when all three are taken whole. What the device makes of the frames is the model's choice where the
spec leaves it open: after a frame not taken whole (U9, log 18), and with a data frame at the control address
(U6, log 22). -/
def Obligations.WriteRegisterSendsItsBracket : Prop :=
  ∀ (s : State) (addr : Byte) (p : List Byte), Idle s →
    (s.board.val.nmax < p.length →
      exec (.wrReg addr p) s = .next { s with out := some ⟨.bufferTooSmall, .none⟩ }) ∧
    (p.length ≤ s.board.val.nmax → ∀ f1 f2 f3 : List Byte,
      f1 = cmdFrame 0xEA s.board.val.codes.wren →
      f2 = [0xA5, addr ||| 0x80] ++ p ++ [cksumByte 0xA5 (addr ||| 0x80) p] →
      f3 = cmdFrame 0xEA s.board.val.codes.wrdis →
      (∀ a1 as, s.sends = a1 :: as → ¬ Takes f1 a1 → s.board.val.wrContinue = false →
        ∃ t, exec (.wrReg addr p) s = .next t ∧ EndedWith s t ⟨.ioError, .none⟩ ∧ t.ctx = s.ctx ∧
          t.sends = as ∧ t.recvs = s.recvs ∧ t.log = s.log ++ [sendEvent f1 a1] ∧
          t.dev = deviceAfterEvents s.board.val s.dev [sendEvent f1 a1]) ∧
      (∀ a1 a2 a3 as, s.sends = a1 :: a2 :: a3 :: as → (Takes f1 a1 ∨ s.board.val.wrContinue = true) →
        ∃ t r, exec (.wrReg addr p) s = .next t ∧ EndedWith s t r ∧ t.ctx = s.ctx ∧ t.sends = as ∧
          t.recvs = s.recvs ∧ t.log = s.log ++ [sendEvent f1 a1, sendEvent f2 a2, sendEvent f3 a3] ∧
          (addr ||| 0x80 ≠ 0xEA ∨ ¬ (Takes f1 a1 ∧ Takes f2 a2) →
            t.dev = deviceAfterEvents s.board.val s.dev [sendEvent f1 a1, sendEvent f2 a2, sendEvent f3 a3]) ∧
          (addr ||| 0x80 = 0xEA ∧ Takes f1 a1 ∧ Takes f2 a2 →
            t.dev = deviceAfterEvents s.board.val
              (deviceUpset s.board.val.codes (deviceAfterEvents s.board.val s.dev [sendEvent f1 a1]) f2)
              [sendEvent f3 a3]) ∧
          (Takes f1 a1 ∧ Takes f2 a2 ∧ Takes f3 a3 → r = ⟨.ok, .none⟩) ∧
          (¬ (Takes f1 a1 ∧ Takes f2 a2 ∧ Takes f3 a3) → r = ⟨.ioError, .none⟩)))

/-- A delivered bracket stores the payload (R47): with a device that is ready, a register of that width
at the address and a value in its range, `dev.reg` holds the payload, every other cell is as it was, the
device is write-protected again and nothing is on the line that was not. Log 17, 19, 21. -/
def Obligations.DeliveredWriteReachesTheRegister : Prop :=
  ∀ (s : State) (addr : Byte) (p : List Byte) (a1 a2 a3 : SendAnswer) (as : List SendAnswer),
    Idle s → p.length ≤ s.board.val.nmax → s.dev.ready = true → addr ||| 0x80 ≠ 0xEA →
    widthAt s.board.val (addr &&& 0x7F) = some p.length →
    (addr &&& 0x7F, beNat p) ∉ s.dev.outOfRange →
    s.sends = a1 :: a2 :: a3 :: as →
    Takes (cmdFrame 0xEA s.board.val.codes.wren) a1 →
    Takes (writeFrame (addr ||| 0x80) p) a2 →
    Takes (cmdFrame 0xEA s.board.val.codes.wrdis) a3 →
    ∃ t, exec (.wrReg addr p) s = .next t ∧ EndedWith s t ⟨.ok, .none⟩ ∧ t.ctx = s.ctx ∧
      readReg t.dev.reg (addr &&& 0x7F) p.length = some p ∧
      (∀ x : Nat, (∀ i < p.length, x ≠ cellAddr (addr &&& 0x7F) i) →
        readCell t.dev.reg x = readCell s.dev.reg x) ∧
      t.dev.we = false ∧ t.dev.sel = s.dev.sel ∧ t.dev.line = s.dev.line

/-- A write reaches one register alone (R49, R103: coefficient and calibration registers change only when
written). Whatever the transport answers, and also while it has not answered, a `WR_REG` at the width of the register
leaves every cell of every other register, the selection and the readiness of a ready device as they were.
Where a frame is lost this is the model's choice of what it can reach (log 18). -/
def Obligations.WriteTouchesOnlyItsRegister : Prop :=
  ∀ (s : State) (addr : Byte) (p : List Byte), Idle s → s.dev.ready = true → addr ||| 0x80 ≠ 0xEA →
    widthAt s.board.val (addr &&& 0x7F) = some p.length →
    ∃ t, exec (.wrReg addr p) s = .next t ∧ t.dev.ready = true ∧ t.dev.sel = s.dev.sel ∧
      ∀ x : Nat, x % 256 ≠ (addr &&& 0x7F).toNat → readCell t.dev.reg x = readCell s.dev.reg x

/-- `SEND_CMD` and `RESET` (R84, R85): one send of the command frame, `OK` exactly when it is taken
whole, and no context field written. What the device makes of the frame is the model's choice: delivered it acts as
log 17 and 23 say, and of one not taken whole (U9) any part may have reached it (log 18). -/
def Obligations.CommandOperationsSendOneFrame : Prop :=
  ∀ (s : State) (c k : Byte) (a : SendAnswer) (as : List SendAnswer), Idle s → s.sends = a :: as →
    (∃ t r, exec (.sendCmd c k) s = .next t ∧ EndedWith s t r ∧ t.ctx = s.ctx ∧ t.sends = as ∧
      t.recvs = s.recvs ∧
      t.log = s.log ++ [sendEvent [0xA5, c, k, cksumByte 0xA5 c [k]] a] ∧
      t.dev = deviceAfterEvents s.board.val s.dev [sendEvent [0xA5, c, k, cksumByte 0xA5 c [k]] a] ∧
      (Takes [0xA5, c, k, cksumByte 0xA5 c [k]] a → r = ⟨.ok, .none⟩) ∧
      (¬ Takes [0xA5, c, k, cksumByte 0xA5 c [k]] a → r = ⟨.ioError, .none⟩)) ∧
    (∃ t r, exec .reset s = .next t ∧ EndedWith s t r ∧ t.ctx = s.ctx ∧ t.sends = as ∧
      t.recvs = s.recvs ∧
      t.log = s.log ++ [sendEvent (cmdFrame 0xEA s.board.val.codes.reset) a] ∧
      t.dev = deviceAfterEvents s.board.val s.dev [sendEvent (cmdFrame 0xEA s.board.val.codes.reset) a] ∧
      (Takes (cmdFrame 0xEA s.board.val.codes.reset) a → r = ⟨.ok, .none⟩) ∧
      (¬ Takes (cmdFrame 0xEA s.board.val.codes.reset) a → r = ⟨.ioError, .none⟩))

/-- `SEL_CH` (R86): a selector out of domain sends nothing; else the select command is sent, and
`ctx.sel` changes exactly when the frame was taken whole. What the device makes of the frame is the model's choice:
delivered it acts as log 17 says, and of one not taken whole (U9) any part may have reached it (log 18). -/
def Obligations.SelectChannelRecordsOnSuccess : Prop :=
  ∀ (s : State) (ch : BitVec 2), Idle s →
    (2 ≤ ch.toNat → exec (.selCh ch) s = .next { s with out := some ⟨.invalidParam, .none⟩ }) ∧
    (∀ (c : CurCh) (f : List Byte) (a : SendAnswer) (as : List SendAnswer),
      (ch = 0 ∧ c = .A ∧ f = cmdFrame 0xEA s.board.val.codes.selA) ∨
        (ch = 1 ∧ c = .B ∧ f = cmdFrame 0xEA s.board.val.codes.selB) →
      s.sends = a :: as →
      ∃ t r, exec (.selCh ch) s = .next t ∧ EndedWith s t r ∧ t.sends = as ∧ t.recvs = s.recvs ∧
        t.log = s.log ++ [sendEvent f a] ∧
        t.dev = deviceAfterEvents s.board.val s.dev [sendEvent f a] ∧
        (Takes f a → r = ⟨.ok, .none⟩ ∧ t.ctx = { s.ctx with sel := c }) ∧
        (¬ Takes f a → r = ⟨.ioError, .none⟩ ∧ t.ctx = s.ctx))

/-! ### Context operations -/

/-- `SET_RATIO` (R89): the triple is stored whole, each constant the rational presented in lowest terms;
a value that is no positive rational gives `INVALID_PARAM` and changes nothing. Log 15. -/
def Obligations.SetRatioStoresTheTriple : Prop :=
  ∀ (s : State) (k1A k1B k2 : RawRatio), Idle s →
    ((0 < k1A.num ∧ 0 < k1A.den) ∧ (0 < k1B.num ∧ 0 < k1B.den) ∧ (0 < k2.num ∧ 0 < k2.den) →
      ∃ a b c : Ratio,
        (a.wf = true ∧ (a.num : Int) * k1A.den = k1A.num * a.den) ∧
        (b.wf = true ∧ (b.num : Int) * k1B.den = k1B.num * b.den) ∧
        (c.wf = true ∧ (c.num : Int) * k2.den = k2.num * c.den) ∧
        exec (.setRatio k1A k1B k2) s =
          .next { s with out := some ⟨.ok, .none⟩, ctx := { s.ctx with ratio := ⟨a, b, c⟩ } }) ∧
    (¬ ((0 < k1A.num ∧ 0 < k1A.den) ∧ (0 < k1B.num ∧ 0 < k1B.den) ∧ (0 < k2.num ∧ 0 < k2.den)) →
      exec (.setRatio k1A k1B k2) s = .next { s with out := some ⟨.invalidParam, .none⟩ })

/-- `GET_RATIO`, `GET_PGA`, `GET_SEL` (R90, R91, R92): the context's values, nothing sent, nothing
written. -/
def Obligations.GettersReturnTheContext : Prop :=
  ∀ s : State, Idle s →
    exec .getRatio s = .next { s with out := some ⟨.ok, .ratio s.ctx.ratio⟩ } ∧
    exec .getSel s = .next { s with out := some ⟨.ok, .chan s.ctx.sel⟩ } ∧
    exec (.getPga 0) s = .next { s with out := some ⟨.ok, .gain s.ctx.pga.A⟩ } ∧
    exec (.getPga 1) s = .next { s with out := some ⟨.ok, .gain s.ctx.pga.B⟩ } ∧
    exec (.getPga 2) s = .next { s with out := some ⟨.ok, .gain s.ctx.pga.U⟩ } ∧
    exec (.getPga 3) s = .next { s with out := some ⟨.invalidParam, .none⟩ }

/-! ### Composite sequences -/

/-- `RMW_FIELD` (R94): an unknown register sends nothing; the register is read, and the value written
keeps every bit outside the mask and takes the mask's bits from the operand; the write's status is the
operation's; a read that fails ends it in the very state the read alone would leave, no write attempted. The right
response may come from the line or be the environment's (log 9, 10). Bits of the operands above the register's width
are not used (log 16). The device's part is the model's choice: what it makes of the frames it gets (log 17, 20,
21), and of a bracket with a frame that was not taken whole (U9, log 18). -/
def Obligations.ReadModifyWriteReplacesTheField : Prop :=
  ∀ (s : State) (r : RegId) (mask value : RegVal), Idle s →
    (s.board.val.entry r = none →
      exec (.rmwField r mask value) s = .next { s with out := some ⟨.invalidParam, .none⟩ }) ∧
    (∀ (e : RegEntry) (a0 : SendAnswer) (as : List SendAnswer) (p line : List Byte) (plan : RecvPlan)
      (plans : List RecvPlan) (d : Device),
      s.board.val.entry r = some e → p.length = e.width →
      s.sends = a0 :: as → Takes (readFrame e.raddr) a0 → s.recvs = plan :: plans →
      d = deviceAfterSend s.board.val s.dev (readFrame e.raddr) (.sent 2) →
      recvAnswerOf (e.width + 1) d.line plan = (.got (goodResponse e.raddr p), line) →
      ∃ q : List Byte, q.length = e.width ∧
        (∀ j < 8 * e.width,
          (beNat q).testBit j = if mask.testBit j then value.testBit j else (beNat p).testBit j) ∧
        (∀ a1 a2 a3 rest, as = a1 :: a2 :: a3 :: rest →
          (Takes (cmdFrame 0xEA s.board.val.codes.wren) a1 ∨ s.board.val.wrContinue = true) →
          ∃ t st, exec (.rmwField r mask value) s = .next t ∧ EndedWith s t ⟨st, .none⟩ ∧ t.ctx = s.ctx ∧
            t.sends = rest ∧ t.recvs = plans ∧
            t.log = s.log ++ readEvents e.raddr p ++ writeEvents s.board.val e.raddr q a1 a2 a3 ∧
            t.dev = deviceAfterEvents s.board.val { d with line := line }
              (writeEvents s.board.val e.raddr q a1 a2 a3) ∧
            (Takes (cmdFrame 0xEA s.board.val.codes.wren) a1 ∧ Takes (writeFrame (e.raddr ||| 0x80) q) a2 ∧
              Takes (cmdFrame 0xEA s.board.val.codes.wrdis) a3 → st = .ok) ∧
            (¬ (Takes (cmdFrame 0xEA s.board.val.codes.wren) a1 ∧
              Takes (writeFrame (e.raddr ||| 0x80) q) a2 ∧
              Takes (cmdFrame 0xEA s.board.val.codes.wrdis) a3) → st = .ioError)) ∧
        (∀ a1 rest, as = a1 :: rest → ¬ Takes (cmdFrame 0xEA s.board.val.codes.wren) a1 →
          s.board.val.wrContinue = false →
          ∃ t, exec (.rmwField r mask value) s = .next t ∧ EndedWith s t ⟨.ioError, .none⟩ ∧ t.ctx = s.ctx ∧
            t.sends = rest ∧ t.recvs = plans ∧
            t.log = s.log ++ readEvents e.raddr p ++ [sendEvent (cmdFrame 0xEA s.board.val.codes.wren) a1] ∧
            t.dev = deviceAfterEvents s.board.val { d with line := line }
              [sendEvent (cmdFrame 0xEA s.board.val.codes.wren) a1])) ∧
    (∀ e t resp, s.board.val.entry r = some e → exec (.rdReg e.raddr e.width) s = .next t →
      t.out = some resp → resp.status ≠ .ok → exec (.rmwField r mask value) s = .next t)

/-- The entries of R96 are read-modify-writes and reads: every configuration gives each its descriptor, of a
register in the table, and its codes; a setting is `RMW_FIELD` with the code shifted into place, enabling and disabling
a switch are its settings, the "get" is `RD_REG` of the register, and a field that a setting's code fits reads as
that code from the payload the setting writes. -/
def Obligations.FeatureEntriesAreReadModifyWrites : Prop :=
  ∀ (b : WfBoard) (f : Feature), ∃ (d : FeatureDesc) (e : RegEntry),
    b.val.features.lookup f = some d ∧ b.val.entry d.field.reg = some e ∧ d.codes ≠ [] ∧
    featureGet b.val f = some (.rdReg e.raddr e.width) ∧
    (∀ n code, d.codes[n]? = some code →
      featureSet b.val f n = some (.rmwField d.field.reg d.field.mask (code * 2 ^ d.field.shift))) ∧
    (f.isSwitch = true → ∃ off on, d.codes = [off, on] ∧
      featureDisable b.val f = some (.rmwField d.field.reg d.field.mask (off * 2 ^ d.field.shift)) ∧
      featureEnable b.val f = some (.rmwField d.field.reg d.field.mask (on * 2 ^ d.field.shift))) ∧
    (∀ (code : Nat) (p q : List Byte), code * 2 ^ d.field.shift &&& d.field.mask = code * 2 ^ d.field.shift →
      q.length = e.width →
      (∀ j < 8 * e.width, (beNat q).testBit j =
        if d.field.mask.testBit j then (code * 2 ^ d.field.shift).testBit j else (beNat p).testBit j) →
      featureValue b.val f q = some code)

/-- `SET_PGA` (R93): a bad channel or a gain outside `PgaSet` sends nothing; else it is the
read-modify-write of the channel's field, with the same transactions and status, and the context's gain
changes exactly on `OK`. -/
def Obligations.SetGainIsAReadModifyWrite : Prop :=
  ∀ (s : State) (ch : BitVec 2) (g : Nat), Idle s →
    (ch = 3 ∨ g ∉ s.board.val.gains.map Prod.fst →
      exec (.setPga ch g) s = .next { s with out := some ⟨.invalidParam, .none⟩ }) ∧
    (∀ (f : FieldDesc) (code : Nat) (ctx' : Ctx),
      (ch = 0 ∧ f = s.board.val.pgaA ∧ ctx' = { s.ctx with pga := { s.ctx.pga with A := g } }) ∨
        (ch = 1 ∧ f = s.board.val.pgaB ∧ ctx' = { s.ctx with pga := { s.ctx.pga with B := g } }) ∨
        (ch = 2 ∧ f = s.board.val.pgaU ∧ ctx' = { s.ctx with pga := { s.ctx.pga with U := g } }) →
      s.board.val.gains.lookup g = some code →
      ∀ t r, exec (.rmwField f.reg f.mask (code * 2 ^ f.shift)) s = .next t →
        t.out = some r →
        (r.status = .ok → exec (.setPga ch g) s = .next { t with ctx := ctx' }) ∧
        (r.status ≠ .ok → exec (.setPga ch g) s = .next t))

/-- `SET_PGA` completes (R93): with a channel in its domain, a gain of `PgaSet`, a right response and a
transport that takes every frame, it ends with `OK`, the channel's gain is the new one and the rest of the
context is as it was. -/
def Obligations.SetGainCompletes : Prop :=
  ∀ (s : State) (ch : BitVec 2) (c : Ch3) (g : Nat) (e : RegEntry) (p : List Byte)
    (a0 a1 a2 a3 : SendAnswer) (as : List SendAnswer) (plans : List RecvPlan), Idle s →
    (ch = 0 ∧ c = .A ∨ ch = 1 ∧ c = .B ∨ ch = 2 ∧ c = .U) →
    g ∈ s.board.val.gains.map Prod.fst →
    s.board.val.entry (s.board.val.pgaField c).reg = some e → p.length = e.width →
    s.sends = a0 :: a1 :: a2 :: a3 :: as →
    s.recvs = .bytes (goodResponse e.raddr p) :: plans →
    (∀ a ∈ [a0, a1, a2, a3], ∃ n, a = .sent n ∧ s.board.val.nmax + 3 ≤ n) →
    ∃ t, exec (.setPga ch g) s = .next t ∧ EndedWith s t ⟨.ok, .none⟩ ∧
      getGain t.ctx.pga c = g ∧ (∀ d, d ≠ c → getGain t.ctx.pga d = getGain s.ctx.pga d) ∧
      t.ctx.sel = s.ctx.sel ∧ t.ctx.ratio = s.ctx.ratio ∧ t.ctx.coef = s.ctx.coef ∧
      t.ctx.ifkind = s.ctx.ifkind

/-- `LOAD_COEF` completes (R101): nine reads in `COEF_ORDER`, answered with right checksums, and then all
nine fields are cached together, each the 16-bit value its register gave. The device makes of the requests what log
17 and 20 say. -/
def Obligations.LoadCoefficientsFillsTheCache : Prop :=
  ∀ (s : State) (es : List RegEntry) (ps : List (List Byte)) (sends : List SendAnswer)
    (recvs : List RecvPlan), Idle s →
    s.board.val.coefOrder.map (fun q => s.board.val.entry q.2) = es.map some →
    ps.length = 9 → (∀ p ∈ ps, p.length = 2) →
    ReadsAnswered s ((es.map RegEntry.raddr).zip ps) sends recvs →
    ∃ t cs, exec .loadCoef s = .next t ∧ EndedWith s t ⟨.ok, .none⟩ ∧
      t.ctx = { s.ctx with coef := .loaded cs } ∧
      (∀ (k : Nat) (f : CoefField) (r : RegId) (p : List Byte),
        s.board.val.coefOrder[k]? = some (f, r) → ps[k]? = some p → (getCoef cs f).toNat = beNat p) ∧
      t.sends = sends ∧ t.recvs = recvs ∧
      t.log = s.log ++ ((es.map RegEntry.raddr).zip ps).flatMap (fun q => readEvents q.1 q.2) ∧
      t.dev = deviceAfterEvents s.board.val s.dev
        (((es.map RegEntry.raddr).zip ps).flatMap (fun q => readEvents q.1 q.2))

/-- `LOAD_COEF` stopped at its `k`-th read (R101, R104, R134), whichever way that read fails: it ends with that read's
status; `k` requests were sent and `k - 1` or `k` responses received, and the cache is what it was. What the device
makes of the requests is the model's choice (log 17, 18, 20), and so is where the bytes of a receive come from
(log 9, 10). -/
def Obligations.LoadCoefficientsStopsAtAFailedRead : Prop :=
  ∀ (s : State) (es : List RegEntry) (ps : List (List Byte)) (e : RegEntry), Idle s →
    (s.board.val.coefOrder.map (fun q => s.board.val.entry q.2)).take (es.length + 1) =
      (es ++ [e]).map some →
    ps.length = es.length → (∀ q ∈ ps, q.length = 2) →
    EndsAtFailedRead .loadCoef s ((es.map RegEntry.raddr).zip ps) e.raddr 2

/-- `APPLY_CAL` completes (R103): one bracket for each entry of `CAL_ORDER`, in order, the field's value
big-endian at the register's width; the context is not written. A field's bits above the register's width are
not used (log 16). The device makes of the frames what log 17 and 21 say. -/
def Obligations.ApplyCalibrationWritesEveryField : Prop :=
  ∀ (s : State) (rec : CalRec) (es : List RegEntry) (as sends : List SendAnswer), Idle s →
    s.board.val.calOrder.map (fun q => s.board.val.entry q.2) = es.map some →
    as.length = 3 * es.length → (∀ a ∈ as, ∃ n, a = .sent n ∧ s.board.val.nmax + 3 ≤ n) →
    s.sends = as ++ sends →
    ∃ t, exec (.applyCal rec) s = .next t ∧ EndedWith s t ⟨.ok, .none⟩ ∧ t.ctx = s.ctx ∧
      t.sends = sends ∧ t.recvs = s.recvs ∧
      (∀ evs, evs = (s.board.val.calOrder.zip es).flatMap (fun q =>
          [Event.send (cmdFrame 0xEA s.board.val.codes.wren) (.sent 4),
           Event.send (writeFrame (q.2.raddr ||| 0x80)
              (serBytes (calField rec q.1.1 % 256 ^ q.2.width) q.2.width)) (.sent (q.2.width + 3)),
           Event.send (cmdFrame 0xEA s.board.val.codes.wrdis) (.sent 4)]) →
        t.log = s.log ++ evs ∧ t.dev = deviceAfterEvents s.board.val s.dev evs)

/-- `APPLY_CAL` stopped at the write after the `k`-th (R103, R104, R134): a bracket of which some frame was not taken
whole, failed or short, ends it with `IO_ERROR`, and no later write is attempted. The brackets before it were sent;
its own three frames are still sent, or, where `WR_CONTINUE_AFTER_WREN_FAIL` is false and the enable frame was the one,
that frame alone. A field's bits above the register's width are not used (log 16). The device's part is the model's
choice where a frame was not taken whole (U9, log 18), and log 17 and 21 elsewhere. -/
def Obligations.ApplyCalibrationStopsAtAFailedWrite : Prop :=
  ∀ (s : State) (rec : CalRec) (k : Nat) (es : List RegEntry) (f : CalField) (r : RegId) (e : RegEntry)
    (q : List Byte) (as sends : List SendAnswer) (a1 : SendAnswer) (f1 f2 f3 : List Byte) (evs : List Event), Idle s →
    (s.board.val.calOrder.take k).map (fun x => s.board.val.entry x.2) = es.map some → es.length = k →
    s.board.val.calOrder[k]? = some (f, r) → s.board.val.entry r = some e →
    q = serBytes (calField rec f % 256 ^ e.width) e.width →
    as.length = 3 * k → (∀ a ∈ as, ∃ n, a = .sent n ∧ s.board.val.nmax + 3 ≤ n) →
    f1 = cmdFrame 0xEA s.board.val.codes.wren →
    f2 = [0xA5, e.raddr ||| 0x80] ++ q ++ [cksumByte 0xA5 (e.raddr ||| 0x80) q] →
    f3 = cmdFrame 0xEA s.board.val.codes.wrdis →
    evs = ((s.board.val.calOrder.take k).zip es).flatMap (fun x =>
      [Event.send f1 (.sent 4),
       Event.send (writeFrame (x.2.raddr ||| 0x80)
          (serBytes (calField rec x.1.1 % 256 ^ x.2.width) x.2.width)) (.sent (x.2.width + 3)),
       Event.send f3 (.sent 4)]) →
    (∀ a2 a3, s.sends = as ++ (a1 :: a2 :: a3 :: sends) → (Takes f1 a1 ∨ s.board.val.wrContinue = true) →
      ¬ (Takes f1 a1 ∧ Takes f2 a2 ∧ Takes f3 a3) →
      ∃ t, exec (.applyCal rec) s = .next t ∧ EndedWith s t ⟨.ioError, .none⟩ ∧ t.ctx = s.ctx ∧
        t.sends = sends ∧ t.recvs = s.recvs ∧
        t.log = s.log ++ (evs ++ [sendEvent f1 a1, sendEvent f2 a2, sendEvent f3 a3]) ∧
        t.dev = deviceAfterEvents s.board.val s.dev (evs ++ [sendEvent f1 a1, sendEvent f2 a2, sendEvent f3 a3])) ∧
    (s.sends = as ++ (a1 :: sends) → ¬ Takes f1 a1 → s.board.val.wrContinue = false →
      ∃ t, exec (.applyCal rec) s = .next t ∧ EndedWith s t ⟨.ioError, .none⟩ ∧ t.ctx = s.ctx ∧
        t.sends = sends ∧ t.recvs = s.recvs ∧ t.log = s.log ++ (evs ++ [sendEvent f1 a1]) ∧
        t.dev = deviceAfterEvents s.board.val s.dev (evs ++ [sendEvent f1 a1]))

/-- There is no rollback (R103, C9): the writes before the one that failed, on whichever of its frames, have been
delivered and stay. With a ready device, registers the device has at the table's width, values in its range, and no
later write of the operation to the same register, each register written before the failed write holds its new value.
The device behaves as log 17, 18 and 21 say. -/
def Obligations.EarlierCalibrationWritesStay : Prop :=
  ∀ (s : State) (rec : CalRec) (k j : Nat) (es : List RegEntry) (e ej : RegEntry) (f fk : CalField) (r rk : RegId)
    (v q : List Byte) (as sends : List SendAnswer) (a1 a2 a3 : SendAnswer), Idle s →
    (s.board.val.calOrder.take (k + 1)).map (fun x => s.board.val.entry x.2) = (es ++ [e]).map some →
    es.length = k → s.board.val.calOrder[k]? = some (fk, rk) →
    q = serBytes (calField rec fk % 256 ^ e.width) e.width →
    (∀ x ∈ es ++ [e], widthAt s.board.val x.raddr = some x.width) →
    s.dev.ready = true →
    j < k → es[j]? = some ej → s.board.val.calOrder[j]? = some (f, r) →
    v = serBytes (calField rec f % 256 ^ ej.width) ej.width → (ej.raddr, beNat v) ∉ s.dev.outOfRange →
    (∀ i x, j < i → (es ++ [e])[i]? = some x → x.raddr ≠ ej.raddr) →
    as.length = 3 * k → (∀ a ∈ as, ∃ n, a = .sent n ∧ s.board.val.nmax + 3 ≤ n) →
    ¬ (Takes (cmdFrame 0xEA s.board.val.codes.wren) a1 ∧ Takes (writeFrame (e.raddr ||| 0x80) q) a2 ∧
      Takes (cmdFrame 0xEA s.board.val.codes.wrdis) a3) →
    s.sends = as ++ (a1 :: a2 :: a3 :: sends) →
    ∃ t, exec (.applyCal rec) s = .next t ∧ EndedWith s t ⟨.ioError, .none⟩ ∧
      readReg t.dev.reg ej.raddr ej.width = some v

/-! ### The converter's kernels -/

/-- `DEC_U` and `DEC_S` (R105, R106): the big-endian value, and the same less `2 ^ N` where the first
byte's bit 7 is set; the empty payload and the one above `NMAX`. That a value of 2^31 and above is answered as the
integer itself is the model's choice (log 5). -/
def Obligations.DecodersReturnThePayloadValue : Prop :=
  ∀ (s : State) (p : List Byte), Idle s →
    (p.length ≤ s.board.val.nmax →
      ∃ v : Nat, v < 256 ^ p.length ∧
        (∀ i (h : i < p.length), (v / 256 ^ (p.length - 1 - i)) % 256 = p[i].toNat) ∧
        exec (.decU p) s = .next { s with out := some ⟨.ok, .int v⟩ } ∧
        (∀ d r, p = d :: r → exec (.decS p) s = .next { s with out := some ⟨.ok,
          .int (if d.msb then (v : Int) - 2 ^ (8 * p.length) else v)⟩ })) ∧
    (s.board.val.nmax < p.length →
      exec (.decU p) s = .next { s with out := some ⟨.bufferTooSmall, .none⟩ } ∧
      exec (.decS p) s = .next { s with out := some ⟨.bufferTooSmall, .none⟩ }) ∧
    (p = [] → exec (.decS p) s = .next { s with out := some ⟨.invalidParam, .none⟩ })

/-- `RDIV` (R107): for a positive divisor the nearest integer, the one of larger magnitude where two are;
symmetric about zero; `INVALID_PARAM` for a divisor that is not positive. That a result outside 32 bits is answered
as the integer itself is the model's choice (log 5). -/
def Obligations.RoundingDivisionIsNearest : Prop :=
  ∀ (s : State) (num den : Int), Idle s →
    (den ≤ 0 → exec (.rdiv num den) s = .next { s with out := some ⟨.invalidParam, .none⟩ }) ∧
    (0 < den → ∃ r : Int, exec (.rdiv num den) s = .next { s with out := some ⟨.ok, .int r⟩ } ∧
      exec (.rdiv (-num) den) s = .next { s with out := some ⟨.ok, .int (-r)⟩ } ∧
      2 * |r * den - num| ≤ den ∧
      (∀ q : Int, 2 * |q * den - num| ≤ den → |q| ≤ |r|) ∧
      (0 ≤ num → 0 ≤ r) ∧ (num ≤ 0 → r ≤ 0))

/-! ### The converter -/

/-- The payload of a register's last reading, `ps` being those of the registers `rs` in order. -/
def lastReading (rs : List RegId) (ps : List (List Byte)) (r : RegId) : Option (List Byte) :=
  (rs.zip ps).reverse.lookup r

/-- The conversions complete (R108, R110, R111 to R117): with a coefficient set loaded and every register
of `Regs_q` answered with its right checksum, the result is the special case's 0 or the rounding division
of `Num_q` by `Den_q` of the decoded values, if it fits 32 bits, and else a free 32-bit value (log 5); the
context is not written. A register that `Regs_q` names again counts by its last reading (R110's `raw[reg]`). `p0` is the
payload of the register the special cases speak of, the quantity's own where `Regs_q` has it and else the first; both
readings of the rules are the model's (log 27). The device makes of the requests what log 17 and 20 say. -/
def Obligations.ConversionsReturnTheScaledReading : Prop :=
  ∀ (s : State) (i : Instr) (q : Quantity) (cs : CoefSet) (es : List RegEntry) (ps : List (List Byte))
    (p0 : List Byte) (sends : List SendAnswer) (recvs : List RecvPlan), Idle s →
    (i, q) ∈ conversions →
    s.ctx.coef = .loaded cs →
    (s.board.val.regsOf q).map s.board.val.entry = es.map some →
    ps.map List.length = es.map RegEntry.width →
    lastReading (s.board.val.regsOf q) ps (s.board.val.mainRegister q) = some p0 →
    ReadsAnswered s ((es.map RegEntry.raddr).zip ps) sends recvs →
    ∃ t v, exec i s = .next t ∧ EndedWith s t ⟨.ok, .int v⟩ ∧ t.ctx = s.ctx ∧
      t.sends = sends ∧ t.recvs = recvs ∧
      t.log = s.log ++ ((es.map RegEntry.raddr).zip ps).flatMap (fun x => readEvents x.1 x.2) ∧
      t.dev = deviceAfterEvents s.board.val s.dev
        (((es.map RegEntry.raddr).zip ps).flatMap (fun x => readEvents x.1 x.2)) ∧
      (∀ ch, q = .rms ch → beNat p0 = 0 → v = 0) ∧
      (∀ ch, q = .power ch → (∀ d ∈ p0, d = 0xFF) → v = 0) ∧
      (∀ (raws : List (RegId × Int)) (exact : Int),
        raws = (s.board.val.regsOf q).eraseDups.map (fun r =>
          let p := (lastReading (s.board.val.regsOf q) ps r).getD []
          (r, if s.board.val.isSigned r then beInt p else (beNat p : Int))) →
        (∀ ch, q = .rms ch → beNat p0 ≠ 0) → (∀ ch, q = .power ch → ¬ ∀ d ∈ p0, d = 0xFF) →
        exact = rdivInt (scaleNum s.board.val q ⟨raws, cs, s.ctx.pga, s.ctx.ratio, s.ctx.sel⟩)
          (scaleDen s.board.val q ⟨raws, cs, s.ctx.pga, s.ctx.ratio, s.ctx.sel⟩) →
        -2147483648 ≤ exact → exact ≤ 2147483647 → v = exact) ∧
      -2147483648 ≤ v ∧ v ≤ 2147483647

/-- The two special readings (R111, R112): an RMS payload of zeros and a power payload of all ones give
exactly 0, whatever the coefficients and the context, in every configuration whose `Regs_q` is the default one of
R117. -/
def Obligations.SpecialReadingsGiveZero : Prop :=
  ∀ (s : State) (i : Instr) (q : Quantity) (cs : CoefSet) (e : RegEntry) (p : List Byte) (n : Nat)
    (sends : List SendAnswer) (recvs : List RecvPlan), Idle s →
    ((i, q) ∈ [(.convRms 0, .rms .A), (.convRms 1, .rms .B), (.convRms 2, .rms .U)] ∧
        (∀ d ∈ p, d = 0) ∨
      (i, q) ∈ [(.convPower 0, .power .A), (.convPower 1, .power .B)] ∧ (∀ d ∈ p, d = 0xFF)) →
    s.ctx.coef = .loaded cs → s.board.val.regsOf q = [q.register] →
    s.board.val.entry q.register = some e → p.length = e.width →
    s.sends = .sent n :: sends → 2 ≤ n → s.recvs = .bytes (goodResponse e.raddr p) :: recvs →
    ∃ t, exec i s = .next t ∧ EndedWith s t ⟨.ok, .int 0⟩ ∧ t.ctx = s.ctx

/-- The conversions pass on the error of a register access (R110, R134): with a coefficient set loaded and the
registers of `Regs_q` before it read, the read of the next one that fails ends the conversion with that read's status,
unchanged and without a value, and no later register is read. What the device makes of the requests is the model's
choice (log 17, 18, 20), and so is where the bytes of a receive come from (log 9, 10). -/
def Obligations.ConversionsPassOnAFailedRead : Prop :=
  ∀ (s : State) (i : Instr) (q : Quantity) (cs : CoefSet) (es : List RegEntry) (ps : List (List Byte))
    (e : RegEntry), Idle s → (i, q) ∈ conversions → s.ctx.coef = .loaded cs →
    ((s.board.val.regsOf q).map s.board.val.entry).take (es.length + 1) = (es ++ [e]).map some →
    ps.map List.length = es.map RegEntry.width →
    EndsAtFailedRead i s ((es.map RegEntry.raddr).zip ps) e.raddr e.width

/-- The order of the checks before any transaction (R110, R133): a selector that names no channel gives
`INVALID_PARAM` whatever the cache holds; else an empty cache gives `INVALID_DATA`; nothing is sent. -/
def Obligations.ConversionChecksCostNoTransaction : Prop :=
  ∀ s : State, Idle s →
    (∀ i ∈ [Instr.convRms 3, .convPower 3, .convEnergy 2, .convEnergy 3],
      exec i s = .next { s with out := some ⟨.invalidParam, .none⟩ }) ∧
    (s.ctx.coef = .notLoaded →
      ∀ i ∈ [Instr.convRms 0, .convRms 1, .convRms 2, .convPower 0, .convPower 1, .convEnergy 0,
          .convEnergy 1, .convFreq, .convPf, .convPhase],
        exec i s = .next { s with out := some ⟨.invalidData, .none⟩ })

/-- `CONV_POWER` with channel `S` has no meaning and is refused (R112, U2; log 26). -/
def Obligations.ApparentPowerIsRefused : Prop :=
  ∀ s : State, exec (.convPower 2) s = .refused .apparentPower

/-- The obligations of R121 on the scaling, which the model meets by construction (log 4): RMS never
negative and 0 at a raw value of 0; power zero or of its raw value's sign; energy monotonic in its raw
value, in its exact quotients (`Num(r1) * Den(r2) ≤ Num(r2) * Den(r1)`) and so in its rounded results (R113), and
never above the unrounded value at the wrap `256 ^ w`; the result of an energy never negative (R113). The denominator
of an energy may depend on its raw value too (R13). The raw value is that of the register of log 27; one below 0, of
which R121 does not speak, is held to the same (log 39). -/
def Obligations.ScalingMeetsItsObligations : Prop :=
  (∀ b ch a, 0 ≤ scaleNum b (.rms ch) a ∧ (mainRaw b (.rms ch) a = 0 → scaleNum b (.rms ch) a = 0)) ∧
  (∀ b ch a, (scaleNum b (.power ch) a).sign = (mainRaw b (.power ch) a).sign ∨ scaleNum b (.power ch) a = 0) ∧
  (∀ b q a, 0 < scaleDen b q a) ∧
  (∀ b ch a, 0 ≤ rdivInt (scaleNum b (.energy ch) a) (scaleDen b (.energy ch) a)) ∧
  (∀ (b : Board) (ch : CurCh) (a : ScaleArgs) (e : RegEntry) (r1 r2 : Int) (at' : Int → ScaleArgs),
    b.entry (b.mainRegister (.energy ch)) = some e →
    (∀ r, at' r = { a with raws := assign a.raws (b.mainRegister (.energy ch)) r }) → r1 ≤ r2 →
    scaleNum b (.energy ch) (at' r1) * scaleDen b (.energy ch) (at' r2) ≤
      scaleNum b (.energy ch) (at' r2) * scaleDen b (.energy ch) (at' r1) ∧
    rdivInt (scaleNum b (.energy ch) (at' r1)) (scaleDen b (.energy ch) (at' r1)) ≤
      rdivInt (scaleNum b (.energy ch) (at' r2)) (scaleDen b (.energy ch) (at' r2)) ∧
    (r1 < 256 ^ e.width →
      rdivInt (scaleNum b (.energy ch) (at' r1)) (scaleDen b (.energy ch) (at' r1)) *
        scaleDen b (.energy ch) (at' (256 ^ e.width)) ≤ scaleNum b (.energy ch) (at' (256 ^ e.width))))

/-! ### The wire frames -/

/-- A read request at a ready device (R46) for a register it has: payload bytes of the register's width and their
checksum over the request's header and address are put on the line. They are the register's content where that is known
and the device does not change it itself; else they are some content, which the register then holds (R49). No
other register and nothing else of the device changes, nor does the block. Log 17, 20. -/
def Obligations.ReadRequestIsAnswered : Prop :=
  ∀ (s : State) (addr : Byte) (w : Nat), s.dev.ready = true → addr.msb = false →
    widthAt s.board.val addr = some w →
    (∀ p, measuresAt s.board.val addr = false → readReg s.dev.reg addr w = some p →
      exec (.rq addr) s = .next { s with dev := { s.dev with
        line := s.dev.line ++ (p ++ [cksumByte 0xA5 addr p]) } }) ∧
    (measuresAt s.board.val addr = true ∨ readReg s.dev.reg addr w = none →
      ∃ p m, p.length = w ∧
        exec (.rq addr) s = .next { s with dev := { s.dev with
          reg := m, line := s.dev.line ++ (p ++ [cksumByte 0xA5 addr p]), tick := s.dev.tick + 1 } } ∧
        readReg m addr w = some p ∧
        ∀ x : Nat, (∀ i < w, x ≠ cellAddr addr i) → readCell m x = readCell s.dev.reg x)

/-- A write frame at a ready, write-enabled device (R47): with the right checksum and the register's
width, the register holds the payload and every other cell is as it was; nothing else changes. Log 17, 21. -/
def Obligations.WriteFrameStoresItsPayload : Prop :=
  ∀ (s : State) (wa : Byte) (p : List Byte), s.dev.ready = true → s.dev.we = true →
    wa.msb = true → wa ≠ 0xEA → widthAt s.board.val (wa &&& 0x7F) = some p.length →
    (wa &&& 0x7F, beNat p) ∉ s.dev.outOfRange →
    ∃ m, exec (.wf wa p (cksumByte 0xA5 wa p)) s = .next { s with dev := { s.dev with reg := m } } ∧
      readReg m (wa &&& 0x7F) p.length = some p ∧
      ∀ x : Nat, (∀ i < p.length, x ≠ cellAddr (wa &&& 0x7F) i) → readCell m x = readCell s.dev.reg x

/-- The command frames at a ready device (R47, R48): enable-write sets `dev.we`, disable-write clears it,
the select commands set `dev.sel`, and these four change nothing else. A reset frame reaches the registers, write-enable
and the selection, which it leaves open (R48, U17); the device is then not ready (log 19) and the block is as it was. That
the bytes on the line survive a reset frame is the model's choice (log 23). A general command frame with the right checksum
does the same by its code. Log 17. -/
def Obligations.CommandFramesActOnTheDevice : Prop :=
  ∀ (s : State) (ck : Byte → Byte), s.dev.ready = true → (∀ k, ck k = cksumByte 0xA5 0xEA [k]) →
    exec .wren s = .next { s with dev := { s.dev with we := true } } ∧
    exec .wrdis s = .next { s with dev := { s.dev with we := false } } ∧
    exec .selA s = .next { s with dev := { s.dev with sel := .A } } ∧
    exec .selB s = .next { s with dev := { s.dev with sel := .B } } ∧
    (∃ d, exec .devreset s = .next { s with dev := d } ∧ d.ready = false ∧ d.line = s.dev.line ∧
      d.outOfRange = s.dev.outOfRange) ∧
    (∀ k i, (k, i) ∈ [(s.board.val.codes.wren, Instr.wren), (s.board.val.codes.wrdis, .wrdis),
        (s.board.val.codes.selA, .selA), (s.board.val.codes.selB, .selB),
        (s.board.val.codes.reset, .devreset)] →
      exec (.cf k (ck k)) s = exec i s)

/-- A frame that arrives at the device, whatever it is and whatever the device makes of it, changes
nothing but the device: the block does not see it (R29). That the bytes on the line are kept, and the device's
range with them, is the model's choice for the frames whose effect is open (log 18, 21, 23). -/
def Obligations.FramesToTheDeviceLeaveTheBlock : Prop :=
  ∀ (s : State) (i : Instr), i.port = .down →
    ∃ d, exec i s = .next { s with dev := d } ∧ d.outOfRange = s.dev.outOfRange ∧
      (s.dev.reg.wf = true → d.reg.wf = true) ∧ ∃ bs, d.line = s.dev.line ++ bs

/-- A frame the device should not get (U7, U8), taken by the procedure of R69. The device is ready: a command that
is none of the five named ones with its right checksum, a write frame to the control address without a payload or with
more than one byte, which is a command and bytes beyond it, a write frame to a register that is protected, with a wrong checksum, of
another width or to a register the device lacks, a read request with bit 7 of its address set, to an address the device
lacks or to the control address, and a longer frame with bit 7 clear, which is a read request and bytes beyond it.
The device is not ready: every frame. What is drawn is `deviceOpen` of what the frame reaches, and it keeps the
rest; the block is as it was. What a frame reaches is the model's choice. Log 18, 19. -/
def Obligations.UnexpectedFrameLeavesTheDeviceOpen : Prop :=
  ∀ s : State,
    (s.dev.ready = true →
      (∀ k ck, commandWf s.board.val.codes k ck = true →
        exec (.cf k ck) s = .next { s with dev := deviceOpen s.dev .all }) ∧
      (∀ wa p ck, wa.msb = true → wa ≠ 0xEA →
        (widthAt s.board.val (wa &&& 0x7F) = some p.length → ck ≠ cksumByte 0xA5 wa p ∨ s.dev.we = false →
          exec (.wf wa p ck) s = .next { s with dev := deviceOpen s.dev (.register (wa &&& 0x7F)) }) ∧
        (∀ w, widthAt s.board.val (wa &&& 0x7F) = some w → w ≠ p.length →
          exec (.wf wa p ck) s = .next { s with
            dev := deviceStray (deviceOpen s.dev (.register (wa &&& 0x7F))) ((p ++ [ck]).drop (w + 1)) }) ∧
        (widthAt s.board.val (wa &&& 0x7F) = none →
          exec (.wf wa p ck) s = .next { s with
            dev := deviceStray (deviceOpen s.dev (.register (wa &&& 0x7F))) (p ++ [ck]) })) ∧
      (∀ ck, exec (.wf 0xEA [] ck) s = .next { s with dev := deviceOpen s.dev .all }) ∧
      (∀ k c2 p ck, ∃ d, exec (.cf k c2) s = .next { s with dev := d } ∧
        exec (.wf 0xEA ([k, c2] ++ p) ck) s = .next { s with dev := deviceStray d (p ++ [ck]) }) ∧
      (∀ a p ck, a.msb = false → ∃ d, exec (.rq a) s = .next { s with dev := d } ∧
        exec (.wf a p ck) s = .next { s with dev := deviceStray d (p ++ [ck]) }) ∧
      (∀ a, a.msb = true → a ≠ 0xEA →
        exec (.rq a) s = .next { s with dev := deviceOpen s.dev (.register (a &&& 0x7F)) }) ∧
      (∀ a, a = 0xEA ∨ a.msb = false ∧ widthAt s.board.val a = none →
        exec (.rq a) s = .next { s with dev := deviceOpen s.dev .answer })) ∧
    (s.dev.ready = false → ∀ i : Instr, i.port = .down →
      exec i s = .next { s with dev := deviceOpen s.dev .all }) ∧
    (∀ d : Device, deviceStray d [] = d) ∧
    (∀ (d : Device) (bs : List Byte), bs ≠ [] →
      deviceStray d bs = deviceOpen d (if 0xA5 ∈ bs then .all else .answer)) ∧
    (∀ (d : Device) (x : Touch), ∃ we sel reg ready bs,
      deviceOpen d x = ⟨we, sel, reg, d.line ++ bs, ready, d.outOfRange, d.tick + 1⟩ ∧
      (ready = true → d.ready = true) ∧ (x ≠ .all → ready = d.ready) ∧
      (x ≠ .all → x ≠ .enable → we = d.we) ∧ (x ≠ .all → x ≠ .select → sel = d.sel) ∧
      (x ≠ .all → (∀ a, x ≠ .register a) → reg = d.reg) ∧
      (∀ a, x = .register a → ∀ y : Nat, y % 256 ≠ a.toNat → readCell reg y = readCell d.reg y))

/-- A response that arrives (R59): its payload and then its checksum byte are on the line to the block,
after what was there, and the transport has them to deliver to the next receive; nothing else changes.
Log 10, 17. -/
def Obligations.ResponseWaitsForTheNextReceive : Prop :=
  ∀ (s : State) (p : List Byte) (ck : Byte),
    exec (.rs p ck) s = .next { s with
      dev := { s.dev with line := s.dev.line ++ (p ++ [ck]) }, recvs := s.recvs ++ [.line] }

/-- A register read from the device over the line (R46, R81): with a ready device, a known register its
own measurement does not change, a clear line and a transport that delivers what arrives (log 10), `RD_REG` at the
register's width returns its bytes. That the read leaves the register as it was is the model's choice (log 20: no
clear-on-read, which R39 leaves open). -/
def Obligations.ReadReturnsTheDeviceRegister : Prop :=
  ∀ (s : State) (addr : Byte) (w n : Nat) (p : List Byte) (as : List SendAnswer) (plans : List RecvPlan),
    Idle s → s.dev.ready = true → addr.msb = false → w ≤ s.board.val.nmax →
    widthAt s.board.val addr = some w → measuresAt s.board.val addr = false →
    readReg s.dev.reg addr w = some p → s.dev.line = [] →
    s.sends = .sent n :: as → 2 ≤ n → s.recvs = .line :: plans →
    ∃ t, exec (.rdReg addr w) s = .next t ∧ EndedWith s t ⟨.ok, .bytes p⟩ ∧ t.ctx = s.ctx ∧
      t.dev = s.dev ∧ t.sends = as ∧ t.recvs = plans

/-! ### The ports -/

/-- A step runs the decoded operation (R64): with nothing arriving from outside, an idle block with a
context takes the first presentation from the host port and executes it. -/
def Obligations.StepRunsThePresentedOperation : Prop :=
  ∀ (s : State) (bs : List Byte) (rest : List HostItem) (i : Instr), Idle s → s.created = true →
    s.world = [] → s.host = .op bs :: rest → decodeOp bs = .ok i →
    step s = exec i { s with host := rest }

/-- A step runs the decoded frame: what arrives on the line, to the device while no operation is in
progress, or to the block at any time, is executed, before anything the host presents and before the operation in
progress. That order and that the wire rows are executed at all is the model's choice (log 12, 17, 25). -/
def Obligations.StepRunsTheArrivingFrame : Prop :=
  ∀ (s : State) (bs : List Byte) (rest : List WorldItem) (i : Instr),
    (Idle s → s.world = .down bs :: rest → decodeFrame s.board.val bs = .ok i →
      step s = exec i { s with world := rest }) ∧
    (s.world = .up bs :: rest → decodeResponse s.board.val bs = .ok i → step s = exec i { s with world := rest })

/-- An operation number that names no operation (R66): `NOT_IMPLEMENTED`, no transport activity, no state
changed but the response and the presentation taken. -/
def Obligations.UnknownOperationIsNotImplemented : Prop :=
  ∀ (s : State) (op : Byte) (bs : List Byte) (rest : List HostItem), Idle s → s.created = true →
    s.world = [] → s.host = .op (op :: bs) :: rest →
    (0x05 ≤ op.toNat ∧ op.toNat ≤ 0x0F ∨ 0x15 ≤ op.toNat ∧ op.toNat ≤ 0x1F ∨
      0x28 ≤ op.toNat ∧ op.toNat ≤ 0x2F ∨ 0x39 ≤ op.toNat) →
    step s = .next { s with host := rest, out := some ⟨.notImplemented, .none⟩ }

/-- One operation at a time (R17): while one is in progress an operation at the host port stays there, and
the step is the one the operation in progress makes. -/
def Obligations.BusyBlockHoldsTheNextOperation : Prop :=
  ∀ (s : State) (i : Instr) (bs : List Byte) (rest : List HostItem), s.seq.op = some i →
    s.world = [] → s.host = .op bs :: rest → i.port = .host →
    step s = exec i s ∧ ∀ t, step s = .next t → t.host = s.host

/-- An operation whose transaction is never answered never ends (R139): a register read from an idle
block whose transport does not answer the request, or answers it and not the receive, is in progress, and stays so at
every later step while nothing arrives. The phase counts the answered transactions, and a request is with the device
when it is answered: both are the model's choice (log 11, 35). -/
def Obligations.UnansweredReadNeverEnds : Prop :=
  ∀ (s : State) (addr : Byte) (w : Nat) (k : Nat), Idle s → w ≤ s.board.val.nmax → s.world = [] →
    (∀ h ∈ s.host, ∃ bs, h = .op bs) →
    (s.sends = [] →
      ∃ t, exec (.rdReg addr w) s = .next t ∧ t.seq.busy = true ∧ t.seq.phase = 0 ∧
        t.seq.pending = some [0xA5, addr] ∧ t.out = none ∧ t.tx = [0xA5, addr] ∧ t.log = s.log ∧ t.dev = s.dev ∧
        t.ctx = s.ctx ∧ Host.Core.run core k t = .next t) ∧
    (∀ n as, s.sends = .sent n :: as → 2 ≤ n → s.recvs = [] →
      ∃ t, exec (.rdReg addr w) s = .next t ∧ t.seq.busy = true ∧ t.seq.phase = 1 ∧ t.seq.pending = none ∧
        t.out = none ∧ t.log = s.log ++ [.send [0xA5, addr] (.sent 2)] ∧
        t.dev = deviceAfterSend s.board.val s.dev [0xA5, addr] (.sent 2) ∧ t.ctx = s.ctx ∧
        Host.Core.run core k t = .next t)

/-- Late answers change nothing (R16, R50, R139): an operation left waiting by the transport and given
its answers later comes to the very state it would have come to had they been there from the start. -/
def Obligations.LateAnswersReachTheSameState : Prop :=
  ∀ (s t : State) (i : Instr) (as : List SendAnswer) (rs : List RecvPlan), Idle s →
    isOperation i = true → exec i s = .next t → t.seq.busy = true →
    exec i { t with sends := t.sends ++ as, recvs := t.recvs ++ rs } =
      exec i { s with sends := s.sends ++ as, recvs := s.recvs ++ rs }

/-! ### Reset, creation, destruction -/

/-- After reset (R30): the sequencer is idle, the cache not loaded, no status held. -/
def Obligations.ResetLeavesTheBlockIdle : Prop :=
  State.reset.seq.busy = false ∧ State.reset.seq.phase = 0 ∧ State.reset.ctx.coef = .notLoaded ∧
  State.reset.out = none ∧ State.reset.log = [] ∧ step State.reset = .next State.reset

/-- Creation (R143, R146): whatever was in progress, the sequencer is idle, the cache not loaded and the
interface kind as given; no transaction is made and the device is as it was. That it takes effect at once, even while
an operation is in progress, is the model's choice (log 12, 24), and so is that a `Send` still unanswered then
may have reached the device with any part of its frame (log 35). -/
def Obligations.CreationResetsTheBlockAlone : Prop :=
  ∀ (s : State) (k : IfKind) (rest : List HostItem), s.world = [] → s.host = .create k :: rest →
    ∃ t, step s = .next t ∧ Idle t ∧ t.ctx.coef = .notLoaded ∧ t.ctx.ifkind = k ∧ t.created = true ∧
      t.out = none ∧ t.log = s.log ∧ t.sends = s.sends ∧ t.recvs = s.recvs ∧
      (s.seq.pending = none → t.dev = s.dev) ∧
      (∀ f, s.seq.pending = some f → t.dev = deviceLost s.board.val.codes s.dev f) ∧
      t.host = rest ∧ t.board = s.board ∧
      ctxOk t.board t.ctx

/-- Destruction (R145, U17): nothing is sent and the device is as it was, if no `Send` stands unanswered (log 35); an
operation in progress ends without a status (log 38). Whatever step follows, but a creation, leaves the block without a
context and idle, and an operation presented then is refused. Log 24. -/
def Obligations.DestroyedBlockRunsNoOperation : Prop :=
  (∀ (s : State) (rest : List HostItem), s.world = [] → s.host = .destroy :: rest →
    ∃ t, step s = .next t ∧ t.log = s.log ∧ t.host = rest ∧ t.out = none ∧ t.created = false ∧ Idle t ∧
      (s.seq.pending = none → t.dev = s.dev) ∧
      (∀ f, s.seq.pending = some f → t.dev = deviceLost s.board.val.codes s.dev f)) ∧
  (∀ s t : State, s.created = false → Idle s → step s = .next t →
    t.created = false ∧ Idle t ∨ s.world = [] ∧ ∃ k rest, s.host = .create k :: rest) ∧
  (∀ (s : State) (bs : List Byte) (rest : List HostItem), s.created = false → Idle s → s.world = [] →
    s.host = .op bs :: rest → step s = .refused .contextDestroyed)

/-- The settle event (R159, D28): the device is ready for frames, and nothing else changes. That readiness is one flag,
which the event sets, is the model's choice (log 19). -/
def Obligations.SettleEventMakesTheDeviceReady : Prop :=
  ∀ (s : State) (rest : List HostItem), s.world = [] → s.host = .settled :: rest →
    step s = .next { s with host := rest, dev := { s.dev with ready := true } }

/-- A second agent's frame between the frames of an operation (R151, U12) is refused, whatever it is; one that arrives
while no operation is in progress runs and leaves the block alone. That it is refused before the first frame of an
operation and during an operation of one frame too is the model's choice (log 25). -/
def Obligations.InterleavedAgentIsRefused : Prop :=
  ∀ (s : State) (bs : List Byte) (rest : List WorldItem), s.world = .down bs :: rest →
    (s.seq.busy = true → step s = .refused .interleavedAgent) ∧
    (s.seq.busy = false → ∃ d, step s = .next { s with world := rest, dev := d })

/-- A power cycle of the device (R157): the block does not see it, so the context keeps what it holds; of the
device's write-enable, selection, readiness and registers nothing is known any more, and the bytes on the line stay
(log 36). -/
def Obligations.PowerCycleLeavesTheContext : Prop :=
  ∀ (s : State) (rest : List WorldItem), s.world = .powerCycle :: rest →
    ∃ we sel ready, step s = .next { s with world := rest, dev :=
      ⟨we, sel, [], s.dev.line, ready, s.dev.outOfRange, s.dev.tick + 1⟩ }

/-! ### The whole machine -/

/-- The invariant holds right after reset: every transaction and response there is well-formed, since there is none
(`ResetLeavesTheBlockIdle`). -/
def Obligations.InvariantHoldsAtReset : Prop := Inv State.reset

/-- Every step keeps the invariant: gains of `PgaSet` and positive ratios, the register memory's canonical
form, the buffers within their sizes, an idle sequencer without an operation, every transaction within the rules
(each frame starts with the header), and every response within them. -/
def Obligations.EveryStepKeepsTheInvariant : Prop :=
  ∀ s t : State, Inv s → step s = .next t → Inv t

/-- An operation that ends with an error leaves the whole context as it found it, and returns no result
(R135). -/
def Obligations.FailedOperationLeavesTheContext : Prop :=
  ∀ (s t : State) (i : Instr) (r : Response), i.port = .host → exec i s = .next t → t.out = some r →
    r.status ≠ .ok → t.ctx = s.ctx ∧ r.result = .none ∧ t.seq = Seq.idle

/-- Which operation can end with which status (the table after R132), for every configuration, every
answer of the transport and every point an operation is taken up at. `INVALID_PARAM` of `SET_RATIO` is
not of that table: R89 and D15 give it for a value that is no positive rational (log 15). -/
def Obligations.OperationsEndWithTheirStatuses : Prop :=
  ∀ (s t : State) (i : Instr) (r : Response), i.port = .host → exec i s = .next t → t.out = some r →
    r.status ∈ allowedStatuses i

/-- What no step ever writes: the parameters; and of the context, the interface kind only at creation
and destruction (R23), the selection only by `SEL_CH` (R19), the ratios only by `SET_RATIO` (R21), the
cache only by `LOAD_COEF` (R22), the gains only by `SET_PGA` (R20). -/
def Obligations.ContextFieldsHaveOneWriter : Prop :=
  ∀ (s t : State) (i : Instr), exec i s = .next t →
    PortsKept s t ∧ t.ctx.ifkind = s.ctx.ifkind ∧
    ((∀ ch, i ≠ .selCh ch) → t.ctx.sel = s.ctx.sel) ∧
    ((∀ a b c, i ≠ .setRatio a b c) → t.ctx.ratio = s.ctx.ratio) ∧
    (i ≠ .loadCoef → t.ctx.coef = s.ctx.coef) ∧
    ((∀ ch g, i ≠ .setPga ch g) → t.ctx.pga = s.ctx.pga)

/-- The interface kind is read by no rule (R9, R23): an operation's outcome under one kind is its outcome
under the other, but for the kind itself. -/
def Obligations.InterfaceKindIsReadByNoRule : Prop :=
  ∀ (s t : State) (i : Instr) (k : IfKind), exec i s = .next t →
    exec i { s with ctx := { s.ctx with ifkind := k } } =
      .next { t with ctx := { t.ctx with ifkind := k } }

/-- A status is not stored (R18, R136): an operation comes to the same state whatever response the one
before it left on the port. -/
def Obligations.PreviousResponseHasNoEffect : Prop :=
  ∀ (s : State) (i : Instr) (r : Option Response), i.port = .host →
    exec i { s with out := r } = exec i s
end

