-- ==== Sys2Proof/Laws/Convert.lean ====
section
/-! SUPPORT. What the converter's shared operations can do, said once: the map `raw` of R110, the rounding division
against quotients, and the energy fractions at one raw value and at the next. -/

namespace Sys2Proof.Machine

/-! ### The map from registers to readings -/

@[simp] theorem lookup_assign_self {α : Type} (m : List (RegId × α)) (r : RegId) (x : α) :
    (assign m r x).lookup r = some x := by
  induction m with
  | nil => simp [assign]
  | cons e m ih =>
    obtain ⟨k, y⟩ := e
    by_cases h : k = r
    · simp [assign, h]
    · rw [assign, if_neg h, List.lookup_cons, beq_false_of_ne (Ne.symm h), ih]

theorem lookup_assign_of_ne {α : Type} (m : List (RegId × α)) {r k : RegId} (x : α) (h : k ≠ r) :
    (assign m r x).lookup k = m.lookup k := by
  induction m with
  | nil => simp [assign, List.lookup_cons, beq_false_of_ne h]
  | cons e m ih =>
    obtain ⟨j, y⟩ := e
    by_cases hj : j = r
    · subst hj; simp [assign, List.lookup_cons, beq_false_of_ne h]
    · simp [assign, List.lookup_cons, hj, ih]

@[simp] theorem assign_assign {α : Type} (m : List (RegId × α)) (r : RegId) (x y : α) :
    assign (assign m r x) r y = assign m r y := by
  induction m with
  | nil => simp [assign]
  | cons e m ih => by_cases h : e.1 = r <;> simp [assign, h, ih]

theorem keys_assign {α : Type} (m : List (RegId × α)) (r : RegId) (x : α) :
    (assign m r x).map Prod.fst = if r ∈ m.map Prod.fst then m.map Prod.fst else m.map Prod.fst ++ [r] := by
  induction m with
  | nil => simp [assign]
  | cons e m ih =>
    by_cases h : e.1 = r
    · simp [assign, h]
    · simp only [assign, h, if_false, List.map_cons, ih, List.mem_cons, Ne.symm h, false_or]
      split <;> simp

/-! ### Quotients and their rounded results -/

theorem Fraction.le_iff (p q : Fraction) : p.le q = true ↔ p.1 * q.2 ≤ q.1 * p.2 := decide_eq_true_iff

theorem Fraction.le_refl (p : Fraction) : p.le p = true := (Fraction.le_iff p p).2 (Int.le_refl _)

theorem Fraction.le_trans {p q r : Fraction} (hq : 0 < q.2) (hpq : p.le q = true) (hqr : q.le r = true) :
    p.le r = true := by
  obtain ⟨a, b⟩ := p; obtain ⟨c, d⟩ := q; obtain ⟨e, f⟩ := r
  rw [Fraction.le_iff] at *
  simp only at *
  have h1 : a * d * f ≤ c * b * f := by apply mul_le_mul_of_nonneg_right hpq; omega
  have h2 : c * f * b ≤ e * d * b := by apply mul_le_mul_of_nonneg_right hqr; omega
  have : (a * f) * d ≤ (e * b) * d := by nlinarith
  exact le_of_mul_le_mul_right this (by omega)

theorem div_le_div_of_cross {a b c d : Nat} (hb : 0 < b) (hd : 0 < d) (h : a * d ≤ c * b) : a / b ≤ c / d := by
  rw [Nat.le_div_iff_mul_le hd]
  have := Nat.div_mul_le_self a b
  generalize a / b = q at *
  exact Nat.le_of_mul_le_mul_right (show q * d * b ≤ c * b by nlinarith) hb

/-- `RDIV` is monotonic in the exact quotient (R121, derived from R107). -/
theorem rdivInt_le_of_le {p q : Fraction} (hp : 0 < p.2) (hq : 0 < q.2) (h : p.le q = true) :
    rdivInt p.1 p.2 ≤ rdivInt q.1 q.2 := by
  obtain ⟨n, d⟩ := p; obtain ⟨m, e⟩ := q
  rw [Fraction.le_iff] at h
  simp only [rdivInt] at *
  by_cases hn : 0 ≤ n <;> by_cases hm : 0 ≤ m
  · obtain ⟨n, rfl⟩ := Int.eq_ofNat_of_zero_le hn
    obtain ⟨m, rfl⟩ := Int.eq_ofNat_of_zero_le hm
    simp only [Int.natCast_nonneg, if_true, Int.natAbs_natCast]
    have h' : n * e ≤ m * d := by exact_mod_cast h
    exact_mod_cast div_le_div_of_cross (by omega) (by omega) (by nlinarith)
  · have : 0 ≤ n * (e : Int) := Int.mul_nonneg hn (by omega)
    have : m * (d : Int) < 0 := Int.mul_neg_of_neg_of_pos (by omega) (by omega)
    omega
  · rw [if_neg hn, if_pos hm]
    exact Int.le_trans (neg_nonpos.2 (Int.natCast_nonneg _)) (Int.natCast_nonneg _)
  · rw [if_neg hn, if_neg hm]
    rw [show n = -(n.natAbs : Int) by omega, show m = -(m.natAbs : Int) by omega] at h
    generalize n.natAbs = a at *
    generalize m.natAbs = b at *
    have h' : b * d ≤ a * e := by
      have : (b : Int) * d ≤ a * e := by linarith
      exact_mod_cast this
    have := div_le_div_of_cross (a := 2 * b + e) (b := 2 * e) (c := 2 * a + d) (d := 2 * d) (by omega) (by omega)
      (by nlinarith)
    omega

theorem Fraction.roundsNonneg_iff {p : Fraction} (hp : 0 < p.2) :
    p.roundsNonneg = true ↔ 0 ≤ rdivInt p.1 p.2 := by
  obtain ⟨n, d⟩ := p
  simp only [Fraction.roundsNonneg, decide_eq_true_eq, rdivInt] at *
  by_cases hn : 0 ≤ n
  · simp only [hn, if_true]
    exact iff_of_true (by omega) (Int.natCast_nonneg _)
  · simp only [hn, if_false]
    rw [show n = -(n.natAbs : Int) by omega]
    simp only [Int.natAbs_neg, Int.natAbs_natCast]
    generalize n.natAbs = a
    constructor
    · intro h
      rw [Nat.div_eq_of_lt (by omega)]; simp
    · intro h
      have : (2 * a + d) / (2 * d) = 0 := by exact_mod_cast le_antisymm (nonpos_of_neg_nonneg h) (Int.natCast_nonneg _)
      rcases Nat.div_eq_zero_iff.1 this with h | h <;> omega

/-! ### The energy fractions -/

theorem energyFree_den_pos (b : Board) (ch : CurCh) (a : ScaleArgs) (r : Int) : 0 < (energyFree b ch a r).2 :=
  Nat.succ_pos _

/-- The free fractions know nothing of the raw value in the arguments. -/
@[simp] theorem energyFree_assign (b : Board) (ch : CurCh) (a : ScaleArgs) (x : Int) :
    energyFree b ch { a with raws := assign a.raws (b.mainRegister (.energy ch)) x } = energyFree b ch a := by
  funext r; simp [energyFree]

@[simp] theorem energyFloor_den (w n : Nat) (p : Fraction) : (energyFloor w n p).2 = p.2 := by
  unfold energyFloor; split <;> rfl

theorem le_energyFloor (w n : Nat) (p : Fraction) : p.le (energyFloor w n p) = true := by
  rw [Fraction.le_iff, energyFloor_den]
  refine mul_le_mul_of_nonneg_right ?_ (Int.natCast_nonneg _)
  unfold energyFloor; split
  · exact le_max_left _ _
  · exact Int.le_refl _

variable {free : Int → Fraction} (pos : ∀ r, 0 < (free r).2) (w n : Nat)
include pos

theorem energyUp_den_pos : 0 < (energyUp free w n).2 := by
  induction n with
  | zero => simp only [energyUp]; split; exacts [pos _, Nat.one_pos]
  | succ n ih => simp only [energyUp]; split; exacts [pos _, by rwa [energyFloor_den]]

theorem energyDown_den_pos : 0 < (energyDown free w n).2 := by
  induction n with
  | zero => exact energyUp_den_pos pos w 0
  | succ n ih => simp only [energyDown]; split; exacts [pos _, ih]

omit pos in
theorem energyUp_zero_roundsNonneg : (energyUp free w 0).roundsNonneg = true := by
  simp only [energyUp]; split
  · assumption
  · rfl

omit pos in
/-- From one raw value to the next the fraction does not fall, and at the wrap it is no less than the rounded result
before it (R121). -/
theorem energyFloor_le_energyUp : (energyFloor w n (energyUp free w n)).le (energyUp free w (n + 1)) = true := by
  simp only [energyUp]; split
  · assumption
  · exact Fraction.le_refl _

theorem energyUp_le_succ : (energyUp free w n).le (energyUp free w (n + 1)) = true :=
  Fraction.le_trans (by rw [energyFloor_den]; exact energyUp_den_pos pos w n) (le_energyFloor _ _ _)
    (energyFloor_le_energyUp w n)

omit pos in
theorem energyDown_succ_le : (energyDown free w (n + 1)).le (energyDown free w n) = true := by
  simp only [energyDown]; split
  · simp_all
  · exact Fraction.le_refl _

omit pos in
theorem energyDown_roundsNonneg : (energyDown free w n).roundsNonneg = true := by
  induction n with
  | zero => exact energyUp_zero_roundsNonneg w
  | succ n ih =>
    simp only [energyDown]; split
    · simp_all
    · exact ih

omit pos in
/-- A pair of functions that meets R113 at 0 and R121 is kept as it is (log 4). -/
theorem energyUp_eq_free (nonneg : (free 0).roundsNonneg = true)
    (mono : ∀ k : Nat, (free k).le (free (k + 1)) = true)
    (wrap : ∀ k : Nat, k + 1 = 256 ^ w →
      rdivInt (free k).1 (free k).2 * (free (k + 1)).2 ≤ (free (k + 1)).1) :
    energyUp free w n = free n := by
  induction n with
  | zero => simp [energyUp, nonneg]
  | succ n ih =>
    have : (energyFloor w n (free n)).le (free (n + 1)) = true := by
      have h := (Fraction.le_iff _ _).1 (mono n)
      rw [Fraction.le_iff, energyFloor_den]
      unfold energyFloor
      split
      · rename_i hw
        rcases max_cases (free n).1 (rdivInt (free n).1 (free n).2 * (free n).2) with ⟨he, _⟩ | ⟨he, _⟩
        · simpa only [he] using h
        · simp only [he]
          have := mul_le_mul_of_nonneg_right (wrap n hw) (Int.natCast_nonneg (free n).2)
          linarith
      · exact h
    simp [energyUp, ih, this]

end Sys2Proof.Machine
end

