-- ==== Sys2Proof/Laws/Decode.lean ====
section
/-! SUPPORT. The operand parsers of the host port read back what the encoder puts, whatever follows and however
large the operand (log 13). -/

namespace Sys2Proof

@[simp] theorem thenTake_ok {α β : Type} (a : α) (r : List Byte) (f : α → List Byte → Parsed β) :
    thenTake (.ok (a, r)) f = f a r := rfl

theorem takeCount_of_ne {b : Byte} (h : b ≠ 0xFF) (rest : List Byte) : takeCount (b :: rest) = .ok (b.toNat, rest) :=
  if_neg h

theorem takeCount_run (k : Nat) {b : Byte} (h : b ≠ 0xFF) (rest : List Byte) :
    takeCount (List.replicate k 0xFF ++ b :: rest) = .ok (b.toNat + 255 * k, rest) := by
  induction k with
  | zero => exact takeCount_of_ne h rest
  | succ k ih =>
    rw [List.replicate_succ, List.cons_append, takeCount, if_pos rfl, ih, thenTake_ok, Nat.mul_succ, Nat.add_assoc]

@[simp] theorem takeCount_putCount (n : Nat) (rest : List Byte) : takeCount (putCount n ++ rest) = .ok (n, rest) := by
  have value : (BitVec.ofNat 8 (n % 255)).toNat = n % 255 := by
    rw [BitVec.toNat_ofNat]; omega
  have last : BitVec.ofNat 8 (n % 255) ≠ 0xFF := fun h => by
    have := value.symm.trans (congrArg BitVec.toNat h)
    have : n % 255 = 255 := this
    omega
  rw [putCount, List.append_assoc, List.singleton_append, takeCount_run _ last, value, Nat.mod_add_div]

@[simp] theorem takeBytes_append (p rest : List Byte) : takeBytes p.length (p ++ rest) = .ok (p, rest) := by
  simp [takeBytes]

@[simp] theorem takePayload_putPayload (p rest : List Byte) : takePayload (putPayload p ++ rest) = .ok (p, rest) := by
  simp [takePayload, putPayload]

@[simp] theorem regIdOf_regIdCode (r : RegId) : regIdOf (regIdCode r) = r := by
  cases r <;> rfl

@[simp] theorem takeRegId_putRegId (r : RegId) (rest : List Byte) :
    takeRegId (putRegId r ++ rest) = .ok (r, rest) := by
  simp [takeRegId, putRegId]

@[simp] theorem unzigzag_zigzag (v : Int) : unzigzag (zigzag v) = v := by
  unfold unzigzag zigzag
  split <;> split <;> omega

end Sys2Proof
end

