-- ==== Sys2Proof/Laws/Memory.lean ====
section
/-! SUPPORT. The device's register memory: a write is read back, leaves every other cell as it was, and
keeps the canonical form. -/

namespace Sys2Proof.Machine

/-- A cell written reads as written, and every other cell reads as before. -/
theorem readCell_writeCell (m : Memory) (a : Nat) (v : Byte) (x : Nat) :
    readCell (writeCell m a v) x = if x = a then some v else readCell m x := by
  induction m with
  | nil => simp only [writeCell, readCell]
  | cons c rest ih =>
    obtain ⟨k, u⟩ := c
    simp only [writeCell]
    split_ifs with h1 h2 h3 h4 <;> simp only [readCell, ih] <;> split_ifs <;> first | rfl | omega

/-- Every address in a memory written to is the written one or was there before. -/
theorem mem_writeCell (m : Memory) (a : Nat) (v : Byte) (k : Nat)
    (h : k ∈ (writeCell m a v).map Prod.fst) : k = a ∨ k ∈ m.map Prod.fst := by
  induction m with
  | nil => simpa [writeCell] using h
  | cons c rest ih =>
    obtain ⟨j, u⟩ := c
    simp only [writeCell] at h
    split_ifs at h with h1 h2
    · simpa using h
    · simp only [List.map_cons, List.mem_cons] at h ⊢
      tauto
    · simp only [List.map_cons, List.mem_cons] at h ⊢
      rcases h with h | h
      · exact .inr (.inl h)
      · rcases ih h with h | h
        · exact .inl h
        · exact .inr (.inr h)

/-- A write of one cell keeps the canonical form. -/
theorem writeCell_wf (m : Memory) (a : Nat) (v : Byte) (h : Memory.wf m = true) :
    Memory.wf (writeCell m a v) = true := by
  simp only [Memory.wf, decide_eq_true_eq] at h ⊢
  induction m with
  | nil => simp [writeCell]
  | cons c rest ih =>
    obtain ⟨k, u⟩ := c
    simp only [List.map_cons, List.pairwise_cons] at h
    simp only [writeCell]
    split_ifs with h1 h2
    · simp only [List.map_cons, List.pairwise_cons]
      refine ⟨?_, h.1, h.2⟩
      intro j hj
      rcases List.mem_cons.1 hj with rfl | hj
      · exact h1
      · exact h1.trans (h.1 j hj)
    · subst h2
      simpa using h
    · simp only [List.map_cons, List.pairwise_cons]
      refine ⟨?_, ih h.2⟩
      intro j hj
      rcases mem_writeCell rest a v j hj with rfl | hj
      · omega
      · exact h.1 j hj

/-- A write of several cells keeps the canonical form. -/
theorem writeCells_wf (m : Memory) (a : Nat) (p : List Byte) (h : Memory.wf m = true) :
    Memory.wf (writeCells m a p) = true := by
  induction p generalizing m a with
  | nil => exact h
  | cons v vs ih => exact ih _ _ (writeCell_wf m a v h)

/-- A write of a register keeps the canonical form. -/
theorem writeReg_wf (m : Memory) (a : Byte) (p : List Byte) (h : Memory.wf m = true) :
    Memory.wf (writeReg m a p) = true :=
  writeCells_wf m _ p h

/-- A cell of another register reads as before. -/
theorem readCell_writeCells_of_ne (m : Memory) (a : Nat) (p : List Byte) (x : Nat) (h : x % 256 ≠ a % 256) :
    readCell (writeCells m a p) x = readCell m x := by
  induction p generalizing m a with
  | nil => rfl
  | cons v vs ih =>
    simp only [writeCells]
    rw [ih _ _ (by omega), readCell_writeCell, if_neg (by omega)]

/-- A cell before the cells written reads as before. -/
theorem readCell_writeCells_of_lt (m : Memory) (a : Nat) (p : List Byte) (x : Nat) (h : x < a) :
    readCell (writeCells m a p) x = readCell m x := by
  induction p generalizing m a with
  | nil => rfl
  | cons v vs ih =>
    simp only [writeCells]
    rw [ih _ _ (by omega), readCell_writeCell, if_neg (by omega)]

/-- A cell after the cells written reads as before. -/
theorem readCell_writeCells_of_ge (m : Memory) (a : Nat) (p : List Byte) (x : Nat)
    (h : a + 256 * p.length ≤ x) : readCell (writeCells m a p) x = readCell m x := by
  induction p generalizing m a with
  | nil => rfl
  | cons v vs ih =>
    simp only [writeCells, List.length_cons] at h ⊢
    rw [ih _ _ (by omega), readCell_writeCell, if_neg (by omega)]

/-- Cells written are read back. -/
theorem readCells_writeCells (m : Memory) (a : Nat) (p : List Byte) :
    readCells (writeCells m a p) a p.length = some p := by
  induction p generalizing m a with
  | nil => rfl
  | cons v vs ih =>
    simp only [writeCells, readCells, List.length_cons]
    rw [ih, readCell_writeCells_of_lt _ _ _ _ (by omega), readCell_writeCell, if_pos rfl]

/-- A cell of another register is known as before when a register is forgotten. -/
theorem readCell_forgetReg (m : Memory) (a : Byte) (x : Nat) (h : x % 256 ≠ a.toNat) :
    readCell (forgetReg m a) x = readCell m x := by
  induction m with
  | nil => rfl
  | cons c rest ih =>
    obtain ⟨k, u⟩ := c
    simp only [forgetReg, List.filter_cons] at ih ⊢
    split_ifs with hk
    · simp only [readCell, ih]
    · have hx : x ≠ k := by
        rintro rfl
        exact hk (by simpa using h)
      rw [ih]
      exact (if_neg hx).symm

/-- Forgetting a register keeps the canonical form. -/
theorem forgetReg_wf (m : Memory) (a : Byte) (h : Memory.wf m = true) : Memory.wf (forgetReg m a) = true := by
  simp only [Memory.wf, decide_eq_true_eq] at h ⊢
  exact h.sublist (List.Sublist.map Prod.fst List.filter_sublist)

end Sys2Proof.Machine
end

