-- ==== Sys2Proof/Laws/State.lean ====
section
/-! SUPPORT. The small lemmas of the state's named updates. -/

namespace Sys2Proof.Machine

section FrameArrives
variable (f : List Byte) (s : State)
@[simp] theorem frameArrives_seq : (frameArrives f s).seq = s.seq := rfl
@[simp] theorem frameArrives_ctx : (frameArrives f s).ctx = s.ctx := rfl
@[simp] theorem frameArrives_tx : (frameArrives f s).tx = s.tx := rfl
@[simp] theorem frameArrives_rx : (frameArrives f s).rx = s.rx := rfl
@[simp] theorem frameArrives_created : (frameArrives f s).created = s.created := rfl
@[simp] theorem frameArrives_board : (frameArrives f s).board = s.board := rfl
@[simp] theorem frameArrives_host : (frameArrives f s).host = s.host := rfl
@[simp] theorem frameArrives_out : (frameArrives f s).out = s.out := rfl
@[simp] theorem frameArrives_sends : (frameArrives f s).sends = s.sends := rfl
@[simp] theorem frameArrives_recvs : (frameArrives f s).recvs = s.recvs := rfl
@[simp] theorem frameArrives_log : (frameArrives f s).log = s.log := rfl
@[simp] theorem frameArrives_world : (frameArrives f s).world = s.world := rfl
@[simp] theorem frameArrives_dev :
    (frameArrives f s).dev = deviceReceive s.board.val s.dev f := rfl
@[simp] theorem frameArrives_draws : (frameArrives f s).draws = s.draws := rfl
end FrameArrives

section ResponseArrives
variable (bs : List Byte) (s : State)
@[simp] theorem responseArrives_seq : (responseArrives bs s).seq = s.seq := rfl
@[simp] theorem responseArrives_ctx : (responseArrives bs s).ctx = s.ctx := rfl
@[simp] theorem responseArrives_tx : (responseArrives bs s).tx = s.tx := rfl
@[simp] theorem responseArrives_rx : (responseArrives bs s).rx = s.rx := rfl
@[simp] theorem responseArrives_created : (responseArrives bs s).created = s.created := rfl
@[simp] theorem responseArrives_board : (responseArrives bs s).board = s.board := rfl
@[simp] theorem responseArrives_host : (responseArrives bs s).host = s.host := rfl
@[simp] theorem responseArrives_out : (responseArrives bs s).out = s.out := rfl
@[simp] theorem responseArrives_sends : (responseArrives bs s).sends = s.sends := rfl
@[simp] theorem responseArrives_recvs : (responseArrives bs s).recvs = s.recvs ++ [.line] := rfl
@[simp] theorem responseArrives_log : (responseArrives bs s).log = s.log := rfl
@[simp] theorem responseArrives_world : (responseArrives bs s).world = s.world := rfl
@[simp] theorem responseArrives_dev_line :
    (responseArrives bs s).dev.line = s.dev.line ++ bs := rfl
@[simp] theorem responseArrives_dev_reg : (responseArrives bs s).dev.reg = s.dev.reg := rfl
@[simp] theorem responseArrives_draws : (responseArrives bs s).draws = s.draws := rfl
end ResponseArrives

section FinishOp
variable (s : State) (r : Response) (c : Ctx)
@[simp] theorem finishOp_seq : (finishOp s r c).seq = Seq.idle := by unfold finishOp; split <;> rfl
@[simp] theorem finishOp_ctx : (finishOp s r c).ctx = c := by unfold finishOp; split <;> rfl
@[simp] theorem finishOp_created : (finishOp s r c).created = s.created := by
  unfold finishOp; split <;> rfl
@[simp] theorem finishOp_board : (finishOp s r c).board = s.board := by unfold finishOp; split <;> rfl
@[simp] theorem finishOp_host : (finishOp s r c).host = s.host := by unfold finishOp; split <;> rfl
@[simp] theorem finishOp_out : (finishOp s r c).out = some r := by unfold finishOp; split <;> rfl
@[simp] theorem finishOp_sends : (finishOp s r c).sends = s.sends := by unfold finishOp; split <;> rfl
@[simp] theorem finishOp_recvs : (finishOp s r c).recvs = s.recvs := by unfold finishOp; split <;> rfl
@[simp] theorem finishOp_log : (finishOp s r c).log = s.log := by unfold finishOp; split <;> rfl
@[simp] theorem finishOp_world : (finishOp s r c).world = s.world := by unfold finishOp; split <;> rfl
@[simp] theorem finishOp_dev : (finishOp s r c).dev = s.dev := by unfold finishOp; split <;> rfl
/-- After an operation without transactions the buffers are as they were; after one with
transactions they are drawn, within their sizes. -/
theorem finishOp_tx_length (h : s.tx.length ≤ s.board.val.nmax + 3) :
    (finishOp s r c).tx.length ≤ s.board.val.nmax + 3 := by
  unfold finishOp drawnTx
  split
  · exact h
  · exact List.length_take_le _ _
theorem finishOp_rx_length (h : s.rx.length ≤ s.board.val.nmax + 1) :
    (finishOp s r c).rx.length ≤ s.board.val.nmax + 1 := by
  unfold finishOp drawnRx
  split
  · exact h
  · exact List.length_take_le _ _
/-- An operation that made no transaction writes only the context, the response and the sequencer. -/
theorem finishOp_of_no_answers (h : s.seq.answers = []) :
    finishOp s r c = { s with ctx := c, out := some r, seq := Seq.idle } := if_pos h
end FinishOp

section CreateContext
variable (k : IfKind) (s : State)
@[simp] theorem createContext_seq : (createContext k s).seq = Seq.idle := rfl
@[simp] theorem createContext_coef : (createContext k s).ctx.coef = .notLoaded := rfl
@[simp] theorem createContext_ifkind : (createContext k s).ctx.ifkind = k := rfl
@[simp] theorem createContext_created : (createContext k s).created = true := rfl
@[simp] theorem createContext_board : (createContext k s).board = s.board := rfl
@[simp] theorem createContext_host : (createContext k s).host = s.host := rfl
@[simp] theorem createContext_out : (createContext k s).out = none := rfl
@[simp] theorem createContext_sends : (createContext k s).sends = s.sends := rfl
@[simp] theorem createContext_recvs : (createContext k s).recvs = s.recvs := rfl
@[simp] theorem createContext_log : (createContext k s).log = s.log := rfl
@[simp] theorem createContext_world : (createContext k s).world = s.world := rfl
@[simp] theorem createContext_dev : (createContext k s).dev = deviceAbandoned s := rfl
end CreateContext

section DestroyContext
variable (s : State)
@[simp] theorem destroyContext_seq : (destroyContext s).seq = Seq.idle := rfl
@[simp] theorem destroyContext_created : (destroyContext s).created = false := rfl
@[simp] theorem destroyContext_board : (destroyContext s).board = s.board := rfl
@[simp] theorem destroyContext_host : (destroyContext s).host = s.host := rfl
@[simp] theorem destroyContext_out : (destroyContext s).out = none := rfl
@[simp] theorem destroyContext_sends : (destroyContext s).sends = s.sends := rfl
@[simp] theorem destroyContext_recvs : (destroyContext s).recvs = s.recvs := rfl
@[simp] theorem destroyContext_log : (destroyContext s).log = s.log := rfl
@[simp] theorem destroyContext_world : (destroyContext s).world = s.world := rfl
@[simp] theorem destroyContext_dev : (destroyContext s).dev = deviceAbandoned s := rfl
end DestroyContext

/-- An operation given up with no `Send` unanswered leaves the device as it was; with one, the device has
received any part of its frame. -/
theorem deviceAbandoned_none {s : State} (h : s.seq.pending = none) : deviceAbandoned s = s.dev := by
  simp only [deviceAbandoned, h]
theorem deviceAbandoned_some {s : State} {f : List Byte} (h : s.seq.pending = some f) :
    deviceAbandoned s = deviceLost s.board.val.codes s.dev f := by
  simp only [deviceAbandoned, h]

section PowerCycled
variable (s : State)
@[simp] theorem powerCycled_seq : (powerCycled s).seq = s.seq := rfl
@[simp] theorem powerCycled_ctx : (powerCycled s).ctx = s.ctx := rfl
@[simp] theorem powerCycled_tx : (powerCycled s).tx = s.tx := rfl
@[simp] theorem powerCycled_rx : (powerCycled s).rx = s.rx := rfl
@[simp] theorem powerCycled_board : (powerCycled s).board = s.board := rfl
@[simp] theorem powerCycled_out : (powerCycled s).out = s.out := rfl
@[simp] theorem powerCycled_log : (powerCycled s).log = s.log := rfl
@[simp] theorem powerCycled_dev : (powerCycled s).dev = devicePowerCycle s.dev := rfl
end PowerCycled

section PresentSend
variable (f : List Byte) (s : State)
@[simp] theorem presentSend_tx : (presentSend f s).tx = f := rfl
@[simp] theorem presentSend_rx : (presentSend f s).rx = s.rx := rfl
@[simp] theorem presentSend_ctx : (presentSend f s).ctx = s.ctx := rfl
@[simp] theorem presentSend_dev : (presentSend f s).dev = s.dev := rfl
@[simp] theorem presentSend_log : (presentSend f s).log = s.log := rfl
@[simp] theorem presentSend_board : (presentSend f s).board = s.board := rfl
@[simp] theorem presentSend_out : (presentSend f s).out = s.out := rfl
@[simp] theorem presentSend_op : (presentSend f s).seq.op = s.seq.op := rfl
@[simp] theorem presentSend_answers : (presentSend f s).seq.answers = s.seq.answers := rfl
@[simp] theorem presentSend_pending : (presentSend f s).seq.pending = some f := rfl
end PresentSend

section Sequencer
variable (q : Seq) (i : Instr) (f : List Byte) (a : SendAnswer) (r : RecvAnswer)
@[simp] theorem sent_op : (q.sent f a).op = q.op := rfl
@[simp] theorem sent_answers : (q.sent f a).answers = q.answers ++ [.send a] := rfl
@[simp] theorem sent_slipped : (q.sent f a).slipped = (q.slipped || !tookAll f a) := rfl
@[simp] theorem received_op : (q.received r).op = q.op := rfl
@[simp] theorem received_answers : (q.received r).answers = q.answers ++ [.recv r] := rfl
@[simp] theorem received_slipped : (q.received r).slipped = q.slipped := rfl
@[simp] theorem taken_op : (q.taken i).op = some i := rfl
@[simp] theorem taken_answers : (q.taken i).answers = q.answers := rfl
@[simp] theorem taken_slipped : (q.taken i).slipped = q.slipped := rfl
end Sequencer

end Sys2Proof.Machine
end

