-- ==== Sys2Proof/Laws/Ops.lean ====
section
/-! SUPPORT. What the shared operations can do, said once: a transaction, a run of a program, an
operation from beginning to end; and `ProgAll`, the property of a program from which a property of its
runs follows. -/

namespace Sys2Proof.Machine

/-- A `Send` is answered by the first answer to come, and then the state is this one. -/
theorem transSend_some {f : List Byte} {s t : State} {a : SendAnswer}
    (h : transSend f s = some (a, t)) :
    ∃ plan rest, s.sends = plan :: rest ∧ a = sendAnswerOf f.length plan ∧
      t = { s with
              sends := rest, tx := f, log := s.log ++ [.send f a]
              dev := sendEffect s f a
              seq := s.seq.sent f a } := by
  unfold transSend at h
  split at h
  · cases h
  · rename_i plan rest hs
    simp only [Option.some.injEq, Prod.mk.injEq] at h
    obtain ⟨rfl, rfl⟩ := h
    exact ⟨plan, rest, hs, rfl, rfl⟩

/-- A `Recv` is answered by the first answer to come, and then the state is this one. -/
theorem transRecv_some {n : Nat} {s t : State} {a : RecvAnswer}
    (h : transRecv n s = some (a, t)) :
    ∃ plan rest, s.recvs = plan :: rest ∧ a = (recvAnswerOf n s.dev.line plan).1 ∧
      t = { s with
              recvs := rest, rx := rxAfter s a, log := s.log ++ [.recv n a]
              dev := { s.dev with line := (recvAnswerOf n s.dev.line plan).2 }
              seq := s.seq.received a } := by
  unfold transRecv at h
  split at h
  · cases h
  · rename_i plan rest hs
    simp only [Option.some.injEq, Prod.mk.injEq] at h
    obtain ⟨rfl, rfl⟩ := h
    exact ⟨plan, rest, hs, rfl, rfl⟩

@[simp] theorem transSend_nil {f : List Byte} {s : State} (h : s.sends = []) : transSend f s = none := by
  simp only [transSend, h]

@[simp] theorem transRecv_nil {n : Nat} {s : State} (h : s.recvs = []) : transRecv n s = none := by
  simp only [transRecv, h]

theorem transSend_cons {f : List Byte} {s : State} {plan : SendAnswer} {rest : List SendAnswer}
    (h : s.sends = plan :: rest) :
    transSend f s = some (sendAnswerOf f.length plan,
      { s with
        sends := rest, tx := f, log := s.log ++ [sendEvent f plan]
        dev := sendEffect s f (sendAnswerOf f.length plan)
        seq := s.seq.sent f (sendAnswerOf f.length plan) }) := by
  simp only [transSend, h, sendEvent]

theorem transRecv_cons {n : Nat} {s : State} {plan : RecvPlan} {rest : List RecvPlan}
    (h : s.recvs = plan :: rest) :
    transRecv n s = some ((recvAnswerOf n s.dev.line plan).1,
      { s with
        recvs := rest, rx := rxAfter s (recvAnswerOf n s.dev.line plan).1
        log := s.log ++ [.recv n (recvAnswerOf n s.dev.line plan).1]
        dev := { s.dev with line := (recvAnswerOf n s.dev.line plan).2 }
        seq := s.seq.received (recvAnswerOf n s.dev.line plan).1 }) := by
  simp only [transRecv, h]

/-- The parts of the state no transaction touches. -/
structure RunKeeps (s t : State) : Prop where
  ctx : t.ctx = s.ctx
  created : t.created = s.created
  board : t.board = s.board
  host : t.host = s.host
  out : t.out = s.out
  world : t.world = s.world
  draws : t.draws = s.draws
  op : t.seq.op = s.seq.op

theorem RunKeeps.refl (s : State) : RunKeeps s s := ⟨rfl, rfl, rfl, rfl, rfl, rfl, rfl, rfl⟩

theorem RunKeeps.trans {s t u : State} (h : RunKeeps s t) (h' : RunKeeps t u) : RunKeeps s u :=
  ⟨h'.ctx.trans h.ctx, h'.created.trans h.created, h'.board.trans h.board, h'.host.trans h.host,
    h'.out.trans h.out, h'.world.trans h.world, h'.draws.trans h.draws, h'.op.trans h.op⟩

theorem transSend_keeps {f : List Byte} {s t : State} {a : SendAnswer}
    (h : transSend f s = some (a, t)) : RunKeeps s t := by
  obtain ⟨_, _, _, _, rfl⟩ := transSend_some h
  exact ⟨rfl, rfl, rfl, rfl, rfl, rfl, rfl, rfl⟩

theorem transRecv_keeps {n : Nat} {s t : State} {a : RecvAnswer}
    (h : transRecv n s = some (a, t)) : RunKeeps s t := by
  obtain ⟨_, _, _, _, rfl⟩ := transRecv_some h
  exact ⟨rfl, rfl, rfl, rfl, rfl, rfl, rfl, rfl⟩

/-- A run touches none of them. -/
theorem runProg_keeps {α : Type} (p : Prog α) (s : State) : RunKeeps s (runProg p s).2 := by
  induction p generalizing s with
  | ret a => exact .refl s
  | raise st => exact .refl s
  | send f k ih =>
    simp only [runProg]
    split
    · exact ⟨rfl, rfl, rfl, rfl, rfl, rfl, rfl, rfl⟩
    · rename_i a t h
      exact (transSend_keeps h).trans (ih a t)
  | recv n k ih =>
    simp only [runProg]
    split
    · exact .refl s
    · rename_i a t h
      exact (transRecv_keeps h).trans (ih a t)

/-! ### Properties of programs -/

/-- Every value, status, frame and byte count a program can come to has these properties, whatever the
transport answers. -/
def ProgAll {α : Type} (pv : α → Prop) (ps : Status → Prop) (pf : List Byte → Prop) (pn : Nat → Prop) :
    Prog α → Prop
  | .ret a => pv a
  | .raise st => ps st
  | .send f k => pf f ∧ ∀ a, ProgAll pv ps pf pn (k a)
  | .recv n k => pn n ∧ ∀ a, ProgAll pv ps pf pn (k a)

/-- How a run can end: with a value or a status of the program's, or waiting. -/
def EndAll {α : Type} (pv : α → Prop) (ps : Status → Prop) : RunEnd α → Prop
  | .done a => pv a
  | .raised st => ps st
  | .waiting => True

theorem recvAnswerOf_le (n : Nat) (line : List Byte) (plan : RecvPlan) :
    ∀ bs, (recvAnswerOf n line plan).1 = .got bs → bs.length ≤ n := by
  intro bs h
  cases plan <;> simp only [recvAnswerOf, RecvAnswer.got.injEq] at h
  · subst h; exact List.length_take_le _ _
  · subst h; exact List.length_take_le _ _
  · cases h

/-- A property of the state that every transaction of the program keeps holds after its run, and the run
ends as the program can. -/
theorem runProg_all {α : Type} {pv : α → Prop} {ps : Status → Prop} {pf : List Byte → Prop}
    {pn : Nat → Prop} {I : State → Prop}
    (hwait : ∀ f s, pf f → I s → I (presentSend f s))
    (hsend : ∀ f s a t, pf f → I s → transSend f s = some (a, t) → I t)
    (hrecv : ∀ n s a t, pn n → I s → transRecv n s = some (a, t) → I t)
    (p : Prog α) (hp : ProgAll pv ps pf pn p) (s : State) (hs : I s) :
    EndAll pv ps (runProg p s).1 ∧ I (runProg p s).2 := by
  induction p generalizing s with
  | ret a => exact ⟨hp, hs⟩
  | raise st => exact ⟨hp, hs⟩
  | send f k ih =>
    simp only [runProg]
    split
    · exact ⟨trivial, hwait f s hp.1 hs⟩
    · rename_i a t h
      exact ih a (hp.2 a) t (hsend f s a t hp.1 hs h)
  | recv n k ih =>
    simp only [runProg]
    split
    · exact ⟨trivial, hs⟩
    · rename_i a t h
      exact ih a (hp.2 a) t (hrecv n s a t hp.1 hs h)

/-- What is left of a program after any answers has the program's properties. -/
theorem progAfter_all {α : Type} {pv : α → Prop} {ps : Status → Prop} {pf : List Byte → Prop}
    {pn : Nat → Prop} (h : List Answer) (p : Prog α) (hp : ProgAll pv ps pf pn p) :
    ProgAll pv ps pf pn (progAfter p h) := by
  induction h generalizing p with
  | nil => cases p <;> exact hp
  | cons x h ih =>
    cases p with
    | ret a => cases x <;> exact hp
    | raise st => cases x <;> exact hp
    | send f k =>
      cases x with
      | send a => exact ih (k a) (hp.2 a)
      | recv a => exact hp
    | recv n k =>
      cases x with
      | send a => exact hp
      | recv a => exact ih (k a) (hp.2 a)

/-- An operation from its beginning to the point where it ended or waits: it ended with `OK`, with a
status it raised and the context as it was, or it waits for the transport. -/
theorem perform_cases (i : Instr) (p : Prog (Result × Ctx)) (s : State) :
    ∃ e u, runProg (progAfter p s.seq.answers) { s with out := none, seq := s.seq.taken i } = (e, u) ∧
      RunKeeps { s with out := none, seq := s.seq.taken i } u ∧
      ((∃ r c, e = .done (r, c) ∧ perform i p s = finishOp u ⟨.ok, r⟩ c) ∨
       (∃ st, e = .raised st ∧ perform i p s = finishOp u ⟨st, .none⟩ s.ctx) ∨
       (e = .waiting ∧ perform i p s = u ∧ u.out = none ∧ u.seq.op = some i)) := by
  have hk := runProg_keeps (progAfter p s.seq.answers)
    { s with out := none, seq := s.seq.taken i }
  unfold perform
  generalize hr : runProg (progAfter p s.seq.answers)
    { s with out := none, seq := s.seq.taken i } = x at hk
  obtain ⟨e, u⟩ := x
  refine ⟨e, u, rfl, hk, ?_⟩
  cases e with
  | done rc => exact .inl ⟨rc.1, rc.2, rfl, rfl⟩
  | raised st => exact .inr (.inl ⟨st, rfl, congrArg (finishOp u ⟨st, .none⟩) hk.ctx⟩)
  | waiting => exact .inr (.inr ⟨rfl, rfl, hk.out, hk.op⟩)

/-- What no operation writes. -/
theorem perform_portsKept (i : Instr) (p : Prog (Result × Ctx)) (s : State) :
    PortsKept s (perform i p s) := by
  obtain ⟨e, u, _, hk, h⟩ := perform_cases i p s
  rcases h with ⟨r, c, _, h⟩ | ⟨st, _, h⟩ | ⟨_, h, _⟩ <;> rw [h]
  · exact ⟨by simpa using hk.board, by simpa using hk.created, by simpa using hk.host,
      by simpa using hk.world⟩
  · exact ⟨by simpa using hk.board, by simpa using hk.created, by simpa using hk.host,
      by simpa using hk.world⟩
  · exact ⟨hk.board, hk.created, hk.host, hk.world⟩

/-- An operation that makes no transaction and returns ends at once, and writes nothing but what it
returns. -/
theorem perform_ret (i : Instr) (r : Result) (c : Ctx) (s : State) (h : Idle s) :
    perform i (.ret (r, c)) s = { s with ctx := c, out := some ⟨.ok, r⟩ } := by
  obtain ⟨⟨op, answers, slipped, pending⟩, _⟩ := s
  cases h
  rfl

/-- An operation that raises before any transaction ends at once, and writes nothing. -/
theorem perform_raise (i : Instr) (st : Status) (s : State) (h : Idle s) :
    perform i (.raise st) s = { s with out := some ⟨st, .none⟩ } := by
  obtain ⟨⟨op, answers, slipped, pending⟩, _⟩ := s
  cases h
  rfl

/-! ### The shared programs -/

@[simp] theorem withinBuffer_of_le {α : Type} {b : Board} {n : Nat} {k : Prog α} (h : n ≤ b.nmax) :
    withinBuffer b n k = k := if_neg (by omega)

@[simp] theorem withinBuffer_of_gt {α : Type} {b : Board} {n : Nat} {k : Prog α} (h : b.nmax < n) :
    withinBuffer b n k = .raise .bufferTooSmall := if_pos h

@[simp] theorem orInvalid_some {α β : Type} (a : α) (k : α → Prog β) : orInvalid (some a) k = k a := rfl

@[simp] theorem orInvalid_none {α β : Type} (k : α → Prog β) : orInvalid none k = .raise .invalidParam := rfl

theorem length_readFrame (a : Byte) : (readFrame a).length = 2 := rfl

theorem length_cmdFrame (c k : Byte) : (cmdFrame c k).length = 4 := rfl

theorem length_writeFrame (a : Byte) (p : List Byte) : (writeFrame a p).length = p.length + 3 := by
  simp [writeFrame]

/-- What every program of the machine sends, where the longest payload has `n` bytes. -/
def frameOk (n : Nat) (f : List Byte) : Prop := f.head? = some hdrByte ∧ 2 ≤ f.length ∧ f.length ≤ n + 3

/-- The byte counts every program of the machine asks for. -/
def countOk (n m : Nat) : Prop := 1 ≤ m ∧ m ≤ n + 1

/-- Every configuration's buffers hold 4 bytes of payload (R7). -/
theorem four_le_nmax (b : Board) : 4 ≤ b.nmax := Nat.le_add_left _ _

section ProgAll
variable {α : Type} {b : Board} {pv : α → Prop} {ps : Status → Prop}

theorem progAll_sendFrame {n : Nat} {f : List Byte} {k : Status → Prog α} (hf : frameOk n f)
    (h1 : ProgAll pv ps (frameOk n) (countOk n) (k .ok)) (h2 : ProgAll pv ps (frameOk n) (countOk n) (k .ioError)) :
    ProgAll pv ps (frameOk n) (countOk n) (sendFrame f k) := by
  refine ⟨hf, fun a => ?_⟩
  simp only [sendStatus]
  split
  · exact h1
  · exact h2

theorem frameOk_readFrame (a : Byte) : frameOk b.nmax (readFrame a) := by
  refine ⟨rfl, ?_, ?_⟩ <;> simp [readFrame]

theorem frameOk_cmdFrame (c k : Byte) : frameOk b.nmax (cmdFrame c k) := by
  have := four_le_nmax b
  refine ⟨rfl, ?_, ?_⟩
  · simp [cmdFrame]
  · simp only [cmdFrame, List.length_cons, List.length_nil]; omega

theorem frameOk_writeFrame (a : Byte) (p : List Byte) (h : p.length ≤ b.nmax) :
    frameOk b.nmax (writeFrame a p) := by
  refine ⟨rfl, ?_, ?_⟩ <;> rw [length_writeFrame] <;> omega

/-- A register read comes to its continuation with a payload of the width, or to one of its four
statuses. -/
theorem progAll_rdReg {addr : Byte} {w : Nat} {k : List Byte → Prog α}
    (hb : b.nmax < w → ps .bufferTooSmall) (hi : ps .ioError) (hm : ps .ioMissingBytes)
    (hc : ps .checksumMismatch)
    (hk : ∀ p : List Byte, p.length = w → w ≤ b.nmax → ProgAll pv ps (frameOk b.nmax) (countOk b.nmax) (k p)) :
    ProgAll pv ps (frameOk b.nmax) (countOk b.nmax) (progRdReg b addr w k) := by
  unfold progRdReg
  by_cases hw : b.nmax < w
  · rw [withinBuffer_of_gt hw]; exact hb hw
  · rw [withinBuffer_of_le (by omega)]
    refine progAll_sendFrame (frameOk_readFrame addr) ?_ ?_
    · rw [if_pos rfl]
      refine ⟨⟨by omega, by omega⟩, fun a => ?_⟩
      cases a with
      | fail => exact hi
      | got b =>
        simp only [checkResponse]
        split_ifs with h1 h2
        · exact hm
        · exact hk _ (by simp; omega) (by omega)
        · exact hc
    · rw [if_neg (by decide)]; exact hi

/-- A register write comes to its continuation, or to one of its two statuses. -/
theorem progAll_wrReg {addr : Byte} {p : List Byte} {k : Prog α}
    (hb : b.nmax < p.length → ps .bufferTooSmall) (hi : ps .ioError)
    (hk : ProgAll pv ps (frameOk b.nmax) (countOk b.nmax) k) :
    ProgAll pv ps (frameOk b.nmax) (countOk b.nmax) (progWrReg b addr p k) := by
  unfold progWrReg
  by_cases hw : b.nmax < p.length
  · rw [withinBuffer_of_gt hw]; exact hb hw
  · rw [withinBuffer_of_le (by omega)]
    have hd := frameOk_writeFrame (b := b) (writeAddr addr) p (by omega)
    have hrest : ∀ s1 : Status, ProgAll pv ps (frameOk b.nmax) (countOk b.nmax)
        (sendFrame (writeFrame (writeAddr addr) p) fun s2 =>
          sendFrame (cmdFrame ctrlAddr b.codes.wrdis) fun s3 =>
            if s1 ≠ .ok then .raise .ioError
            else if s2 ≠ .ok then .raise .ioError
            else if s3 ≠ .ok then .raise .ioError
            else k) := by
      intro s1
      refine progAll_sendFrame hd ?_ ?_ <;> refine progAll_sendFrame (frameOk_cmdFrame _ _) ?_ ?_ <;>
        split_ifs <;> first | exact hi | exact hk
    refine progAll_sendFrame (frameOk_cmdFrame _ _) ?_ ?_
    · rw [if_neg (by simp)]; exact hrest .ok
    · by_cases hc : b.wrContinue = false
      · rw [if_pos ⟨by decide, hc⟩]; exact hi
      · rw [if_neg (fun h => hc h.2)]; exact hrest .ioError

/-- A command comes to its continuation or to `IO_ERROR`. -/
theorem progAll_sendCmd {c code : Byte} {k : Prog α} (hi : ps .ioError)
    (hk : ProgAll pv ps (frameOk b.nmax) (countOk b.nmax) k) : ProgAll pv ps (frameOk b.nmax) (countOk b.nmax) (progSendCmd c code k) := by
  refine progAll_sendFrame (frameOk_cmdFrame c code) ?_ ?_
  · rw [if_pos rfl]; exact hk
  · rw [if_neg (by decide)]; exact hi

end ProgAll

end Sys2Proof.Machine
end

