-- ==== Sys2Proof/Laws/PerInstr.lean ====
section
/-! SUPPORT. One lemma per constructor: the first byte of an instruction's encoding is the one its row
of the table fixes. -/

namespace Sys2Proof.Laws.FirstByte

open Sys2Proof

/-- The byte a row fixes: the header of a frame to the device (R55), the number of an operation (R64);
a response has none (R59). -/
def tableByte : Instr → Option Byte
  | .rq _ | .wf _ _ _ | .cf _ _ | .wren | .wrdis | .selA | .selB | .devreset => some 0xA5
  | .rs _ _ => none
  | .cksum _ _ _ => some 0x00
  | .encRead _ => some 0x01
  | .encWrite _ _ => some 0x02
  | .encCmd _ _ => some 0x03
  | .validate _ _ _ _ => some 0x04
  | .rdReg _ _ => some 0x10
  | .wrReg _ _ => some 0x11
  | .sendCmd _ _ => some 0x12
  | .reset => some 0x13
  | .selCh _ => some 0x14
  | .setRatio _ _ _ => some 0x20
  | .getRatio => some 0x21
  | .getPga _ => some 0x22
  | .getSel => some 0x23
  | .setPga _ _ => some 0x24
  | .rmwField _ _ _ => some 0x25
  | .loadCoef => some 0x26
  | .applyCal _ => some 0x27
  | .decU _ => some 0x30
  | .decS _ => some 0x31
  | .rdiv _ _ => some 0x32
  | .convRms _ => some 0x33
  | .convPower _ => some 0x34
  | .convEnergy _ => some 0x35
  | .convFreq => some 0x36
  | .convPf => some 0x37
  | .convPhase => some 0x38

/-- The encoding starts with the byte the table fixes. -/
def Statement (i : Instr) : Prop :=
  ∀ c : Codes, ∀ b : Byte, tableByte i = some b → (encode c i).head? = some b

theorem rq (addr : Byte) : Statement (.rq addr) := fun _ _ h => h
theorem wf (waddr : Byte) (payload : List Byte) (cks : Byte) : Statement (.wf waddr payload cks) := fun _ _ h => h
theorem cf (code cks : Byte) : Statement (.cf code cks) := fun _ _ h => h
theorem rs (payload : List Byte) (cks : Byte) : Statement (.rs payload cks) := fun _ _ h => nomatch h
theorem wren : Statement .wren := fun _ _ h => h
theorem wrdis : Statement .wrdis := fun _ _ h => h
theorem selA : Statement .selA := fun _ _ h => h
theorem selB : Statement .selB := fun _ _ h => h
theorem devreset : Statement .devreset := fun _ _ h => h
theorem cksum (hdr addr : Byte) (payload : List Byte) : Statement (.cksum hdr addr payload) := fun _ _ h => h
theorem encRead (addr : Byte) : Statement (.encRead addr) := fun _ _ h => h
theorem encWrite (waddr : Byte) (payload : List Byte) : Statement (.encWrite waddr payload) := fun _ _ h => h
theorem encCmd (caddr code : Byte) : Statement (.encCmd caddr code) := fun _ _ h => h
theorem validate (hdr addr : Byte) (payload : List Byte) (rxck : Byte) : Statement (.validate hdr addr payload rxck) := fun _ _ h => h
theorem rdReg (addr : Byte) (w : Nat) : Statement (.rdReg addr w) := fun _ _ h => h
theorem wrReg (addr : Byte) (payload : List Byte) : Statement (.wrReg addr payload) := fun _ _ h => h
theorem sendCmd (caddr code : Byte) : Statement (.sendCmd caddr code) := fun _ _ h => h
theorem reset : Statement .reset := fun _ _ h => h
theorem selCh (ch : BitVec 2) : Statement (.selCh ch) := fun _ _ h => h
theorem setRatio (k1A k1B k2 : RawRatio) : Statement (.setRatio k1A k1B k2) := fun _ _ h => h
theorem getRatio : Statement .getRatio := fun _ _ h => h
theorem getPga (ch : BitVec 2) : Statement (.getPga ch) := fun _ _ h => h
theorem getSel : Statement .getSel := fun _ _ h => h
theorem setPga (ch : BitVec 2) (g : Nat) : Statement (.setPga ch g) := fun _ _ h => h
theorem rmwField (reg : RegId) (mask value : RegVal) : Statement (.rmwField reg mask value) := fun _ _ h => h
theorem loadCoef : Statement .loadCoef := fun _ _ h => h
theorem applyCal (rec : CalRec) : Statement (.applyCal rec) := fun _ _ h => h
theorem decU (payload : List Byte) : Statement (.decU payload) := fun _ _ h => h
theorem decS (payload : List Byte) : Statement (.decS payload) := fun _ _ h => h
theorem rdiv (num den : Int) : Statement (.rdiv num den) := fun _ _ h => h
theorem convRms (ch : BitVec 2) : Statement (.convRms ch) := fun _ _ h => h
theorem convPower (ch : BitVec 2) : Statement (.convPower ch) := fun _ _ h => h
theorem convEnergy (ch : BitVec 2) : Statement (.convEnergy ch) := fun _ _ h => h
theorem convFreq : Statement .convFreq := fun _ _ h => h
theorem convPf : Statement .convPf := fun _ _ h => h
theorem convPhase : Statement .convPhase := fun _ _ h => h

end Sys2Proof.Laws.FirstByte
end

