-- ==== Sys2Proof/Laws/Runs.lean ====
section
/-! SUPPORT. What a run of the named register accesses comes to under each answer of the transport: a
read that succeeds, a read answered with a wrong checksum, a write bracket, a command. -/

namespace Sys2Proof.Machine

theorem takes_iff (f : List Byte) (a : SendAnswer) : Takes f a ↔ ∃ n, a = .sent n ∧ f.length ≤ n := by
  cases a <;> simp [Takes, tookAll, sendAnswerOf]

theorem sendAnswerOf_of_takes {f : List Byte} {a : SendAnswer} (h : Takes f a) :
    sendAnswerOf f.length a = .sent f.length := by
  obtain ⟨n, rfl, hn⟩ := (takes_iff f a).1 h
  simp [sendAnswerOf, hn]

theorem sendStatus_of_takes {f : List Byte} {a : SendAnswer} (h : Takes f a) :
    sendStatus f (sendAnswerOf f.length a) = .ok := by
  unfold Takes at h
  simp [sendStatus, h]

theorem sendStatus_of_not_takes {f : List Byte} {a : SendAnswer} (h : ¬ Takes f a) :
    sendStatus f (sendAnswerOf f.length a) = .ioError := by
  unfold Takes at h
  simp [sendStatus, h]

/-- An operation other than `WR_REG` sends no data frame to the control address by itself: each of its frames
has the effect of a frame alone, and after one that was not taken whole any part of the next may be lost. -/
theorem sendEffect_of_not_wrReg {s : State} {f : List Byte} {a : SendAnswer}
    (h : ∀ addr p, s.seq.op ≠ some (.wrReg addr p)) :
    sendEffect s f a = if s.seq.slipped then deviceLost s.board.val.codes s.dev f
      else deviceAfterSend s.board.val s.dev f a := by
  have hc : isControlData s.seq = false := by
    unfold isControlData
    split
    · rename_i hop
      exact absurd hop (h _ _)
    · rfl
  simp only [sendEffect, hc, Bool.false_and, Bool.false_eq_true, if_false]

/-- Nor does a `WR_REG` to another address. -/
theorem sendEffect_of_ne {s : State} {f : List Byte} {a : SendAnswer} {addr : Byte} {p : List Byte}
    (h : s.seq.op = some (.wrReg addr p)) (hne : writeAddr addr ≠ ctrlAddr) :
    sendEffect s f a = if s.seq.slipped then deviceLost s.board.val.codes s.dev f
      else deviceAfterSend s.board.val s.dev f a := by
  simp only [sendEffect, isControlData, h, beq_false_of_ne hne, Bool.false_and, Bool.false_eq_true, if_false]

/-- The state after a read request taken whole and a receive of `b`. -/
def afterRead (s : State) (addr : Byte) (n : Nat) (b : List Byte) : State :=
  { s with
    sends := s.sends.tail
    recvs := s.recvs.tail
    tx := readFrame addr
    rx := b
    log := s.log ++ [.send (readFrame addr) (.sent 2), .recv n (.got b)]
    dev := sendEffect s (readFrame addr) (.sent 2)
    seq := (s.seq.sent (readFrame addr) (.sent 2)).received (.got b) }

/-- A read whose request is taken whole and whose response of the right length has checksum `ck`. -/
theorem runProg_rdReg {α : Type} {b : Board} {s : State} {addr ck : Byte} {w : Nat} {p : List Byte} {a : SendAnswer}
    {sends : List SendAnswer} {recvs : List RecvPlan} (k : List Byte → Prog α) (hp : p.length = w)
    (hw : w ≤ b.nmax) (hs : s.sends = a :: sends) (ha : Takes (readFrame addr) a)
    (hr : s.recvs = .bytes (p ++ [ck]) :: recvs) :
    runProg (progRdReg b addr w k) s =
      runProg (if cksumByte hdrByte addr p = ck then k p else .raise .checksumMismatch)
        (afterRead s addr (w + 1) (p ++ [ck])) := by
  subst hp
  have h1 : sendStatus (readFrame addr) (.sent (readFrame addr).length) = .ok := by
    simp [sendStatus, tookAll]
  have h2 : (p ++ [ck]).take (p.length + 1) = p ++ [ck] := List.take_of_length_le (by simp)
  simp only [progRdReg, withinBuffer_of_le hw, sendFrame, runProg, transSend_cons hs,
    sendAnswerOf_of_takes ha, h1, if_true]
  have h3 : sendAnswerOf 2 a = .sent 2 := sendAnswerOf_of_takes ha
  simp only [transRecv, hr, recvAnswerOf, h2, checkResponse, List.length_append, List.length_cons,
    List.length_nil, Nat.zero_add, lt_irrefl, if_false]
  simp [afterRead, hs, hr, rxAfter, sendEvent, h3, readFrame, cksumMatches]

/-- A read that succeeds. -/
theorem runProg_rdReg_good {α : Type} {b : Board} {s : State} {addr : Byte} {w : Nat} {p : List Byte} {a : SendAnswer}
    {sends : List SendAnswer} {recvs : List RecvPlan} (k : List Byte → Prog α) (hp : p.length = w)
    (hw : w ≤ b.nmax) (hs : s.sends = a :: sends) (ha : Takes (readFrame addr) a)
    (hr : s.recvs = .bytes (goodResponse addr p) :: recvs) :
    runProg (progRdReg b addr w k) s = runProg (k p) (afterRead s addr (w + 1) (goodResponse addr p)) := by
  rw [runProg_rdReg k hp hw hs ha hr, if_pos rfl]
  rfl

/-- The state after one answered `Send`. -/
def afterSend (s : State) (f : List Byte) (a : SendAnswer) : State :=
  { s with
    sends := s.sends.tail
    tx := f
    log := s.log ++ [sendEvent f a]
    dev := sendEffect s f (sendAnswerOf f.length a)
    seq := s.seq.sent f (sendAnswerOf f.length a) }

theorem runProg_sendFrame {α : Type} {s : State} {f : List Byte} {a : SendAnswer} {sends : List SendAnswer}
    (k : Status → Prog α) (hs : s.sends = a :: sends) :
    runProg (sendFrame f k) s =
      runProg (k (sendStatus f (sendAnswerOf f.length a))) (afterSend s f a) := by
  simp only [sendFrame, runProg, transSend_cons hs, afterSend, hs, List.tail_cons]

section AfterSend
variable (s : State) (f : List Byte) (a : SendAnswer)
@[simp] theorem afterSend_ctx : (afterSend s f a).ctx = s.ctx := rfl
@[simp] theorem afterSend_sends : (afterSend s f a).sends = s.sends.tail := rfl
@[simp] theorem afterSend_recvs : (afterSend s f a).recvs = s.recvs := rfl
@[simp] theorem afterSend_board : (afterSend s f a).board = s.board := rfl
@[simp] theorem afterSend_created : (afterSend s f a).created = s.created := rfl
@[simp] theorem afterSend_host : (afterSend s f a).host = s.host := rfl
@[simp] theorem afterSend_world : (afterSend s f a).world = s.world := rfl
@[simp] theorem afterSend_draws : (afterSend s f a).draws = s.draws := rfl
@[simp] theorem afterSend_out : (afterSend s f a).out = s.out := rfl
@[simp] theorem afterSend_seq : (afterSend s f a).seq = s.seq.sent f (sendAnswerOf f.length a) := rfl
@[simp] theorem afterSend_dev : (afterSend s f a).dev = sendEffect s f (sendAnswerOf f.length a) := rfl
@[simp] theorem afterSend_log : (afterSend s f a).log = s.log ++ [sendEvent f a] := rfl
end AfterSend

section AfterRead
variable (s : State) (addr : Byte) (n : Nat) (b : List Byte)
@[simp] theorem afterRead_ctx : (afterRead s addr n b).ctx = s.ctx := rfl
@[simp] theorem afterRead_sends : (afterRead s addr n b).sends = s.sends.tail := rfl
@[simp] theorem afterRead_recvs : (afterRead s addr n b).recvs = s.recvs.tail := rfl
@[simp] theorem afterRead_board : (afterRead s addr n b).board = s.board := rfl
@[simp] theorem afterRead_created : (afterRead s addr n b).created = s.created := rfl
@[simp] theorem afterRead_host : (afterRead s addr n b).host = s.host := rfl
@[simp] theorem afterRead_world : (afterRead s addr n b).world = s.world := rfl
@[simp] theorem afterRead_draws : (afterRead s addr n b).draws = s.draws := rfl
@[simp] theorem afterRead_out : (afterRead s addr n b).out = s.out := rfl
@[simp] theorem afterRead_seq :
    (afterRead s addr n b).seq = (s.seq.sent (readFrame addr) (.sent 2)).received (.got b) := rfl
@[simp] theorem afterRead_dev : (afterRead s addr n b).dev = sendEffect s (readFrame addr) (.sent 2) := rfl
@[simp] theorem afterRead_log : (afterRead s addr n b).log =
    s.log ++ [.send (readFrame addr) (.sent 2), .recv n (.got b)] := rfl
end AfterRead

/-- A write bracket whose three sends are answered: it goes on exactly when all three frames were taken
whole, or ends with `IO_ERROR`; after a lost enable frame it is gone through only where the parameter
says so. -/
theorem runProg_wrReg {α : Type} {s : State} {b : Board} {addr : Byte} {p : List Byte}
    {a1 a2 a3 : SendAnswer} {sends : List SendAnswer} (k : Prog α) (hp : p.length ≤ b.nmax)
    (hs : s.sends = a1 :: a2 :: a3 :: sends)
    (h1 : Takes (cmdFrame ctrlAddr b.codes.wren) a1 ∨ b.wrContinue = true) :
    ∃ q : Prog α, runProg (progWrReg b addr p k) s =
        runProg q (afterSend (afterSend (afterSend s (cmdFrame ctrlAddr b.codes.wren) a1)
          (writeFrame (writeAddr addr) p) a2) (cmdFrame ctrlAddr b.codes.wrdis) a3) ∧
      (Takes (cmdFrame ctrlAddr b.codes.wren) a1 ∧ Takes (writeFrame (writeAddr addr) p) a2 ∧
        Takes (cmdFrame ctrlAddr b.codes.wrdis) a3 → q = k) ∧
      (¬ (Takes (cmdFrame ctrlAddr b.codes.wren) a1 ∧ Takes (writeFrame (writeAddr addr) p) a2 ∧
        Takes (cmdFrame ctrlAddr b.codes.wrdis) a3) → q = .raise .ioError) := by
  simp only [progWrReg, withinBuffer_of_le hp]
  rw [runProg_sendFrame _ hs]
  have hc : ¬ (sendStatus (cmdFrame ctrlAddr b.codes.wren)
      (sendAnswerOf (cmdFrame ctrlAddr b.codes.wren).length a1) ≠ .ok ∧ b.wrContinue = false) := by
    rintro ⟨h, h'⟩
    rcases h1 with h1 | h1
    · exact h (sendStatus_of_takes h1)
    · simp [h1] at h'
  rw [if_neg hc, runProg_sendFrame (a := a2) (sends := a3 :: sends) _ (by simp [hs]),
    runProg_sendFrame (a := a3) (sends := sends) _ (by simp [hs])]
  refine ⟨_, rfl, fun h => ?_, fun h => ?_⟩
  · simp only [sendStatus_of_takes h.1, sendStatus_of_takes h.2.1, sendStatus_of_takes h.2.2]
    simp
  · have e : ∀ {f : List Byte} {a : SendAnswer}, sendStatus f (sendAnswerOf f.length a) = .ok → Takes f a :=
      fun {f a} hok => by_contra fun hn => by simp [sendStatus_of_not_takes hn] at hok
    split_ifs with g1 g2 g3
    · rfl
    · rfl
    · rfl
    · exact absurd ⟨e (not_not.1 g1), e (not_not.1 g2), e (not_not.1 g3)⟩ h

/-- The state an idle block runs an operation's program from. -/
def begun (i : Instr) (s : State) : State := { s with out := none, seq := ⟨some i, [], false, none⟩ }

section Begun
variable (i : Instr) (s : State)
@[simp] theorem begun_ctx : (begun i s).ctx = s.ctx := rfl
@[simp] theorem begun_sends : (begun i s).sends = s.sends := rfl
@[simp] theorem begun_recvs : (begun i s).recvs = s.recvs := rfl
@[simp] theorem begun_board : (begun i s).board = s.board := rfl
@[simp] theorem begun_seq : (begun i s).seq = ⟨some i, [], false, none⟩ := rfl
@[simp] theorem begun_log : (begun i s).log = s.log := rfl
@[simp] theorem begun_dev : (begun i s).dev = s.dev := rfl
@[simp] theorem begun_draws : (begun i s).draws = s.draws := rfl
end Begun

/-- An operation of an idle block whose program runs to a value. -/
theorem perform_done {i : Instr} {p : Prog (Result × Ctx)} {s u : State} {r : Result} {c : Ctx}
    (hi : Idle s) (h : runProg p (begun i s) = (.done (r, c), u)) :
    perform i p s = finishOp u ⟨.ok, r⟩ c ∧ EndedWith s (perform i p s) ⟨.ok, r⟩ := by
  have e : perform i p s = finishOp u ⟨.ok, r⟩ c := by
    unfold Idle at hi
    simp only [perform, hi, Seq.idle, progAfter]
    change (match runProg p (begun i s) with
      | (.done (r, c), t) => finishOp t ⟨.ok, r⟩ c
      | (.raised st, t) => finishOp t ⟨st, .none⟩ t.ctx
      | (.waiting, t) => t) = _
    rw [h]
  have k := runProg_keeps p (begun i s)
  rw [h] at k
  refine ⟨e, ?_⟩
  rw [e]
  exact ⟨finishOp_out _ _ _, finishOp_seq _ _ _, (finishOp_board _ _ _).trans k.board,
    (finishOp_created _ _ _).trans k.created, (finishOp_host _ _ _).trans k.host,
    (finishOp_world _ _ _).trans k.world⟩

/-- An operation of an idle block whose program runs to a status. -/
theorem perform_raised {i : Instr} {p : Prog (Result × Ctx)} {s u : State} {st : Status}
    (hi : Idle s) (h : runProg p (begun i s) = (.raised st, u)) :
    perform i p s = finishOp u ⟨st, .none⟩ s.ctx ∧ EndedWith s (perform i p s) ⟨st, .none⟩ := by
  have k := runProg_keeps p (begun i s)
  rw [h] at k
  have e : perform i p s = finishOp u ⟨st, .none⟩ s.ctx := by
    unfold Idle at hi
    simp only [perform, hi, Seq.idle, progAfter]
    change (match runProg p (begun i s) with
      | (.done (r, c), t) => finishOp t ⟨.ok, r⟩ c
      | (.raised st, t) => finishOp t ⟨st, .none⟩ t.ctx
      | (.waiting, t) => t) = _
    rw [h]
    exact congrArg (finishOp u ⟨st, .none⟩) k.ctx
  refine ⟨e, ?_⟩
  rw [e]
  exact ⟨finishOp_out _ _ _, finishOp_seq _ _ _, (finishOp_board _ _ _).trans k.board,
    (finishOp_created _ _ _).trans k.created, (finishOp_host _ _ _).trans k.host,
    (finishOp_world _ _ _).trans k.world⟩

/-! ### The device after an operation's transactions -/

@[simp] theorem deviceAfterFrom_nil (b : Board) (x : Bool) (d : Device) : deviceAfterFrom b x d [] = d := rfl

@[simp] theorem deviceAfterFrom_recv (b : Board) (x : Bool) (d : Device) (n : Nat) (a : RecvAnswer)
    (es : List Event) : deviceAfterFrom b x d (.recv n a :: es) = deviceAfterFrom b x d es := rfl

@[simp] theorem deviceAfterFrom_send (b : Board) (x : Bool) (d : Device) (f : List Byte) (a : SendAnswer)
    (es : List Event) :
    deviceAfterFrom b x d (.send f a :: es) =
      deviceAfterFrom b (x || !tookAll f a)
        (if x then deviceLost b.codes d f else deviceAfterSend b d f a) es := rfl

/-- While every frame is taken whole, the device after two runs of events is the device after their
concatenation. -/
theorem deviceAfterFrom_append_of_whole (b : Board) (d : Device) (es es' : List Event)
    (h : ∀ f a, Event.send f a ∈ es → tookAll f a = true) :
    deviceAfterFrom b false d (es ++ es') = deviceAfterFrom b false (deviceAfterFrom b false d es) es' := by
  induction es generalizing d with
  | nil => rfl
  | cons e es ih =>
    cases e with
    | recv n a => exact ih d fun f x hm => h f x (List.mem_cons_of_mem _ hm)
    | send f a =>
      have ht : tookAll f a = true := h f a List.mem_cons_self
      simp only [List.cons_append, deviceAfterFrom_send, ht, Bool.not_true, Bool.or_false]
      exact ih _ fun f' x hm => h f' x (List.mem_cons_of_mem _ hm)

/-! ### Frames at the device -/

/-- A coefficient or calibration register does not change by itself (R49), whichever of its identifiers says that it
is one, unless R35 names it a measurement register. -/
theorem measuresAt_of_static {b : Board} {a : Byte} (hm : anyAt b a RegId.isMeasurement = false)
    (hs : anyAt b a b.isStatic = true) : measuresAt b a = false := by
  simp only [measuresAt, hm, hs, Bool.not_true, Bool.and_false, Bool.or_false]

/-- A write frame of its register's width is handled as one (R69). -/
theorem deviceFrame_write (b : Board) (d : Device) (wa : Byte) (p : List Byte) (ck : Byte) (hm : wa.msb = true)
    (hne : wa ≠ ctrlAddr) (hw : widthAt b (readAddrOf wa) = some p.length) :
    deviceFrame b d ([hdrByte, wa] ++ p ++ [ck]) = deviceWrite d wa p ck := by
  simp only [deviceFrame, List.cons_append, List.nil_append, ne_eq, not_true_eq_false, if_false, hne, hm, if_true,
    hw, List.length_append, List.length_cons, List.length_nil, Nat.zero_add]
  congr 1
  · exact List.take_left' rfl
  · simp

/-- A frame with bit 7 of its address set, to another address than the control address, reaches one register. -/
theorem frameTouch_write (c : Codes) (a : Byte) (rest : List Byte) (hm : a.msb = true) (hne : a ≠ ctrlAddr) :
    frameTouch c (hdrByte :: a :: rest) = .register (readAddrOf a) := by
  simp only [frameTouch, ne_eq, not_true_eq_false, if_false, hne, hm, if_true]

/-- Such a frame of another width than the register's, or to a register the device lacks. -/
theorem deviceFrame_misfit (b : Board) (d : Device) (a : Byte) (rest : List Byte) (hm : a.msb = true)
    (hne : a ≠ ctrlAddr) (h : ∀ w, widthAt b (readAddrOf a) = some w → rest.length ≠ w + 1) :
    deviceFrame b d (hdrByte :: a :: rest) = deviceStray (deviceUpset b.codes d (hdrByte :: a :: rest))
      (match widthAt b (readAddrOf a) with | none => rest | some w => rest.drop (w + 1)) := by
  simp only [deviceFrame, ne_eq, not_true_eq_false, if_false, hne, hm, if_true]
  cases hw : widthAt b (readAddrOf a) with
  | none => rfl
  | some w => simp only [if_neg (h w hw)]

/-- Four bytes to the control address are a command. -/
theorem deviceFrame_command (b : Board) (d : Device) (k ck : Byte) :
    deviceFrame b d [hdrByte, ctrlAddr, k, ck] = deviceCommand b.codes d k ck := rfl

/-- Two bytes with bit 7 of the address clear are a read request. -/
theorem deviceFrame_read (b : Board) (d : Device) (a : Byte) (hm : a.msb = false) :
    deviceFrame b d [hdrByte, a] = deviceRead b d a := by
  have hne : a ≠ ctrlAddr := by rintro rfl; exact absurd hm (by decide)
  simp only [deviceFrame, ne_eq, not_true_eq_false, if_false, hne, hm, Bool.false_eq_true]
  rfl

/-- A write frame that is right for a write-enabled device stores its payload (R47). -/
theorem deviceWrite_stores (d : Device) (wa : Byte) (p : List Byte) (hwe : d.we = true)
    (ho : (readAddrOf wa, beNat p) ∉ d.outOfRange) :
    deviceWrite d wa p (cksumByte hdrByte wa p) = { d with reg := writeReg d.reg (readAddrOf wa) p } := by
  simp only [deviceWrite, cksumMatches, beq_self_eq_true, hwe, Bool.and_self, if_true, ho, if_false]

/-- What the device's open reactions never change. -/
structure OpenKeeps (d e : Device) : Prop where
  outOfRange : e.outOfRange = d.outOfRange
  line : ∃ bs, e.line = d.line ++ bs
  memory : d.reg.wf = true → e.reg.wf = true
  ready : e.ready = true → d.ready = true

theorem OpenKeeps.refl (d : Device) : OpenKeeps d d := ⟨rfl, ⟨[], (List.append_nil _).symm⟩, id, id⟩

theorem OpenKeeps.trans {d e f : Device} (h : OpenKeeps d e) (h' : OpenKeeps e f) : OpenKeeps d f := by
  obtain ⟨bs, hb⟩ := h.line
  obtain ⟨cs, hc⟩ := h'.line
  exact ⟨h'.outOfRange.trans h.outOfRange, ⟨bs ++ cs, by rw [hc, hb, List.append_assoc]⟩,
    fun hm => h'.memory (h.memory hm), fun hr => h.ready (h'.ready hr)⟩

/-- An open reaction draws what its frame reaches and keeps the rest. -/
theorem deviceOpen_keeps (d : Device) (t : Touch) : OpenKeeps d (deviceOpen d t) := by
  cases t
  · exact ⟨rfl, ⟨_, rfl⟩, id, id⟩
  · exact ⟨rfl, ⟨_, rfl⟩, id, id⟩
  · exact ⟨rfl, ⟨_, rfl⟩, id, id⟩
  · exact ⟨rfl, ⟨_, rfl⟩, forgetReg_wf _ _, id⟩
  · exact ⟨rfl, ⟨_, rfl⟩, fun _ => rfl, fun h => (Bool.and_eq_true_iff.1 h).1⟩

theorem deviceUpset_keeps (c : Codes) (d : Device) (f : List Byte) : OpenKeeps d (deviceUpset c d f) :=
  deviceOpen_keeps _ _

theorem deviceLost_keeps (c : Codes) (d : Device) (f : List Byte) : OpenKeeps d (deviceLost c d f) := by
  obtain ⟨h1, h2, h3, h4⟩ := deviceUpset_keeps c d f
  exact ⟨h1, h2, h3, h4⟩

theorem deviceStray_keeps (d : Device) (bs : List Byte) : OpenKeeps d (deviceStray d bs) := by
  unfold deviceStray
  split
  · exact .refl d
  · exact deviceOpen_keeps _ _

/-- An answered read request writes known content at most, which keeps the canonical form, and appends to the
line. -/
theorem deviceRead_keeps (b : Board) (d : Device) (a : Byte) : OpenKeeps d (deviceRead b d a) := by
  unfold deviceRead
  split
  · exact deviceOpen_keeps _ _
  · simp only [deviceContent]
    split
    · exact ⟨rfl, ⟨_, List.append_assoc _ _ _⟩, id, id⟩
    · exact ⟨rfl, ⟨_, List.append_assoc _ _ _⟩, writeReg_wf _ _ _, id⟩

theorem deviceWrite_keeps (d : Device) (wa : Byte) (p : List Byte) (ck : Byte) :
    OpenKeeps d (deviceWrite d wa p ck) := by
  unfold deviceWrite
  split_ifs
  · exact ⟨rfl, ⟨[], (List.append_nil _).symm⟩, writeReg_wf _ _ _, id⟩
  · exact ⟨rfl, ⟨[], (List.append_nil _).symm⟩, writeReg_wf _ _ _, id⟩
  · exact deviceOpen_keeps _ _

theorem deviceCommand_keeps (c : Codes) (d : Device) (k ck : Byte) : OpenKeeps d (deviceCommand c d k ck) := by
  unfold deviceCommand
  split_ifs
  all_goals first
    | exact deviceOpen_keeps _ _
    | exact ⟨rfl, ⟨[], (List.append_nil _).symm⟩, id, id⟩
    | exact ⟨rfl, ⟨[], (List.append_nil _).symm⟩, fun _ => rfl, fun h => nomatch h⟩

/-- Whatever is delivered to the device, it keeps its range, appends to the line, keeps the register memory's
canonical form, and does not become ready by it. -/
theorem deviceReceive_keeps (b : Board) (d : Device) (f : List Byte) : OpenKeeps d (deviceReceive b d f) := by
  unfold deviceReceive
  split
  · unfold deviceFrame
    split
    · split_ifs
      · exact deviceUpset_keeps _ _ _
      · split
        · exact (deviceCommand_keeps _ _ _ _).trans (deviceStray_keeps _ _)
        · exact deviceUpset_keeps _ _ _
      · split
        · exact (deviceUpset_keeps _ _ _).trans (deviceStray_keeps _ _)
        · split_ifs
          · exact deviceWrite_keeps _ _ _ _
          · exact (deviceUpset_keeps _ _ _).trans (deviceStray_keeps _ _)
      · exact (deviceRead_keeps _ _ _).trans (deviceStray_keeps _ _)
    · exact deviceUpset_keeps _ _ _
  · exact deviceUpset_keeps _ _ _

/-- And so does every `Send`, however it is answered. -/
theorem sendEffect_keeps (s : State) (f : List Byte) (a : SendAnswer) : OpenKeeps s.dev (sendEffect s f a) := by
  unfold sendEffect deviceAfterSend
  split_ifs
  · exact deviceLost_keeps _ _ _
  · exact deviceUpset_keeps _ _ _
  · exact deviceReceive_keeps _ _ _
  · exact deviceLost_keeps _ _ _

end Sys2Proof.Machine
end

