-- ==== Sys2Proof/Tests/Slice0.lean ====
section
/-! SUPPORT. The model's own tests. Frames and results are those of spec/95_test_vectors.md (section 2 and
the programs P1 to P8) or written out by hand from spec/30_encoding.md; the command codes and addresses of
the sample configuration are the ones those vectors use. Then, for every statement with hypotheses, a
theorem that shows a state and operands that meet them. -/

namespace Sys2Proof.Tests

open Sys2Proof Sys2Proof.Machine

/-! ### Well-formedness: one ill-formed term for each check -/

/-- The sample's command codes. -/
def codes : Codes := Config.sampleBoard.codes

theorem test_wf_payload_too_long : Instr.valid Config.sampleBoard (.wf 0x82 [1, 2, 3, 4, 5] 0) = false := by decide
theorem test_wf_is_a_command : Instr.valid Config.sampleBoard (.wf 0xEA [1] 0) = false := by decide
theorem test_cf_is_named : Instr.valid Config.sampleBoard (.cf 0xE5 0x8B) = false := by decide
theorem test_rs_too_long : Instr.valid Config.sampleBoard (.rs [1, 2, 3, 4, 5] 0) = false := by decide
theorem test_rd_reg_width_over_a_byte : Instr.valid Config.sampleBoard (.rdReg 0 256) = false := by decide

/-- The conditions of a configuration: each ill-formed board is refused. -/
theorem test_board_codes_equal :
    ({ Config.sampleBoard with codes := { codes with wrdis := 0xE5 } } : Board).wf = false := by decide
theorem test_board_missing_register :
    ({ Config.sampleBoard with regTable := Config.sampleBoard.regTable.drop 1 } : Board).wf = false := by decide
theorem test_board_entry_write_address : (RegEntry.mk 0x24 0xA5 3).wf 4 = false := by decide
theorem test_board_entry_bit_seven : (RegEntry.mk 0xA4 0xA4 3).wf 4 = false := by decide
theorem test_board_entry_at_control : (RegEntry.mk 0x6A 0xEA 2).wf 4 = false := by decide
theorem test_board_entry_too_wide : (RegEntry.mk 0x24 0xA4 5).wf 4 = false := by decide
theorem test_board_no_gain : ({ Config.sampleBoard with gains := [] } : Board).wf = false := by decide
theorem test_board_gain_zero : ({ Config.sampleBoard with gains := [(0, 0)] } : Board).wf = false := by decide
theorem test_board_gain_twice :
    ({ Config.sampleBoard with gains := [(1, 0), (1, 1)] } : Board).wf = false := by decide
theorem test_board_field_not_a_run :
    ({ Config.sampleBoard with pgaA := ⟨.other 0, 0x5, 0⟩ } : Board).wf = false := by decide
theorem test_board_field_out_of_register :
    ({ Config.sampleBoard with pgaU := ⟨.other 0, 0x18000, 15⟩ } : Board).wf = false := by decide
theorem test_board_cal_register_unknown :
    ({ Config.sampleBoard with calOrder := [(.hfconst, .other 9)] } : Board).wf = false := by decide
theorem test_board_eight_coefficients :
    ({ Config.sampleBoard with coefOrder := Config.sampleBoard.coefOrder.drop 1 } : Board).wf = false := by decide
theorem test_board_coefficient_width :
    Config.sampleBoard.hasWidthTwo .rmsIA = false := by decide
theorem test_board_conversion_register_unknown :
    ({ Config.sampleBoard with regs := [(.pf, [.pf, .other 9])] } : Board).wf = false := by decide
theorem test_board_conversion_without_registers :
    ({ Config.sampleBoard with regs := [(.pf, [])] } : Board).wf = false := by decide
theorem test_board_feature_missing :
    ({ Config.sampleBoard with features := Config.sampleBoard.features.drop 1 } : Board).wf = false := by decide
theorem test_board_switch_with_one_code :
    Board.featureWf { Config.sampleBoard with features := [(.pulse, ⟨Config.sampleBoard.pgaA, [1]⟩)] } .pulse =
      false := by decide
theorem test_board_width_above_nmax :
    ({ Config.sampleBoard with regTable := (.other 7, ⟨0x40, 0xC0, 5⟩) :: Config.sampleBoard.regTable } : Board).wf =
      false ∧
    ({ Config.sampleBoard with
      spare := 1, regTable := (.other 7, ⟨0x40, 0xC0, 5⟩) :: Config.sampleBoard.regTable } : Board).wf = true := by
  decide
/-- What is no fault of a configuration: a field of `CAL_ORDER` listed twice, two identifiers at one address. -/
theorem test_board_repetitions :
    ({ Config.sampleBoard with
      calOrder := [(.hfconst, .hfconst), (.hfconst, .hfconst)]
      regTable := (.other 7, ⟨0x02, 0x82, 4⟩) :: Config.sampleBoard.regTable } : Board).wf = true := by decide

/-! ### Decoding: words written out by hand (30_encoding R56 to R59, R64, R65) -/

theorem test_decode_rq : decode Config.sampleBoard .down [0xA5, 0x24] = .ok (.rq 0x24) := by decide
theorem test_decode_wf :
    decode Config.sampleBoard .down [0xA5, 0x82, 0x10, 0x00, 0xC8] = .ok (.wf 0x82 [0x10, 0x00] 0xC8) := by decide
theorem test_decode_wf_empty : decode Config.sampleBoard .down [0xA5, 0x82, 0xD8] = .ok (.wf 0x82 [] 0xD8) := by decide
theorem test_decode_cf : decode Config.sampleBoard .down [0xA5, 0xEA, 0x00, 0x70] = .ok (.cf 0x00 0x70) := by decide
theorem test_decode_rs : decode Config.sampleBoard .up [0xFF, 0xFF, 0xEC] = .ok (.rs [0xFF, 0xFF] 0xEC) := by decide
theorem test_decode_wren : decode Config.sampleBoard .down [0xA5, 0xEA, 0xE5, 0x8B] = .ok .wren := by decide
theorem test_decode_wrdis : decode Config.sampleBoard .down [0xA5, 0xEA, 0xDC, 0x94] = .ok .wrdis := by decide
theorem test_decode_sel_a : decode Config.sampleBoard .down [0xA5, 0xEA, 0x5A, 0x16] = .ok .selA := by decide
theorem test_decode_sel_b : decode Config.sampleBoard .down [0xA5, 0xEA, 0xA5, 0xCB] = .ok .selB := by decide
theorem test_decode_devreset : decode Config.sampleBoard .down [0xA5, 0xEA, 0x96, 0xDA] = .ok .devreset := by decide
theorem test_decode_cksum :
    decodeOp [0x00, 0xA5, 0x70, 2, 0xFF, 0xFF] = .ok (.cksum 0xA5 0x70 [0xFF, 0xFF]) := by decide
theorem test_decode_enc_read : decodeOp [0x01, 0x24] = .ok (.encRead 0x24) := by decide
theorem test_decode_enc_write : decodeOp [0x02, 0x82, 2, 0x10, 0x00] = .ok (.encWrite 0x82 [0x10, 0x00]) := by
  decide
theorem test_decode_enc_cmd : decodeOp [0x03, 0xEA, 0x00] = .ok (.encCmd 0xEA 0x00) := by decide
theorem test_decode_validate :
    decodeOp [0x04, 0xA5, 0x70, 2, 0xFF, 0xFF, 0xEC] = .ok (.validate 0xA5 0x70 [0xFF, 0xFF] 0xEC) := by decide
theorem test_decode_rd_reg : decodeOp [0x10, 0x70, 2] = .ok (.rdReg 0x70 2) := by decide
theorem test_decode_wr_reg : decodeOp [0x11, 0x02, 2, 0x10, 0x00] = .ok (.wrReg 0x02 [0x10, 0x00]) := by decide
theorem test_decode_send_cmd : decodeOp [0x12, 0xEA, 0x70] = .ok (.sendCmd 0xEA 0x70) := by decide
theorem test_decode_reset : decodeOp [0x13] = .ok .reset := by decide
theorem test_decode_sel_ch : decodeOp [0x14, 1] = .ok (.selCh 1) := by decide
theorem test_decode_set_ratio :
    decodeOp [0x20, 1, 6, 1, 2, 1, 2, 1, 1, 1, 1, 0] = .ok (.setRatio ⟨3, 2⟩ ⟨1, 1⟩ ⟨-1, 0⟩) := by decide
theorem test_decode_get_ratio : decodeOp [0x21] = .ok .getRatio := by decide
theorem test_decode_get_pga : decodeOp [0x22, 2] = .ok (.getPga 2) := by decide
theorem test_decode_get_sel : decodeOp [0x23] = .ok .getSel := by decide
theorem test_decode_set_pga : decodeOp [0x24, 1, 1, 16] = .ok (.setPga 1 16) := by decide
theorem test_decode_rmw_field :
    decodeOp [0x25, 31, 1, 0xF0, 1, 0x50] = .ok (.rmwField (.other 1) 0xF0 0x50) := by decide
/-- No operand is bounded: an identifier above a byte, a payload of 256 bytes, a value of 300 bytes. -/
theorem test_decode_identifier_over_a_byte :
    decodeOp [0x25, 0xFF, 0xFF, 20, 1, 0xF0, 0] = .ok (.rmwField (.other 500) 0xF0 0) ∧
    putRegId (.other 225) = [0xFF, 0] ∧ putRegId (.other 500) = [0xFF, 0xFF, 20] := by decide +kernel
theorem test_decode_payload_over_a_byte :
    decodeOp (0x30 :: 0xFF :: 1 :: List.replicate 256 0x5A) = .ok (.decU (List.replicate 256 0x5A)) := by decide +kernel
theorem test_decode_number_over_a_byte :
    decodeOp ([0x24, 0, 0xFF, 45, 1] ++ List.replicate 299 0) = .ok (.setPga 0 (256 ^ 299)) := by decide +kernel
theorem test_decode_count_cut_short : decodeOp [0x30, 0xFF] = .error .truncated := by decide
theorem test_decode_load_coef : decodeOp [0x26] = .ok .loadCoef := by decide
theorem test_decode_apply_cal :
    decodeOp (0x27 :: ([2, 0x10, 0x00] ++ [2, 0x01, 0x23] ++ [2, 0xFE, 0xDC] ++ [1, 2] ++ [1, 5] ++ [1, 6] ++
      [0] ++ [1, 8] ++ [1, 9] ++ [1, 10] ++ [1, 11] ++ [4, 0xFF, 0, 0, 12])) =
    .ok (.applyCal ⟨0x1000, 0x0123, 0xFEDC, 2, 5, 6, 0, 8, 9, 10, 11, 0xFF00000C⟩) := by decide
theorem test_decode_dec_u : decodeOp [0x30, 1, 0x80] = .ok (.decU [0x80]) := by decide
theorem test_decode_dec_s : decodeOp [0x31, 1, 0x80] = .ok (.decS [0x80]) := by decide
theorem test_decode_rdiv : decodeOp [0x32, 1, 9, 1, 4] = .ok (.rdiv (-5) 2) := by decide
theorem test_decode_conv_rms : decodeOp [0x33, 2] = .ok (.convRms 2) := by decide
theorem test_decode_conv_power : decodeOp [0x34, 1] = .ok (.convPower 1) := by decide
theorem test_decode_conv_energy : decodeOp [0x35, 0] = .ok (.convEnergy 0) := by decide
theorem test_decode_conv_freq : decodeOp [0x36] = .ok .convFreq := by decide
theorem test_decode_conv_pf : decodeOp [0x37] = .ok .convPf := by decide
theorem test_decode_conv_phase : decodeOp [0x38] = .ok .convPhase := by decide

theorem test_decode_refuses_header : decodeFrame Config.sampleBoard [0xA4, 0x24] = .error (.badHeader 0xA4) := by decide
theorem test_decode_refuses_length :
    decodeFrame Config.sampleBoard [0xA5, 0x82, 1, 2, 3, 4, 5, 6] = .error (.badFrameLength 8) := by decide
/-- A selector byte above 3 names no channel, as 3 does (log 33). -/
theorem test_decode_wide_selector : decodeOp [0x14, 4] = .ok (.selCh 3) ∧ decodeOp [0x33, 0xFF] = .ok (.convRms 3) := by
  decide
theorem test_decode_refuses_cut_short : decodeOp [0x10, 0x24] = .error .truncated := by decide
theorem test_decode_refuses_number : decodeOp [0x0F] = .error (.unknownOp 0x0F) := by decide

/-- Words of spec/opcode_table.json as that file numbers their bits. -/
theorem test_table_words :
    decodeTableWord 16 0xA524 = some (.rq 0x24) ∧ decodeTableWord 8 0xA5 = some (.wf 0 [] 0) ∧
    decodeTableWord 16 0xA5EA = some (.cf 0 0) ∧ decodeTableWord 8 0x26 = some .loadCoef ∧
    decodeTableWord 8 0x39 = none ∧ decodeTableWord 0 0 = some (.rs [] 0) := by decide

/-! ### One step each -/

/-- An idle block on the sample configuration, with a ready device and these transport answers. -/
def idleBlock (sends : List SendAnswer) (recvs : List RecvPlan) : State where
  seq := Seq.idle
  ctx := ⟨.A, ⟨1, 1, 1⟩, ⟨⟨1, 1⟩, ⟨1, 1⟩, ⟨1, 1⟩⟩, .notLoaded, .uart⟩
  tx := []
  rx := []
  created := true
  board := Config.sample
  host := []
  out := none
  sends := sends
  recvs := recvs
  log := []
  world := []
  dev := ⟨false, .A, [], [], true, [], 1⟩
  draws := 1

/-- The nine coefficients of the vectors' program P5. -/
def coefs : CoefSet := ⟨51443, 51443, 46242, 35356, 35356, 40240, 58039, 58039, 4096⟩

/-- The same block with the coefficients loaded. -/
def loadedBlock (sends : List SendAnswer) (recvs : List RecvPlan) : State :=
  { idleBlock sends recvs with ctx := { (idleBlock sends recvs).ctx with coef := .loaded coefs } }

/-- The response a step leaves, if it answers a next state. -/
def responseOf (o : Host.Outcome State Fault Refusal) : Option Response :=
  match o with
  | .next t => t.out
  | _ => none

/-- The transactions a step leaves. -/
def eventsOf (o : Host.Outcome State Fault Refusal) : List Event :=
  match o with
  | .next t => t.log
  | _ => []

/-- The device a step leaves. -/
def deviceOf (o : Host.Outcome State Fault Refusal) : Option Device :=
  match o with
  | .next t => some t.dev
  | _ => none

/-- The context a step leaves. -/
def contextOf (o : Host.Outcome State Fault Refusal) : Option Ctx :=
  match o with
  | .next t => some t.ctx
  | _ => none

theorem test_cksum : responseOf (exec (.cksum 0xA5 0x70 [0xFF, 0xFF]) (idleBlock [] [])) =
    some ⟨.ok, .byte 0xEC⟩ := by decide
theorem test_cksum_wraps_to_zero : responseOf (exec (.cksum 0xA5 0x5A []) (idleBlock [] [])) =
    some ⟨.ok, .byte 0x00⟩ := by decide
theorem test_enc_read : responseOf (exec (.encRead 0xEA) (idleBlock [] [])) =
    some ⟨.ok, .bytes [0xA5, 0xEA]⟩ := by decide
theorem test_enc_write : responseOf (exec (.encWrite 0x02 [0x10, 0x00]) (idleBlock [] [])) =
    some ⟨.ok, .bytes [0xA5, 0x02, 0x10, 0x00, 0x48]⟩ := by decide
theorem test_enc_write_too_long : responseOf (exec (.encWrite 0x82 [0, 0, 0, 0, 0]) (idleBlock [] [])) =
    some ⟨.bufferTooSmall, .none⟩ := by decide
theorem test_enc_cmd : responseOf (exec (.encCmd 0xEA 0xFF) (idleBlock [] [])) =
    some ⟨.ok, .bytes [0xA5, 0xEA, 0xFF, 0x71]⟩ := by decide
theorem test_validate_reordered : responseOf (exec (.validate 0xA5 0x26 [0x12, 0x56, 0x34] 0x98)
    (idleBlock [] [])) = some ⟨.ok, .bool true⟩ := by decide
theorem test_validate_one_bit : responseOf (exec (.validate 0xA5 0x24 [0x7F, 0xFF, 0xFE] 0xB9)
    (idleBlock [] [])) = some ⟨.ok, .bool false⟩ := by decide

theorem test_rd_reg : responseOf (exec (.rdReg 0x70 2) (idleBlock [.sent 2] [.bytes [0xFF, 0xFF, 0xEC]])) =
    some ⟨.ok, .bytes [0xFF, 0xFF]⟩ := by decide
theorem test_rd_reg_echoed_header :
    responseOf (exec (.rdReg 0x70 2) (idleBlock [.sent 2] [.bytes [0xA5, 0xFF, 0xFF]])) =
    some ⟨.checksumMismatch, .none⟩ := by decide
theorem test_wr_reg_frames :
    eventsOf (exec (.wrReg 0x02 [0x10, 0x00]) (idleBlock [.sent 4, .sent 5, .sent 4] [])) =
    [.send [0xA5, 0xEA, 0xE5, 0x8B] (.sent 4), .send [0xA5, 0x82, 0x10, 0x00, 0xC8] (.sent 5),
      .send [0xA5, 0xEA, 0xDC, 0x94] (.sent 4)] := by decide
theorem test_wr_reg_short_data :
    responseOf (exec (.wrReg 0x02 [0x10, 0x00]) (idleBlock [.sent 4, .sent 3, .sent 4] [])) =
      some ⟨.ioError, .none⟩ ∧
    (eventsOf (exec (.wrReg 0x02 [0x10, 0x00]) (idleBlock [.sent 4, .sent 3, .sent 4] []))).length = 3 := by
  decide
theorem test_send_cmd : eventsOf (exec (.sendCmd 0xEA 0x70) (idleBlock [.sent 4] [])) =
    [.send [0xA5, 0xEA, 0x70, 0x00] (.sent 4)] := by decide
theorem test_reset : eventsOf (exec .reset (idleBlock [.sent 4] [])) =
    [.send [0xA5, 0xEA, 0x96, 0xDA] (.sent 4)] := by decide
theorem test_sel_ch_b : (contextOf (exec (.selCh 1) (idleBlock [.sent 4] []))).map Ctx.sel = some .B := by decide
theorem test_sel_ch_short : responseOf (exec (.selCh 1) (idleBlock [.sent 2] [])) = some ⟨.ioError, .none⟩ ∧
    (contextOf (exec (.selCh 1) (idleBlock [.sent 2] []))).map Ctx.sel = some .A := by decide

theorem test_set_ratio : (contextOf (exec (.setRatio ⟨6, 4⟩ ⟨1, 1⟩ ⟨1, 2⟩) (idleBlock [] []))).map Ctx.ratio =
    some ⟨⟨3, 2⟩, ⟨1, 1⟩, ⟨1, 2⟩⟩ := by decide
theorem test_get_ratio : responseOf (exec .getRatio (idleBlock [] [])) =
    some ⟨.ok, .ratio ⟨⟨1, 1⟩, ⟨1, 1⟩, ⟨1, 1⟩⟩⟩ := by decide
theorem test_get_pga : responseOf (exec (.getPga 3) (idleBlock [] [])) = some ⟨.invalidParam, .none⟩ := by decide
theorem test_get_sel : responseOf (exec .getSel (idleBlock [] [])) = some ⟨.ok, .chan .A⟩ := by decide
theorem test_set_pga_frame :
    (eventsOf (exec (.setPga 2 4) (idleBlock [.sent 2, .sent 4, .sent 5, .sent 4]
      [.bytes [0x0A, 0x04, 0xCC]])))[0]? = some (.send [0xA5, 0x00] (.sent 2)) := by decide
theorem test_rmw_field :
    (eventsOf (exec (.rmwField (.other 1) 0xF0 0xFF5F) (idleBlock [.sent 2, .sent 4, .sent 5, .sent 4]
      [.bytes [0x12, 0x34, 0x01]])))[3]? = some (.send [0xA5, 0x93, 0x12, 0x54, 0x61] (.sent 5)) := by decide
theorem test_rmw_field_bad_checksum :
    eventsOf (exec (.rmwField (.other 1) 0xF0 0x50) (idleBlock [.sent 2, .sent 4]
      [.bytes [0x12, 0x34, 0x00]])) =
    [.send [0xA5, 0x13] (.sent 2), .recv 3 (.got [0x12, 0x34, 0x00])] := by decide
theorem test_load_coef :
    (contextOf (exec .loadCoef (idleBlock (List.replicate 9 (.sent 2))
      [.bytes [0xC8, 0xF3, 0x2F], .bytes [0xC8, 0xF3, 0x2E], .bytes [0xB4, 0xA2, 0x92],
       .bytes [0x8A, 0x1C, 0x41], .bytes [0x8A, 0x1C, 0x40], .bytes [0x9D, 0x30, 0x18],
       .bytes [0xE2, 0xB7, 0x4B], .bytes [0xE2, 0xB7, 0x4A], .bytes [0x10, 0x00, 0x48]]))).map Ctx.coef =
    some (.loaded coefs) := by decide
theorem test_load_coef_mismatch :
    (contextOf (exec .loadCoef (loadedBlock [.sent 2] [.bytes [0x00, 0x01, 0x89]]))).map Ctx.coef =
    some (.loaded coefs) := by decide
theorem test_apply_cal_stops :
    (eventsOf (exec (.applyCal ⟨0x1000, 0x0123, 0xFEDC, 2, 0, 0, 0, 0, 0, 0, 0, 0⟩)
      (idleBlock [.sent 4, .sent 5, .sent 4, .sent 4, .sent 5, .sent 4, .sent 4, .sent 5, .sent 4, .sent 4,
        .fail, .sent 4] [])))[10]? = some (.send [0xA5, 0x88, 0x00, 0x02, 0xD0] .fail) := by decide

theorem test_dec_u : responseOf (exec (.decU [0x80, 0x00, 0x00]) (idleBlock [] [])) =
    some ⟨.ok, .int 8388608⟩ := by decide
theorem test_dec_s : responseOf (exec (.decS [0xFF, 0xFF, 0x00, 0x00]) (idleBlock [] [])) =
    some ⟨.ok, .int (-65536)⟩ := by decide
theorem test_rdiv_half : responseOf (exec (.rdiv (-5) 2) (idleBlock [] [])) = some ⟨.ok, .int (-3)⟩ := by decide
theorem test_rdiv_below_half : responseOf (exec (.rdiv (-3) 8) (idleBlock [] [])) = some ⟨.ok, .int 0⟩ := by
  decide

theorem test_conv_rms_zero :
    responseOf (exec (.convRms 0) (loadedBlock [.sent 2] [.bytes [0, 0, 0, 0x36]])) =
    some ⟨.ok, .int 0⟩ := by decide
theorem test_conv_power_all_ones :
    responseOf (exec (.convPower 0) (loadedBlock [.sent 2] [.bytes [0xFF, 0xFF, 0xFF, 0xFF, 0x32]])) =
    some ⟨.ok, .int 0⟩ := by decide
theorem test_conv_energy_frames :
    eventsOf (exec (.convEnergy 0) (loadedBlock [.sent 2] [.bytes [0x00, 0x00, 0x01, 0x31]])) =
    [.send [0xA5, 0x28] (.sent 2), .recv 4 (.got [0x00, 0x00, 0x01, 0x31])] := by decide
theorem test_conv_freq_without_coefficients :
    responseOf (exec .convFreq (idleBlock [] [])) = some ⟨.invalidData, .none⟩ := by decide
theorem test_conv_pf_short :
    responseOf (exec .convPf (loadedBlock [.sent 2] [.bytes [0x00, 0x00]])) =
    some ⟨.ioMissingBytes, .none⟩ := by decide
theorem test_conv_phase_failed : responseOf (exec .convPhase (loadedBlock [.sent 2] [.fail])) =
    some ⟨.ioError, .none⟩ := by decide

/-- The device with register 0x02 holding 0x1000. -/
def writtenDevice : Device :=
  ⟨false, .A, [(0x02, 0x10), (0x102, 0x00)], [], true, [], 1⟩

theorem test_wr_reg_device :
    deviceOf (exec (.wrReg 0x02 [0x10, 0x00]) (idleBlock [.sent 4, .sent 5, .sent 4] [])) =
    some writtenDevice := by decide
theorem test_rq : (deviceOf (exec (.rq 0x02) { idleBlock [] [] with dev := writtenDevice })).map Device.line =
    some [0x10, 0x00, 0x48] := by decide
theorem test_wf : deviceOf (exec (.wf 0x82 [0x10, 0x00] 0xC8)
    { idleBlock [] [] with dev := { (idleBlock [] []).dev with we := true } }) =
    some { writtenDevice with we := true } := by decide
/-- A write frame whose payload is a byte short: nothing is known of the register it addresses any more, and the
register beside it is as it was. -/
theorem test_wf_misfit : (deviceOf (exec (.wf 0x82 [0x10] 0xC8)
    { idleBlock [] [] with dev := { writtenDevice with we := true, reg := [(0x01, 7), (0x02, 0x10), (0x102, 0)] } })).map
      Device.reg = some [(0x01, 7)] := by decide
/-- A data frame taken in part leaves every register but its own as it was (R49, U9). -/
theorem test_wr_reg_lost_frame :
    (deviceOf (exec (.wrReg 0x05 [0x01, 0x23]) { idleBlock [.sent 4, .sent 3, .sent 4] [] with
      dev := writtenDevice })).map Device.reg = some writtenDevice.reg := by decide
theorem test_power_cycle :
    (deviceOf (step { idleBlock [] [] with dev := writtenDevice, world := [.powerCycle] })).map Device.reg = some [] := by
  decide
theorem test_rs : (deviceOf (exec (.rs [0xFF, 0xFF] 0xEC) (idleBlock [] []))).map Device.line =
    some [0xFF, 0xFF, 0xEC] := by decide
theorem test_wren : (deviceOf (exec .wren (idleBlock [] []))).map Device.we = some true := by decide
theorem test_wrdis : (deviceOf (exec .wrdis
    { idleBlock [] [] with dev := { writtenDevice with we := true } })) = some writtenDevice := by decide
theorem test_sel_a : (deviceOf (exec .selA
    { idleBlock [] [] with dev := { writtenDevice with sel := .B } })) = some writtenDevice := by decide
theorem test_sel_b : (deviceOf (exec .selB (idleBlock [] []))).map Device.sel = some .B := by decide
theorem test_devreset : (deviceOf (exec .devreset (idleBlock [] []))).map Device.ready = some false := by decide
theorem test_cf_unknown : (deviceOf (exec (.cf 0x00 0x70) (idleBlock [] []))).map Device.tick = some 2 := by
  decide
theorem test_step_unknown_number :
    responseOf (step { idleBlock [] [] with host := [.op [0x0F]] }) = some ⟨.notImplemented, .none⟩ := by decide
theorem test_step_hung : (match step { idleBlock [] [] with host := [.op [0x10, 0x24, 3], .op [0x23]] } with
    | .next t => (t.seq.busy, t.seq.phase, t.tx, t.host.length)
    | _ => (false, 0, [], 0)) = (true, 0, [0xA5, 0x24], 1) := by decide

/-! ### Witnesses: each statement's hypotheses are met together -/

theorem witness_DecodeOfEncode : codes.wf = true ∧ Instr.valid Config.sampleBoard (.wf 0x82 [0x10, 0x00] 0xC8) = true ∧
    Instr.valid Config.sampleBoard (.cf 0x00 0x70) = true ∧ Instr.valid Config.sampleBoard (.rdReg 0 255) = true ∧
    Instr.valid Config.sampleBoard (.rmwField (.other 500) (256 ^ 300) 0) = true := by decide

theorem witness_SerialisedValue : 65535 < 256 ^ 2 ∧ (serBytes 0x1000 2)[1]? = some 0x00 := by decide

/-- An idle block, and payloads at and just above the largest length (the codec and the two decoders), with the
empty payload and one whose first bit is set. -/
theorem witness_codec : Idle (idleBlock [] []) ∧ ([1, 2, 3, 4] : List Byte).length ≤ Config.sample.val.nmax ∧
    Config.sample.val.nmax < ([1, 2, 3, 4, 5] : List Byte).length ∧ isCodec (.encRead 0) = true ∧ (0x00 : Byte) ≠ 0xFF ∧
    Config.sample.val.nmax = 4 ∧ ([] : List Byte).length ≤ Config.sample.val.nmax ∧
    (Idle (idleBlock [] []) ∧ (idleBlock [] []).board.val.nmax = 4) ∧ (0x80 : Byte).msb = true :=
  ⟨rfl, by decide, by decide, rfl, by decide, rfl, by decide, ⟨rfl, rfl⟩, by decide⟩

/-- Widths 5 and 4; a request taken in part and one taken whole; a failed, a short, a right and a wrong
response. -/
theorem witness_ReadRegister :
    Idle (idleBlock [.sent 1] []) ∧ Config.sample.val.nmax < 5 ∧ 4 ≤ Config.sample.val.nmax ∧
    (idleBlock [.sent 1] []).sends = .sent 1 :: [] ∧ ¬ Takes [0xA5, 0x2C] (.sent 1) ∧
    Takes [0xA5, 0x2C] (.sent 2) ∧
    (recvAnswerOf 3 [] .fail).1 = .fail ∧
    (recvAnswerOf 3 [] (.bytes [0xFF, 0xFF])).1 = .got [0xFF, 0xFF] ∧
    (recvAnswerOf 3 [] (.bytes [0xFF, 0xFF, 0xEC])).1 = .got ([0xFF, 0xFF] ++ [0xEC]) ∧
    cksumByte 0xA5 0x70 [0xFF, 0xFF] = 0xEC ∧ cksumByte 0xA5 0x70 [0xFF, 0xFF] ≠ 0xED :=
  ⟨rfl, by decide, by decide, rfl, by unfold Takes; decide, by unfold Takes; decide, rfl, rfl, rfl, by decide,
    by decide⟩

/-- A payload of 5 bytes and one of 4; a lost enable frame with the parameter false; three frames taken; a
lost data frame. -/
theorem witness_WriteRegister :
    Idle (idleBlock [.fail] []) ∧ Config.sample.val.nmax < ([1, 2, 3, 4, 5] : List Byte).length ∧
    ([1, 2, 3, 4] : List Byte).length ≤ Config.sample.val.nmax ∧
    ¬ Takes (cmdFrame 0xEA codes.wren) .fail ∧
    ({ Config.sampleBoard with wrContinue := false } : Board).wf = true ∧
    Takes (cmdFrame 0xEA codes.wren) (.sent 4) ∧ Config.sample.val.wrContinue = true ∧
    Takes (writeFrame (0x02 ||| 0x80) [0x10, 0x00]) (.sent 5) ∧
    ¬ Takes (writeFrame (0x02 ||| 0x80) [0x10, 0x00]) (.sent 4) ∧ Takes (cmdFrame 0xEA codes.wrdis) (.sent 4) ∧
    (0x02 ||| 0x80 : Byte) ≠ 0xEA ∧ (0x6A ||| 0x80 : Byte) = 0xEA :=
  ⟨rfl, by decide, by decide, by unfold Takes; decide, by decide, by unfold Takes; decide, rfl,
    by unfold Takes; decide, by unfold Takes; decide, by unfold Takes; decide, by decide, by decide⟩

theorem witness_DeliveredWrite :
    let s := idleBlock [.sent 4, .sent 5, .sent 4] []
    Idle s ∧ s.dev.ready = true ∧ (0x02 : Byte) ||| 0x80 ≠ 0xEA ∧
    widthAt s.board.val (0x02 &&& 0x7F) = some ([0x10, 0x00] : List Byte).length ∧
    ((0x02 : Byte) &&& 0x7F, beNat [0x10, 0x00]) ∉ s.dev.outOfRange ∧
    Takes (cmdFrame 0xEA s.board.val.codes.wren) (.sent 4) ∧
    Takes (writeFrame (0x02 ||| 0x80) [0x10, 0x00]) (.sent 5) ∧
    Takes (cmdFrame 0xEA s.board.val.codes.wrdis) (.sent 4) :=
  ⟨rfl, rfl, by decide, by decide, by decide, by unfold Takes; decide, by unfold Takes; decide,
    by unfold Takes; decide⟩

theorem witness_WriteTouchesOnlyItsRegister :
    let s := { idleBlock [.sent 4, .sent 3] [] with dev := writtenDevice }
    Idle s ∧ s.dev.ready = true ∧ (0x05 : Byte) ||| 0x80 ≠ 0xEA ∧
    widthAt s.board.val (0x05 &&& 0x7F) = some ([0x01, 0x23] : List Byte).length ∧
    (0x02 % 256 ≠ ((0x05 : Byte) &&& 0x7F).toNat ∧ readCell s.dev.reg 0x02 = some 0x10) :=
  ⟨rfl, rfl, by decide, by decide, by decide⟩

theorem witness_CommandOperations :
    Idle (idleBlock [.sent 4] []) ∧ (idleBlock [.sent 4] []).sends = .sent 4 :: [] ∧
    Takes [0xA5, 0xEA, 0x70, cksumByte 0xA5 0xEA [0x70]] (.sent 4) ∧
    ¬ Takes [0xA5, 0xEA, 0x70, cksumByte 0xA5 0xEA [0x70]] (.sent 3) ∧
    Takes (cmdFrame 0xEA codes.reset) (.sent 4) ∧ ¬ Takes (cmdFrame 0xEA codes.reset) .fail :=
  ⟨rfl, rfl, by unfold Takes; decide, by unfold Takes; decide, by unfold Takes; decide, by unfold Takes; decide⟩

theorem witness_SelectChannel :
    Idle (idleBlock [.sent 4] []) ∧ 2 ≤ (2 : BitVec 2).toNat ∧ 2 ≤ (3 : BitVec 2).toNat ∧
    Takes (cmdFrame 0xEA codes.selA) (.sent 4) ∧ ¬ Takes (cmdFrame 0xEA codes.selB) (.sent 3) :=
  ⟨rfl, by decide, by decide, by unfold Takes; decide, by unfold Takes; decide⟩

theorem witness_SetRatio : Idle (idleBlock [] []) ∧ (0 < (6 : Int) ∧ 0 < 4) ∧
    ¬ (0 < (0 : Int) ∧ 0 < 1) ∧ ¬ (0 < (1 : Int) ∧ 0 < 0) := ⟨rfl, by decide, by decide, by decide⟩

/-- A changed header, address and payload byte; two changes that cancel; a payload in another order. -/
theorem witness_ChecksumSees :
    (0xA5 : Byte) ≠ 0xA4 ∧ (0x70 : Byte) ≠ 0x71 ∧ (0xFF : Byte) ≠ 0xFE ∧
    (0x10 : Byte) + 0x20 = 0x11 + 0x1F ∧ ([0x10, 0x20] : List Byte).Perm [0x20, 0x10] :=
  ⟨by decide, by decide, by decide, by decide, List.Perm.swap _ _ _⟩

/-- An unknown register, a right response of the environment's and one from the line, a wrong one; the lowest and
highest bit of the field. -/
theorem witness_ReadModifyWrite :
    let s := idleBlock [.sent 2, .sent 4, .sent 5, .sent 4] [.bytes (goodResponse 0x13 [0x12, 0x34])]
    let u := { idleBlock [.sent 2, .sent 4, .sent 5, .sent 4] [.line] with
      dev := { writtenDevice with reg := [(0x13, 0x12), (0x113, 0x34)] } }
    (Idle s ∧ Idle u) ∧ s.board.val.entry (.other 9) = none ∧
    s.board.val.entry (.other 1) = some ⟨0x13, 0x93, 2⟩ ∧
    ([0x12, 0x34] : List Byte).length = (RegEntry.mk 0x13 0x93 2).width ∧
    Takes (readFrame 0x13) (.sent 2) ∧ Takes (cmdFrame 0xEA s.board.val.codes.wren) (.sent 4) ∧
    (recvAnswerOf 3 (deviceAfterSend s.board.val s.dev (readFrame 0x13) (.sent 2)).line
      (.bytes (goodResponse 0x13 [0x12, 0x34]))).1 = .got (goodResponse 0x13 [0x12, 0x34]) ∧
    recvAnswerOf 3 (deviceAfterSend u.board.val u.dev (readFrame 0x13) (.sent 2)).line .line =
      (.got (goodResponse 0x13 [0x12, 0x34]), []) ∧
    ((0xF0 : RegVal).testBit 4 = true ∧ (0xF0 : RegVal).testBit 15 = false) :=
  ⟨⟨rfl, rfl⟩, by decide, by decide, rfl, by unfold Takes; decide, by unfold Takes; decide, by decide, by decide,
    by decide⟩

/-- The clauses that end early: a read with a wrong checksum, and an enable frame of which one byte was
not taken where the write then stops. -/
theorem witness_ReadModifyWrite_stopped :
    (responseOf (exec (.rdReg 0x13 2) (idleBlock [.sent 2] [.bytes [0x12, 0x34, 0x00]]))).map Response.status =
      some .checksumMismatch ∧
    Config.sample.val.entry (.other 1) = some ⟨0x13, 0x93, 2⟩ ∧
    let s := { idleBlock [.sent 2, .sent 3] [.bytes (goodResponse 0x13 [0x12, 0x34])] with
      board := ⟨{ Config.sampleBoard with wrContinue := false }, by decide⟩ }
    Idle s ∧ s.board.val.entry (.other 1) = some ⟨0x13, 0x93, 2⟩ ∧ s.board.val.wrContinue = false ∧
      Takes (readFrame 0x13) (.sent 2) ∧ ¬ Takes (cmdFrame 0xEA s.board.val.codes.wren) (.sent 3) :=
  ⟨by decide, by decide, rfl, by decide, rfl, by unfold Takes; decide, by unfold Takes; decide⟩

/-- The enabling code of an entry fits its field. -/
theorem witness_Features :
    let d : FeatureDesc := ⟨⟨.other 1, 0x0080, 7⟩, [0, 1]⟩
    Config.sample.val.features.lookup .pulse = some d ∧ Feature.pulse.isSwitch = true ∧
    Config.sample.val.entry (.other 1) = some ⟨0x13, 0x93, 2⟩ ∧ d.codes[1]? = some 1 ∧
    1 * 2 ^ d.field.shift &&& d.field.mask = 1 * 2 ^ d.field.shift ∧
    ([0x00, 0x80] : List Byte).length = 2 ∧
    (∀ j < 16, (beNat [0x00, 0x80]).testBit j =
      if d.field.mask.testBit j then (1 * 2 ^ d.field.shift).testBit j else (beNat [0x00, 0x00]).testBit j) ∧
    featureValue Config.sample.val .pulse [0x00, 0x80] = some 1 := by decide

theorem witness_SetGain :
    let s := idleBlock [.sent 2, .sent 4, .sent 5, .sent 4] [.bytes (goodResponse 0x00 [0x0A, 0x04])]
    Idle s ∧ 3 ∉ s.board.val.gains.map Prod.fst ∧ 16 ∈ s.board.val.gains.map Prod.fst ∧
    s.board.val.gains.lookup 16 = some 4 ∧
    (responseOf (exec (.rmwField s.board.val.pgaA.reg s.board.val.pgaA.mask
      (4 * 2 ^ s.board.val.pgaA.shift)) s)).map Response.status = some .ok :=
  ⟨rfl, by decide, by decide, by decide, by decide⟩

/-- The same with a response that is wrong: the clause of a failed read-modify-write. -/
theorem witness_SetGain_failed :
    (responseOf (exec (.rmwField (.other 0) 0x07 4) (idleBlock [.sent 2] [.bytes [0x0A, 0x04, 0x00]]))).map
      Response.status = some .checksumMismatch := by decide

theorem witness_SetGainCompletes :
    let s := idleBlock [.sent 7, .sent 7, .sent 7, .sent 7] [.bytes (goodResponse 0x00 [0x0A, 0x04])]
    Idle s ∧ 16 ∈ s.board.val.gains.map Prod.fst ∧
    s.board.val.entry (s.board.val.pgaField .U).reg = some ⟨0x00, 0x80, 2⟩ ∧
    (∀ a ∈ ([.sent 7, .sent 7, .sent 7, .sent 7] : List SendAnswer), ∃ n, a = .sent n ∧ Config.sample.val.nmax + 3 ≤ n) :=
  ⟨rfl, by decide, by decide, fun a h => ⟨7, by simpa using h, by decide⟩⟩

/-- The nine registers of the sample's `COEF_ORDER`. -/
def coefEntries : List RegEntry :=
  [⟨0x70, 0xF0, 2⟩, ⟨0x71, 0xF1, 2⟩, ⟨0x72, 0xF2, 2⟩, ⟨0x73, 0xF3, 2⟩, ⟨0x74, 0xF4, 2⟩, ⟨0x75, 0xF5, 2⟩,
   ⟨0x76, 0xF6, 2⟩, ⟨0x77, 0xF7, 2⟩, ⟨0x02, 0x82, 2⟩]

theorem witness_LoadCoefficients :
    let ps : List (List Byte) := List.replicate 9 [0x12, 0x34]
    let s := idleBlock (List.replicate 9 (.sent 2))
      (((coefEntries.map RegEntry.raddr).zip ps).map fun p => .bytes (goodResponse p.1 p.2))
    Idle s ∧ s.board.val.coefOrder.map (fun q => s.board.val.entry q.2) = coefEntries.map some ∧
    ps.length = 9 ∧ (∀ p ∈ ps, p.length = 2) ∧
    ReadsAnswered s ((coefEntries.map RegEntry.raddr).zip ps) [] [] :=
  ⟨rfl, by decide, by decide, by decide, ⟨List.replicate 9 (.sent 2), by decide,
    fun a h => ⟨2, List.eq_of_mem_replicate h, le_refl 2⟩, rfl⟩, by simp only [List.append_nil]; rfl⟩

/-- The ways a read of two bytes fails: a request taken in part, a receive that fails, one that is short, a wrong
checksum; and the first read of `LOAD_COEF` (`k = 1`) stopped so, and its ninth. -/
theorem witness_LoadCoefficientsStops :
    let s := idleBlock [.sent 2] [.bytes [0x00, 0x01, 0x89]]
    Idle s ∧ (s.board.val.coefOrder.map (fun q => s.board.val.entry q.2)).take (([] : List RegEntry).length + 1) =
      ([] ++ [RegEntry.mk 0x70 0xF0 2]).map some ∧
    (s.board.val.coefOrder.map (fun q => s.board.val.entry q.2)).take (8 + 1) = coefEntries.map some ∧
    ReadsAnswered s (((([] : List RegEntry).map RegEntry.raddr)).zip ([] : List (List Byte))) (.sent 2 :: [])
      (.bytes [0x00, 0x01, 0x89] :: []) ∧
    ¬ Takes (readFrame 0x70) (.sent 1) ∧ Takes (readFrame 0x70) (.sent 2) ∧
    (recvAnswerOf 3 [] .fail).1 = .fail ∧ (recvAnswerOf 3 [] (.bytes [0x00, 0x01])).1 = .got [0x00, 0x01] ∧
    (recvAnswerOf 3 [] (.bytes [0x00, 0x01, 0x89])).1 = .got [0x00, 0x01, 0x89] ∧
    cksumByte 0xA5 0x70 [0x00, 0x01] ≠ 0x89 :=
  ⟨rfl, by decide, by decide, ⟨⟨[], rfl, by simp, rfl⟩, rfl⟩, by unfold Takes; decide, by unfold Takes; decide, rfl,
    rfl, rfl, by decide⟩

/-- A conversion whose one read is answered a byte short ends with that read's status. -/
theorem witness_ConversionsPassOn :
    let s := loadedBlock [.sent 2] [.bytes [0x00, 0x00]]
    Idle s ∧ (Instr.convFreq, Quantity.freq) ∈ conversions ∧ s.ctx.coef = .loaded coefs ∧
    ((s.board.val.regsOf .freq).map s.board.val.entry).take (([] : List RegEntry).length + 1) =
      ([] ++ [RegEntry.mk 0x23 0xA3 2]).map some ∧
    ReadsAnswered s (((([] : List RegEntry).map RegEntry.raddr)).zip ([] : List (List Byte))) (.sent 2 :: [])
      (.bytes [0x00, 0x00] :: []) ∧
    responseOf (exec .convFreq s) = some ⟨.ioMissingBytes, .none⟩ :=
  ⟨rfl, by decide, rfl, by decide, ⟨⟨[], rfl, by simp, rfl⟩, rfl⟩, by decide⟩

/-- The sample's `CAL_ORDER` registers. -/
def calEntries : List RegEntry :=
  [⟨0x02, 0x82, 2⟩, ⟨0x05, 0x85, 2⟩, ⟨0x07, 0x87, 2⟩, ⟨0x08, 0x88, 2⟩, ⟨0x09, 0x89, 1⟩, ⟨0x0A, 0x8A, 2⟩,
   ⟨0x0B, 0x8B, 2⟩, ⟨0x0E, 0x8E, 2⟩, ⟨0x0F, 0x8F, 2⟩, ⟨0x10, 0x90, 2⟩, ⟨0x11, 0x91, 2⟩, ⟨0x12, 0x92, 2⟩]

theorem witness_ApplyCalibration :
    let s := idleBlock (List.replicate 36 (.sent 7)) []
    Idle s ∧ s.board.val.calOrder.map (fun q => s.board.val.entry q.2) = calEntries.map some ∧
    (List.replicate 36 (SendAnswer.sent 7)).length = 3 * calEntries.length ∧
    (∀ a ∈ List.replicate 36 (SendAnswer.sent 7), ∃ n, a = .sent n ∧ Config.sample.val.nmax + 3 ≤ n) :=
  ⟨rfl, by decide, by decide, fun _ h => ⟨7, List.eq_of_mem_replicate h, by decide⟩⟩

/-- The first write (`k = 0`) and the last one (`k = 11`) stopped, by a failed data frame, by one of which 2 or, as
in the vectors' program P3, 3 bytes of 5 were taken, and by a lost enable or disable frame; the enable frame under both
values of the parameter. -/
theorem witness_ApplyCalibrationStops :
    let s := idleBlock (List.replicate 33 (.sent 7) ++ (.sent 4 :: .sent 2 :: .sent 4 :: [])) []
    Idle s ∧ Idle (idleBlock ([] ++ (.sent 4 :: .fail :: .sent 4 :: [])) []) ∧
    (s.board.val.calOrder.take 11).map (fun x => s.board.val.entry x.2) = (calEntries.take 11).map some ∧
    s.board.val.calOrder[11]? = some (.psos, .psos) ∧ s.board.val.entry .psos = some ⟨0x12, 0x92, 2⟩ ∧
    s.board.val.calOrder[0]? = some (.hfconst, .hfconst) ∧ s.board.val.entry .hfconst = some ⟨0x02, 0x82, 2⟩ ∧
    (List.replicate 33 (SendAnswer.sent 7)).length = 3 * 11 ∧
    ¬ Takes (writeFrame (0x02 ||| 0x80) (serBytes 0x1000 2)) .fail ∧
    ¬ Takes (writeFrame (0x12 ||| 0x80) (serBytes 12 2)) (.sent 2) ∧
    ¬ Takes (writeFrame (0x12 ||| 0x80) (serBytes 12 2)) (.sent 3) ∧
    ¬ Takes (cmdFrame 0xEA codes.wren) (.sent 3) ∧ ¬ Takes (cmdFrame 0xEA codes.wrdis) .fail ∧
    s.board.val.wrContinue = true ∧ ({ Config.sampleBoard with wrContinue := false } : Board).wf = true :=
  ⟨rfl, rfl, by decide, by decide, by decide, by decide, by decide, by decide, by unfold Takes; decide,
    by unfold Takes; decide, by unfold Takes; decide, by unfold Takes; decide, by unfold Takes; decide, rfl,
    by decide⟩

/-- The last bracket's enable frame lost with the parameter false: one send more than the brackets before it. -/
theorem test_apply_cal_enable_lost :
    let s := { idleBlock (List.replicate 3 (.sent 7) ++ [.sent 3, .sent 7]) [] with
      board := ⟨{ Config.sampleBoard with wrContinue := false }, by decide⟩ }
    (eventsOf (exec (.applyCal ⟨0x1000, 0x0123, 0xFEDC, 2, 0, 0, 0, 0, 0, 0, 0, 0⟩) s)).length = 4 := by decide

/-- Two writes delivered and the third one lost; the first register, at the boundary `j = 0`, and the second. -/
theorem witness_EarlierCalibrationWritesStay :
    let s := idleBlock (List.replicate 6 (.sent 7) ++ (.sent 4 :: .sent 3 :: .sent 4 :: [])) []
    let es := calEntries.take 2
    let e := RegEntry.mk 0x07 0x87 2
    Idle s ∧ (s.board.val.calOrder.take 3).map (fun x => s.board.val.entry x.2) = (es ++ [e]).map some ∧
    es.length = 2 ∧ (∀ x ∈ es ++ [e], widthAt s.board.val x.raddr = some x.width) ∧ s.dev.ready = true ∧
    es[0]? = some ⟨0x02, 0x82, 2⟩ ∧ es[1]? = some ⟨0x05, 0x85, 2⟩ ∧
    s.board.val.calOrder[0]? = some (.hfconst, .hfconst) ∧ s.board.val.calOrder[1]? = some (.paGain, .paGain) ∧
    (0x02, beNat (serBytes 0x1000 2)) ∉ s.dev.outOfRange ∧
    (((es ++ [e]).drop 1).all fun x => x.raddr != 0x02) = true ∧
    (List.replicate 6 (SendAnswer.sent 7)).length = 3 * 2 ∧ s.board.val.calOrder[2]? = some (.pbGain, .pbGain) ∧
    ¬ Takes (writeFrame (e.raddr ||| 0x80) (serBytes 0xFEDC 2)) (.sent 3) ∧
    ((deviceOf (exec (.applyCal ⟨0x1000, 0x0123, 0xFEDC, 2, 0, 0, 0, 0, 0, 0, 0, 0⟩) s)).map Device.reg).map
      (fun m => readReg m 0x02 2) = some (some [0x10, 0x00]) :=
  ⟨rfl, by decide, by decide, by decide, rfl, by decide, by decide, by decide, by decide, by decide, by decide,
    by decide, by decide, by unfold Takes; decide, by decide⟩

theorem witness_RoundingDivision : Idle (idleBlock [] []) ∧ (0 : Int) ≤ 0 ∧ (0 : Int) < 1 :=
  ⟨rfl, by decide, by decide⟩

/-- A conversion of a register that is read, with no further register; its special and its scaled reading. -/
theorem witness_Conversions :
    let s := loadedBlock [.sent 2] [.bytes (goodResponse 0x24 [0x12, 0x34, 0x56])]
    Idle s ∧ s.ctx.coef = .loaded coefs ∧
    (s.board.val.regsOf (.rms .A)).map s.board.val.entry =
      [RegEntry.mk 0x24 0xA4 3].map some ∧
    ([[0x12, 0x34, 0x56]] : List (List Byte)).map List.length = [RegEntry.mk 0x24 0xA4 3].map RegEntry.width ∧
    lastReading (s.board.val.regsOf (.rms .A)) [[0x12, 0x34, 0x56]] (s.board.val.mainRegister (.rms .A)) =
      some [0x12, 0x34, 0x56] ∧
    ReadsAnswered s (([RegEntry.mk 0x24 0xA4 3].map RegEntry.raddr).zip [[0x12, 0x34, 0x56]]) [] [] ∧
    beNat [0x12, 0x34, 0x56] ≠ 0 ∧ beNat [0x00, 0x00, 0x00] = 0 ∧
    (∀ d ∈ ([0xFF, 0xFF, 0xFF, 0xFF] : List Byte), d = 0xFF) :=
  ⟨rfl, rfl, by decide, by decide, by decide,
    ⟨⟨[.sent 2], by decide, fun a h => ⟨2, by simpa using h, le_refl 2⟩, rfl⟩, rfl⟩, by decide, by decide,
    by decide⟩

theorem witness_SpecialReadings :
    let s := loadedBlock [.sent 2] [.bytes (goodResponse 0x2C [0xFF, 0xFF, 0xFF, 0xFF])]
    let z := loadedBlock [.sent 2] [.bytes (goodResponse 0x26 [0x00, 0x00, 0x00])]
    Idle s ∧ Idle z ∧ s.ctx.coef = .loaded coefs ∧ s.board.val.regsOf (.power .A) = [.powerPA] ∧
    s.board.val.entry (Quantity.power .A).register = some ⟨0x2C, 0xAC, 4⟩ ∧
    z.board.val.entry (Quantity.rms .U).register = some ⟨0x26, 0xA6, 3⟩ ∧
    (∀ d ∈ ([0xFF, 0xFF, 0xFF, 0xFF] : List Byte), d = 0xFF) ∧ (∀ d ∈ ([0x00, 0x00, 0x00] : List Byte), d = 0) :=
  ⟨rfl, rfl, rfl, rfl, by decide, by decide, by decide, by decide⟩

/-- A register that `Regs_q` names twice: both readings are done, the later one counts (R110's `raw[reg]`). -/
theorem test_register_read_twice :
    let twice : Board := { Config.sampleBoard with regs := [(.rms .A, [.rmsIA, .other 1, .rmsIA])] }
    let s := { loadedBlock [.sent 2, .sent 2, .sent 2]
        [.bytes (goodResponse 0x24 [1, 2, 3]), .bytes (goodResponse 0x13 [4, 5]), .bytes (goodResponse 0x24 [0, 0, 0])] with
      board := ⟨twice, by decide⟩ }
    responseOf (exec (.convRms 0) s) = some ⟨.ok, .int 0⟩ ∧ (eventsOf (exec (.convRms 0) s)).length = 6 ∧
    lastReading (twice.regsOf (.rms .A)) [[1, 2, 3], [4, 5], [0, 0, 0]] .rmsIA = some [0, 0, 0] ∧
    (twice.regsOf (.rms .A)).eraseDups = [.rmsIA, .other 1] := by decide

/-- Energy fractions: a denominator that depends on the raw value; a formula that falls, held at its value; one held
up at the wrap to the rounded result before it. -/
theorem test_energy_fractions :
    energyUp (fun r => (r * r, r.toNat + 1)) 3 3 = (9, 4) ∧ energyUp (fun r => (5 - r, 1)) 3 2 = (5, 1) ∧
    energyUp (fun _ => (2, 3)) 0 1 = (3, 3) ∧ energyUp (fun _ => (-1, 1)) 3 0 = (0, 1) ∧
    energyDown (fun r => (r + 3, 2)) 3 2 = (1, 2) ∧ energyDown (fun r => (r + 3, 2)) 3 9 = (0, 2) := by decide

theorem witness_ConversionChecks : Idle (idleBlock [] []) ∧ (idleBlock [] []).ctx.coef = .notLoaded :=
  ⟨rfl, rfl⟩

/-- Two raw values of an energy register, the largest and 0, and the wrap; the first may be above neither. -/
theorem witness_Scaling :
    let a : ScaleArgs := ⟨[(.energyPA, 0)], coefs, ⟨1, 1, 1⟩, ⟨⟨1, 1⟩, ⟨1, 1⟩, ⟨1, 1⟩⟩, .A⟩
    Config.sample.val.entry (Config.sample.val.mainRegister (.energy .A)) = some ⟨0x28, 0xA8, 3⟩ ∧
    assign a.raws (Config.sample.val.mainRegister (.energy .A)) 5 = [(.energyPA, 5)] ∧
    0 ≤ 256 ^ 3 - 1 ∧ 256 ^ 3 - 1 < 256 ^ 3 ∧ mainRaw Config.sample.val (.rms .A) a = 0 := by
  decide

/-- A register of known content, one of unknown content, and one the device measures. -/
theorem witness_ReadRequest :
    let s := { idleBlock [] [] with dev := writtenDevice }
    s.dev.ready = true ∧ (0x02 : Byte).msb = false ∧ widthAt s.board.val 0x02 = some 2 ∧
    measuresAt s.board.val 0x02 = false ∧ readReg s.dev.reg 0x02 2 = some [0x10, 0x00] ∧
    widthAt s.board.val 0x05 = some 2 ∧ readReg s.dev.reg 0x05 2 = none ∧
    widthAt s.board.val 0x24 = some 3 ∧ measuresAt s.board.val 0x24 = true := by decide

theorem witness_WriteFrame :
    let d : Device := { writtenDevice with we := true }
    d.ready = true ∧ d.we = true ∧ (0x82 : Byte).msb = true ∧ (0x82 : Byte) ≠ 0xEA ∧
    widthAt Config.sample.val (0x82 &&& 0x7F) = some ([0x10, 0x00] : List Byte).length ∧
    ((0x82 : Byte) &&& 0x7F, beNat [0x10, 0x00]) ∉ d.outOfRange := by decide

theorem witness_CommandFrames : (idleBlock [] []).dev.ready = true ∧ (Instr.wren).port = .down := by decide

/-- A coefficient register changes only when written (R49): also one that only `COEF_ORDER` makes a coefficient
register, and under another identifier at its address that the configuration takes for self-changing; one that no
order names changes. -/
theorem test_static_registers :
    let b : Board := { Config.sampleBoard with
      regTable := (.other 7, ⟨0x02, 0x82, 2⟩) :: (.other 8, ⟨0x40, 0xC0, 2⟩) :: Config.sampleBoard.regTable
      coefOrder := (.rmsA, .other 1) :: Config.sampleBoard.coefOrder.drop 1
      selfChanging := [.other 1, .other 7, .other 8] }
    b.wf = true ∧ measuresAt b 0x13 = false ∧ measuresAt b 0x02 = false ∧ measuresAt b 0x40 = true := by decide

/-- Each clause: an unknown code and a known one with a wrong checksum; a write frame with a wrong checksum, a
protected one, one a byte short, one to no register; a request with bit 7 set and to no register; a device that is
not ready. -/
theorem witness_UnexpectedFrame :
    (idleBlock [] []).dev.ready = true ∧
    commandWf codes 0x00 0x70 = true ∧ commandWf codes 0xE5 0x8C = true ∧
    (0x82 : Byte).msb = true ∧ widthAt Config.sample.val (0x82 &&& 0x7F) = some ([0x10, 0x00] : List Byte).length ∧
    0xC9 ≠ cksumByte 0xA5 0x82 [0x10, 0x00] ∧ (idleBlock [] []).dev.we = false ∧
    2 ≠ ([0x10] : List Byte).length ∧ (0xE9 : Byte).msb = true ∧
    widthAt Config.sample.val (0xE9 &&& 0x7F) = none ∧ (0x02 : Byte).msb = false ∧ (0x69 : Byte).msb = false ∧
    widthAt Config.sample.val 0x69 = none ∧ ({ writtenDevice with ready := false } : Device).ready = false ∧
    ([0xA5, 0x01] : List Byte) ≠ [] := by decide

theorem witness_ReadReturnsRegister :
    let s := { idleBlock [.sent 2] [.line] with dev := writtenDevice }
    Idle s ∧ s.dev.ready = true ∧ (0x02 : Byte).msb = false ∧ 2 ≤ s.board.val.nmax ∧
    widthAt s.board.val 0x02 = some 2 ∧ measuresAt s.board.val 0x02 = false ∧
    readReg s.dev.reg 0x02 2 = some [0x10, 0x00] ∧ s.dev.line = [] ∧ s.recvs = .line :: [] :=
  ⟨rfl, rfl, by decide, by decide, by decide, by decide, by decide, rfl, rfl⟩

theorem witness_StepRunsOperation :
    let s := { idleBlock [] [] with host := [.op [0x23]] }
    Idle s ∧ s.created = true ∧ s.world = [] ∧ s.host = .op [0x23] :: [] ∧ decodeOp [0x23] = .ok .getSel :=
  ⟨rfl, rfl, rfl, rfl, by decide⟩

theorem witness_StepRunsFrame :
    let s := { idleBlock [] [] with world := [.down [0xA5, 0x24]] }
    let u := { idleBlock [] [] with world := [.up [0xFF]] }
    Idle s ∧ s.world = .down [0xA5, 0x24] :: [] ∧
    decodeFrame s.board.val [0xA5, 0x24] = .ok (.rq 0x24) ∧
    u.world = .up [0xFF] :: [] ∧ decodeResponse u.board.val [0xFF] = .ok (.rs [] 0xFF) :=
  ⟨rfl, rfl, by decide, rfl, by decide⟩

/-- The ends of the four ranges of numbers that name no operation. -/
theorem witness_UnknownOperation :
    Idle (idleBlock [] []) ∧ (0x05 ≤ (0x05 : Byte).toNat ∧ (0x05 : Byte).toNat ≤ 0x0F) ∧
    (0x15 ≤ (0x1F : Byte).toNat ∧ (0x1F : Byte).toNat ≤ 0x1F) ∧
    (0x28 ≤ (0x28 : Byte).toNat ∧ (0x28 : Byte).toNat ≤ 0x2F) ∧ 0x39 ≤ (0xFF : Byte).toNat :=
  ⟨rfl, by decide, by decide, by decide, by decide⟩

/-- A block whose register read waits for the transport, with another operation presented. -/
def waitingBlock : State :=
  { idleBlock [] [] with seq := ⟨some (.rdReg 0x24 3), [], false, some [0xA5, 0x24]⟩, tx := [0xA5, 0x24], host := [.op [0x23]] }

theorem witness_BusyBlock : waitingBlock.seq.op = some (.rdReg 0x24 3) ∧ waitingBlock.world = [] ∧
    waitingBlock.host = .op [0x23] :: [] ∧ (Instr.rdReg 0x24 3).port = .host ∧
    step waitingBlock = .next waitingBlock := ⟨rfl, rfl, rfl, rfl, rfl⟩

/-- A request the transport does not answer, and one it answers where the receive is not. -/
theorem witness_UnansweredRead :
    let s := idleBlock [] []
    let u := idleBlock [.sent 2] []
    (Idle s ∧ Idle u) ∧ 4 ≤ s.board.val.nmax ∧ s.world = [] ∧ (∀ h ∈ s.host, ∃ bs, h = HostItem.op bs) ∧
    s.sends = [] ∧ u.sends = .sent 2 :: [] ∧ u.recvs = [] :=
  ⟨⟨rfl, rfl⟩, by decide, rfl, (fun _ h => nomatch h), rfl, rfl, rfl⟩

theorem witness_LateAnswers :
    Idle { idleBlock [] [] with host := [.op [0x23]] } ∧ isOperation (.rdReg 0x24 3) = true ∧
    exec (.rdReg 0x24 3) { idleBlock [] [] with host := [.op [0x23]] } = .next waitingBlock ∧
    waitingBlock.seq.busy = true := ⟨rfl, by decide, rfl, rfl⟩

/-- Creation with no `Send` unanswered, and with one. -/
theorem witness_Creation :
    let s := { idleBlock [] [] with host := [.create .spi] }
    let u := { waitingBlock with host := [.create .spi] }
    (s.world = [] ∧ s.host = .create .spi :: [] ∧ s.seq.pending = none) ∧
    (u.world = [] ∧ u.host = .create .spi :: [] ∧ u.seq.pending = some [0xA5, 0x24]) :=
  ⟨⟨rfl, rfl, rfl⟩, rfl, rfl, rfl⟩

theorem witness_Destroyed :
    let s := { idleBlock [] [] with host := [.destroy, .op [0x23]] }
    let u := { waitingBlock with host := [.destroy, .op [0x23]] }
    (s.world = [] ∧ s.host = .destroy :: .op [0x23] :: [] ∧ s.seq.pending = none) ∧
    (u.world = [] ∧ u.host = .destroy :: .op [0x23] :: [] ∧ u.seq.pending = some [0xA5, 0x24]) :=
  ⟨⟨rfl, rfl, rfl⟩, rfl, rfl, rfl⟩

theorem witness_PowerCycle : ({ idleBlock [] [] with world := [.powerCycle] } : State).world = .powerCycle :: [] := rfl

/-- A destroyed block between two presentations: the settle event, then an operation. -/
theorem witness_Destroyed_later :
    let s := { idleBlock [] [] with created := false, host := [.settled, .op [0x23]] }
    let u := { s with host := [.op [0x23]] }
    s.created = false ∧ Idle s ∧ s.world = [] ∧ s.host = .settled :: .op [0x23] :: [] ∧ step s = .next u ∧
    u.created = false ∧ Idle u ∧ u.host = .op [0x23] :: [] := ⟨rfl, rfl, rfl, rfl, rfl, rfl, rfl, rfl⟩

theorem witness_Settle :
    let s := { idleBlock [] [] with host := [.settled], dev := { writtenDevice with ready := false } }
    s.world = [] ∧ s.host = .settled :: [] := ⟨rfl, rfl⟩

/-- The same frame while a read waits, and at an idle block. -/
theorem witness_Interleaved :
    let s := { waitingBlock with world := [.down [0xA5, 0x24]] }
    let u := { idleBlock [] [] with world := [.down [0xA5, 0x24]] }
    s.world = .down [0xA5, 0x24] :: [] ∧ s.seq.busy = true ∧ u.world = .down [0xA5, 0x24] :: [] ∧
    u.seq.busy = false := ⟨rfl, rfl, rfl, rfl⟩

theorem witness_EveryStep : Inv (idleBlock [] []) ∧ step (idleBlock [] []) = .next (idleBlock [] []) :=
  ⟨⟨by unfold ctxOk; decide, by decide, by decide, by decide, fun _ => rfl, (fun _ h => nomatch h),
    (fun _ h => nomatch h)⟩, rfl⟩

/-- An operation that ends with an error, and one that ends with `OK`. -/
theorem witness_OperationEnds :
    (Instr.getPga 3).port = .host ∧
    exec (.getPga 3) (idleBlock [] []) = .next { idleBlock [] [] with out := some ⟨.invalidParam, .none⟩ } ∧
    Status.invalidParam ≠ .ok ∧
    exec .getSel (idleBlock [] []) = .next { idleBlock [] [] with out := some ⟨.ok, .chan .A⟩ } :=
  ⟨rfl, rfl, by decide, rfl⟩

theorem witness_ContextFields :
    exec .getSel (idleBlock [] []) = .next { idleBlock [] [] with out := some ⟨.ok, .chan .A⟩ } ∧
    (∀ ch, Instr.getSel ≠ .selCh ch) ∧ (∀ a b c, Instr.getSel ≠ .setRatio a b c) ∧ Instr.getSel ≠ .loadCoef ∧
    (∀ ch g, Instr.getSel ≠ .setPga ch g) :=
  ⟨rfl, (fun _ h => nomatch h), (fun _ _ _ h => nomatch h), (fun h => nomatch h), (fun _ _ h => nomatch h)⟩

end Sys2Proof.Tests
end

section
/-! The scaling functions (R121, R113). `energyAt` puts the model's two recursions over the raw value together as one
function of an integer, for which one step from a raw value to the next gives monotonicity. -/

namespace Sys2Proof.Machine

/-! ### RMS, power and the divisors -/

theorem scaleNum_rms_nonneg (b : Board) (ch : Ch3) (a : ScaleArgs) : 0 ≤ scaleNum b (.rms ch) a := by
  simp only [scaleNum]
  split
  · exact Int.le_refl _
  · exact Int.natCast_nonneg _

theorem scaleNum_rms_of_zero {b : Board} {ch : Ch3} {a : ScaleArgs} (h : mainRaw b (.rms ch) a = 0) :
    scaleNum b (.rms ch) a = 0 := if_pos h

theorem sign_scaleNum_power (b : Board) (ch : CurCh) (a : ScaleArgs) :
    (scaleNum b (.power ch) a).sign = (mainRaw b (.power ch) a).sign ∨ scaleNum b (.power ch) a = 0 := by
  simp only [scaleNum]
  by_cases hmag : Config.powerMag ch a = 0
  · exact .inr (by simp [hmag])
  · exact .inl (by rw [Int.sign_mul, Int.sign_sign, Int.sign_natCast_of_ne_zero hmag, Int.mul_one])

/-! ### The energy fraction over all raw values -/

/-- The fraction at any raw value. -/
def energyAt (free : Int → Fraction) (w : Nat) (r : Int) : Fraction :=
  if r < 0 then energyDown free w (-r).toNat else energyUp free w r.toNat

/-- The width of the register an energy's obligations speak of (log 27). -/
def energyWidth (b : Board) (ch : CurCh) : Nat :=
  ((b.entry (b.mainRegister (.energy ch))).map RegEntry.width).getD 0

theorem energyWidth_of_entry {b : Board} {ch : CurCh} {e : RegEntry}
    (h : b.entry (b.mainRegister (.energy ch)) = some e) : energyWidth b ch = e.width := by
  simp [energyWidth, h]

/-- The model's fraction is `energyAt` the main register's raw value. -/
theorem energyFraction_eq (b : Board) (ch : CurCh) (a : ScaleArgs) :
    energyFraction b ch a = energyAt (energyFree b ch a) (energyWidth b ch) (mainRaw b (.energy ch) a) := rfl

/-- With another raw value in the arguments only the place changes at which the fraction is taken. -/
theorem energyFraction_assign (b : Board) (ch : CurCh) (a : ScaleArgs) (r : Int) :
    energyFraction b ch { a with raws := assign a.raws (b.mainRegister (.energy ch)) r } =
      energyAt (energyFree b ch a) (energyWidth b ch) r := by
  simp [energyFraction_eq, mainRaw]

section EnergyAt
variable {free : Int → Fraction} (w : Nat)

@[simp] theorem energyAt_natCast (n : Nat) : energyAt free w n = energyUp free w n := by
  simp [energyAt]

@[simp] theorem energyAt_neg_natCast (n : Nat) : energyAt free w (-n) = energyDown free w n := by
  cases n with
  | zero => rfl
  | succ n => rw [energyAt, if_pos (by omega), Int.neg_neg, Int.toNat_natCast]

variable (pos : ∀ r, 0 < (free r).2)
include pos

theorem energyAt_den_pos (r : Int) : 0 < (energyAt free w r).2 := by
  unfold energyAt
  split
  · exact energyDown_den_pos pos w _
  · exact energyUp_den_pos pos w _

theorem energyAt_le_succ (r : Int) : (energyAt free w r).le (energyAt free w (r + 1)) = true := by
  have up (n : Nat) : (energyAt free w n).le (energyAt free w (n + 1)) = true := by
    rw [← Nat.cast_succ, energyAt_natCast, energyAt_natCast]
    exact energyUp_le_succ pos w n
  obtain ⟨n, rfl | rfl⟩ := r.eq_nat_or_neg
  · exact up n
  · cases n with
    | zero => exact up 0
    | succ m =>
      rw [show -((m + 1 : Nat) : Int) + 1 = -(m : Int) by omega, energyAt_neg_natCast, energyAt_neg_natCast]
      exact energyDown_succ_le w m

theorem energyAt_mono {r1 r2 : Int} (h : r1 ≤ r2) : (energyAt free w r1).le (energyAt free w r2) = true := by
  induction r2, h using Int.leInduction with
  | base => exact Fraction.le_refl _
  | succ r _ ih => exact Fraction.le_trans (energyAt_den_pos w pos r) ih (energyAt_le_succ w pos r)

theorem rdivInt_energyAt_mono {r1 r2 : Int} (h : r1 ≤ r2) :
    rdivInt (energyAt free w r1).1 (energyAt free w r1).2 ≤ rdivInt (energyAt free w r2).1 (energyAt free w r2).2 :=
  rdivInt_le_of_le (energyAt_den_pos w pos r1) (energyAt_den_pos w pos r2) (energyAt_mono w pos h)

/-- R113: below 0 every fraction rounds to no negative result, and from 0 up the result is no less than at 0. -/
theorem rdivInt_energyAt_nonneg (r : Int) : 0 ≤ rdivInt (energyAt free w r).1 (energyAt free w r).2 := by
  have down (n : Nat) : 0 ≤ rdivInt (energyAt free w (-n)).1 (energyAt free w (-n)).2 := by
    rw [← Fraction.roundsNonneg_iff (energyAt_den_pos w pos _), energyAt_neg_natCast]
    exact energyDown_roundsNonneg w n
  obtain ⟨n, rfl | rfl⟩ := r.eq_nat_or_neg
  · exact (down 0).trans (rdivInt_energyAt_mono w pos (Int.natCast_nonneg n))
  · exact down n

/-- At the last raw value before the wrap the rounded result is no more than the fraction at the wrap (R121). -/
theorem rdivInt_energyUp_mul_le {n : Nat} (hn : n + 1 = 256 ^ w) :
    rdivInt (energyUp free w n).1 (energyUp free w n).2 * (energyUp free w (n + 1)).2 ≤
      (energyUp free w (n + 1)).1 := by
  have floor := energyFloor_le_energyUp (free := free) w n
  rw [Fraction.le_iff, energyFloor_den, energyFloor, if_pos hn] at floor
  have hp : (0 : Int) < (energyUp free w n).2 := by exact_mod_cast energyUp_den_pos pos w n
  generalize energyUp free w n = p at *
  generalize energyUp free w (n + 1) = q at *
  refine le_of_mul_le_mul_right ?_ hp
  calc rdivInt p.1 p.2 * q.2 * p.2
      = rdivInt p.1 p.2 * p.2 * q.2 := Int.mul_right_comm _ _ _
    _ ≤ max p.1 (rdivInt p.1 p.2 * p.2) * q.2 :=
        mul_le_mul_of_nonneg_right (le_max_right _ _) (Int.natCast_nonneg _)
    _ ≤ q.1 * p.2 := floor

/-- And so is the rounded result at every raw value before the wrap. -/
theorem rdivInt_energyAt_mul_le {r : Int} (hr : r < 256 ^ w) :
    rdivInt (energyAt free w r).1 (energyAt free w r).2 * (energyAt free w (256 ^ w)).2 ≤
      (energyAt free w (256 ^ w)).1 := by
  obtain ⟨n, hn⟩ : ∃ n, n + 1 = 256 ^ w := ⟨256 ^ w - 1, Nat.sub_add_cancel (Nat.one_le_pow _ _ (by decide))⟩
  have wrap : (256 ^ w : Int) = ((n + 1 : Nat) : Int) := by rw [hn]; norm_cast
  have last : r ≤ (n : Int) := by omega
  rw [wrap, energyAt_natCast]
  calc rdivInt (energyAt free w r).1 (energyAt free w r).2 * (energyUp free w (n + 1)).2
      ≤ rdivInt (energyUp free w n).1 (energyUp free w n).2 * (energyUp free w (n + 1)).2 := by
        have := rdivInt_energyAt_mono w pos last
        rw [energyAt_natCast] at this
        exact mul_le_mul_of_nonneg_right this (Int.natCast_nonneg _)
    _ ≤ (energyUp free w (n + 1)).1 := rdivInt_energyUp_mul_le w pos hn

end EnergyAt

theorem scaleDen_pos (b : Board) (q : Quantity) (a : ScaleArgs) : 0 < scaleDen b q a := by
  cases q with
  | energy ch => exact energyAt_den_pos _ (energyFree_den_pos b ch a) _
  | rms | power | freq | pf | phase => exact Nat.succ_pos _

/-- Settles O34: RMS and power by their equations, energy by `energyAt`. -/
theorem scalingMeetsItsObligations : Obligations.ScalingMeetsItsObligations := by
  refine ⟨fun b ch a => ⟨scaleNum_rms_nonneg b ch a, scaleNum_rms_of_zero⟩, sign_scaleNum_power, scaleDen_pos,
    fun b ch a => rdivInt_energyAt_nonneg _ (energyFree_den_pos b ch a) _, ?_⟩
  intro b ch a e r1 r2 args hentry hargs hle
  have pos := energyFree_den_pos b ch a
  have frac (r : Int) : energyFraction b ch (args r) = energyAt (energyFree b ch a) e.width r := by
    rw [hargs, energyFraction_assign, energyWidth_of_entry hentry]
  simp only [scaleNum, scaleDen, frac]
  exact ⟨(Fraction.le_iff _ _).1 (energyAt_mono _ pos hle), rdivInt_energyAt_mono _ pos hle,
    rdivInt_energyAt_mul_le _ pos⟩

end Sys2Proof.Machine
end

section
/-! The interface kind (R9, R23). A state of another interface kind runs the same programs, but for the kind in the
context they return: so an operation's program commutes with the change of kind (`Prog.map`), and with it the run, the
end of the operation and the dispatch. -/

namespace Sys2Proof.Machine

/-! ### A program with its value changed -/

/-- The program that makes the same transactions and returns `f` of the value. -/
def Prog.map {α β : Type} (f : α → β) : Prog α → Prog β
  | .ret a => .ret (f a)
  | .raise st => .raise st
  | .send frame k => .send frame fun a => (k a).map f
  | .recv n k => .recv n fun a => (k a).map f

/-- The same of the end of a run. -/
def RunEnd.map {α β : Type} (f : α → β) : RunEnd α → RunEnd β
  | .done a => .done (f a)
  | .raised st => .raised st
  | .waiting => .waiting

section Map
variable {α β γ : Type} (f : α → β)

@[simp] theorem map_ret (a : α) : (Prog.ret a).map f = .ret (f a) := rfl

@[simp] theorem map_raise (st : Status) : (Prog.raise st).map f = .raise st := rfl

@[simp] theorem map_withinBuffer (b : Board) (n : Nat) (k : Prog α) :
    (withinBuffer b n k).map f = withinBuffer b n (k.map f) := by
  unfold withinBuffer
  split <;> rfl

@[simp] theorem map_orInvalid (x : Option γ) (k : γ → Prog α) :
    (orInvalid x k).map f = orInvalid x fun a => (k a).map f := by
  cases x <;> rfl

@[simp] theorem map_progDecU (b : Board) (p : List Byte) (k : Nat → Prog α) :
    (progDecU b p k).map f = progDecU b p fun v => (k v).map f := map_withinBuffer f b _ _

@[simp] theorem map_progDecS (b : Board) (p : List Byte) (k : Int → Prog α) :
    (progDecS b p k).map f = progDecS b p fun v => (k v).map f := by
  unfold progDecS
  split
  · rfl
  · exact map_withinBuffer f b _ _

@[simp] theorem map_sendFrame (frame : List Byte) (k : Status → Prog α) :
    (sendFrame frame k).map f = sendFrame frame fun st => (k st).map f := rfl

@[simp] theorem map_checkResponse (addr : Byte) (w : Nat) (k : List Byte → Prog α) (a : RecvAnswer) :
    (checkResponse addr w k a).map f = checkResponse addr w (fun p => (k p).map f) a := by
  cases a with
  | fail => rfl
  | got bs =>
    simp only [checkResponse]
    split_ifs <;> rfl

@[simp] theorem map_progRdReg (b : Board) (addr : Byte) (w : Nat) (k : List Byte → Prog α) :
    (progRdReg b addr w k).map f = progRdReg b addr w fun p => (k p).map f := by
  simp only [progRdReg, map_withinBuffer, map_sendFrame, apply_ite (Prog.map f), Prog.map, map_checkResponse]

@[simp] theorem map_progWrReg (b : Board) (addr : Byte) (p : List Byte) (k : Prog α) :
    (progWrReg b addr p k).map f = progWrReg b addr p (k.map f) := by
  simp only [progWrReg, map_withinBuffer, map_sendFrame, apply_ite (Prog.map f), map_raise]

@[simp] theorem map_progSendCmd (caddr code : Byte) (k : Prog α) :
    (progSendCmd caddr code k).map f = progSendCmd caddr code (k.map f) := by
  simp only [progSendCmd, map_sendFrame, apply_ite (Prog.map f), map_raise]

@[simp] theorem map_progRead (b : Board) (r : RegId) (k : List Byte → Prog α) :
    (progRead b r k).map f = progRead b r fun p => (k p).map f := by
  simp only [progRead, map_orInvalid, map_progRdReg]

@[simp] theorem map_progRmw (b : Board) (r : RegId) (mask value : RegVal) (k : Prog α) :
    (progRmw b r mask value k).map f = progRmw b r mask value (k.map f) := by
  simp only [progRmw, map_orInvalid, map_progRdReg, map_progDecU, map_progWrReg]

@[simp] theorem map_progDec (b : Board) (r : RegId) (p : List Byte) (k : Int → Prog α) :
    (progDec b r p k).map f = progDec b r p fun v => (k v).map f := by
  simp only [progDec, apply_ite (Prog.map f), map_progDecS, map_progDecU]

@[simp] theorem map_progLoadCoefs (b : Board) (order : List (CoefField × RegId)) (tmp : CoefSet)
    (k : CoefSet → Prog α) :
    (progLoadCoefs b order tmp k).map f = progLoadCoefs b order tmp fun cs => (k cs).map f := by
  induction order generalizing tmp with
  | nil => rfl
  | cons e rest ih => simp only [progLoadCoefs, map_progRead, map_progDecU, ih]

@[simp] theorem map_progApplyCal (b : Board) (rec : CalRec) (order : List (CalField × RegId)) (k : Prog α) :
    (progApplyCal b rec order k).map f = progApplyCal b rec order (k.map f) := by
  induction order with
  | nil => rfl
  | cons e rest ih => simp only [progApplyCal, map_orInvalid, map_progWrReg, ih]

@[simp] theorem map_progReads (b : Board) (rs : List RegId) (acc : List (RegId × List Byte × Int))
    (k : List (RegId × List Byte × Int) → Prog α) :
    (progReads b rs acc k).map f = progReads b rs acc fun xs => (k xs).map f := by
  induction rs generalizing acc with
  | nil => rfl
  | cons r rest ih => simp only [progReads, map_progRead, map_progDec, ih]

theorem progAfter_map (p : Prog α) (h : List Answer) : progAfter (p.map f) h = (progAfter p h).map f := by
  induction h generalizing p with
  | nil => cases p <;> rfl
  | cons x h ih =>
    cases p with
    | ret a => cases x <;> rfl
    | raise st => cases x <;> rfl
    | send frame k =>
      cases x with
      | send a => exact ih (k a)
      | recv a => rfl
    | recv n k =>
      cases x with
      | send a => rfl
      | recv a => exact ih (k a)

end Map

/-! ### The end of an operation -/

/-- What the end of its program's run makes of the state: the last part of `perform`. -/
def endOp : RunEnd (Result × Ctx) × State → State
  | (.done (r, c), t) => finishOp t ⟨.ok, r⟩ c
  | (.raised st, t) => finishOp t ⟨st, .none⟩ t.ctx
  | (.waiting, t) => t

theorem perform_eq_endOp (i : Instr) (p : Prog (Result × Ctx)) (s : State) :
    perform i p s = endOp (runProg (progAfter p s.seq.answers) { s with out := none, seq := s.seq.taken i }) := by
  unfold perform
  cases runProg (progAfter p s.seq.answers) { s with out := none, seq := s.seq.taken i } with
  | mk e t => cases e <;> rfl

/-! ### The state of another interface kind -/

/-- The context with interface kind `k`. -/
def Ctx.withKind (k : IfKind) (c : Ctx) : Ctx := { c with ifkind := k }

/-- The state with interface kind `k`. -/
def State.withKind (k : IfKind) (s : State) : State := { s with ctx := s.ctx.withKind k }

/-- What an operation returns, with interface kind `k` in its context. -/
def returnWithKind (k : IfKind) (x : Result × Ctx) : Result × Ctx := (x.1, x.2.withKind k)

/-- The outcome of an instruction, with interface kind `k` in the next state. -/
def outcomeWithKind (k : IfKind) : Host.Outcome State Fault Refusal → Host.Outcome State Fault Refusal
  | .next s => .next (s.withKind k)
  | .fault r => .fault r
  | .refused r => .refused r

section WithKind
variable (k : IfKind) (s : State)

theorem transSend_withKind (f : List Byte) :
    transSend f (s.withKind k) = (transSend f s).map fun x => (x.1, x.2.withKind k) := by
  cases h : s.sends with
  | nil => rw [transSend_nil h, transSend_nil (s := s.withKind k) h]; rfl
  | cons plan rest => rw [transSend_cons h, transSend_cons (s := s.withKind k) h]; rfl

theorem transRecv_withKind (n : Nat) :
    transRecv n (s.withKind k) = (transRecv n s).map fun x => (x.1, x.2.withKind k) := by
  cases h : s.recvs with
  | nil => rw [transRecv_nil h, transRecv_nil (s := s.withKind k) h]; rfl
  | cons plan rest => rw [transRecv_cons h, transRecv_cons (s := s.withKind k) h]; rfl

/-- A run reads no interface kind: it makes the same transactions and ends the same way. -/
theorem runProg_map_withKind {α β : Type} (f : α → β) (p : Prog α) :
    runProg (p.map f) (s.withKind k) = ((runProg p s).1.map f, (runProg p s).2.withKind k) := by
  induction p generalizing s with
  | ret a => rfl
  | raise st => rfl
  | send frame cont ih =>
    simp only [Prog.map, runProg, transSend_withKind]
    cases transSend frame s with
    | none => rfl
    | some x => exact ih x.1 x.2
  | recv n cont ih =>
    simp only [Prog.map, runProg, transRecv_withKind]
    cases transRecv n s with
    | none => rfl
    | some x => exact ih x.1 x.2

theorem finishOp_withKind (r : Response) (c : Ctx) :
    finishOp (s.withKind k) r (c.withKind k) = (finishOp s r c).withKind k := by
  by_cases h : s.seq.answers = []
  · rw [finishOp_of_no_answers s r c h, finishOp_of_no_answers (s.withKind k) r _ h]; rfl
  · rw [finishOp, finishOp, if_neg h, if_neg (show (s.withKind k).seq.answers ≠ [] from h)]; rfl

theorem endOp_withKind (e : RunEnd (Result × Ctx)) :
    endOp (e.map (returnWithKind k), s.withKind k) = (endOp (e, s)).withKind k := by
  cases e with
  | done x => exact finishOp_withKind k s ⟨.ok, x.1⟩ x.2
  | raised st => exact finishOp_withKind k s ⟨st, .none⟩ s.ctx
  | waiting => rfl

/-- An operation whose program under the other kind is the same but for the kind it returns. -/
theorem perform_withKind {i : Instr} {p q : Prog (Result × Ctx)} (hq : q = p.map (returnWithKind k)) :
    perform i q (s.withKind k) = (perform i p s).withKind k := by
  rw [perform_eq_endOp, perform_eq_endOp, ← endOp_withKind, ← runProg_map_withKind, ← progAfter_map, ← hq]
  rfl

theorem next_perform_withKind {i : Instr} {p q : Prog (Result × Ctx)} (hq : q = p.map (returnWithKind k)) :
    Host.Outcome.next (perform i q (s.withKind k)) = outcomeWithKind k (.next (perform i p s)) :=
  congrArg Host.Outcome.next (perform_withKind k s hq)

/-- The scaling functions are not given the interface kind (R120), so a conversion reads and returns the same. -/
theorem progConv_withKind (q : Quantity) :
    progConv (s.withKind k) q = (progConv s q).map (returnWithKind k) := by
  have hcoef : (s.withKind k).ctx.coef = s.ctx.coef := rfl
  unfold progConv
  rw [hcoef]
  cases s.ctx.coef with
  | notLoaded => rfl
  | loaded cs => rw [map_progReads]; rfl

/-- No instruction reads the interface kind, and none writes it. -/
theorem exec_withKind (i : Instr) : exec i (s.withKind k) = outcomeWithKind k (exec i s) := by
  cases i with
  | rq | wf | cf | rs | wren | wrdis | selA | selB | devreset => rfl
  | encRead | encWrite | encCmd | cksum | validate | rdReg | wrReg | sendCmd | reset | selCh | setRatio | getRatio
  | getPga | getSel | setPga | rmwField | loadCoef | applyCal | decU | decS =>
    refine next_perform_withKind k s ?_
    simp only [map_ret, map_withinBuffer, map_orInvalid, map_progRdReg, map_progWrReg, map_progSendCmd, map_progRmw,
      map_progLoadCoefs, map_progApplyCal, map_progDecU, map_progDecS]
    rfl
  | rdiv num den =>
    refine next_perform_withKind k s ?_
    rw [apply_ite (Prog.map _)]
    rfl
  | convRms ch => exact next_perform_withKind k s (by simp only [map_orInvalid, progConv_withKind])
  | convEnergy ch => exact next_perform_withKind k s (by simp only [map_orInvalid, progConv_withKind])
  | convPower ch =>
    simp only [exec, execConvPower]
    split
    · rfl
    · exact next_perform_withKind k s (by simp only [map_orInvalid, progConv_withKind])
  | convFreq => exact next_perform_withKind k s (progConv_withKind k s .freq)
  | convPf => exact next_perform_withKind k s (progConv_withKind k s .pf)
  | convPhase => exact next_perform_withKind k s (progConv_withKind k s .phase)

end WithKind

/-- Settles O59: the dispatch commutes with the change of the interface kind. -/
theorem interfaceKindIsReadByNoRule : Obligations.InterfaceKindIsReadByNoRule := by
  intro s t i k hnext
  calc exec i (s.withKind k)
      = outcomeWithKind k (exec i s) := exec_withKind k s i
    _ = .next (t.withKind k) := by rw [hnext]; rfl

end Sys2Proof.Machine
end

section
/-! The instructions by the port they are received at: a frame to the device and a response are an arrival, and an
operation runs one program, which the response of the operation before it is no part of. -/

namespace Sys2Proof.Machine

/-! ### What an instruction is, by its port -/

/-- A frame to the device, whichever its row, is the arrival of its bytes. -/
theorem exec_of_port_down {i : Instr} (h : i.port = .down) (s : State) : ∃ f, exec i s = .next (frameArrives f s) := by
  cases i with
  | rq | wf | cf | wren | wrdis | selA | selB | devreset => exact ⟨_, rfl⟩
  | _ => cases h

/-- A response is the arrival of its bytes. -/
theorem exec_of_port_up {i : Instr} (h : i.port = .up) (s : State) : ∃ bs, exec i s = .next (responseArrives bs s) := by
  cases i with
  | rs => exact ⟨_, rfl⟩
  | _ => cases h

theorem isOperation_iff (i : Instr) : isOperation i = true ↔ i.port = .host ∧ i ≠ .convPower 2 := by
  simp [isOperation]

/-- Only `CONV_POWER(S)` has no next state at the host port (U2). -/
theorem isOperation_of_next {i : Instr} {s t : State} (hport : i.port = .host) (h : exec i s = .next t) :
    isOperation i = true :=
  (isOperation_iff i).2 ⟨hport, by rintro rfl; cases h⟩

/-- An operation runs one program, which depends on nothing of the state but the parameters, the context and the
draws. -/
theorem exec_same_program {i : Instr} (hi : isOperation i = true) (s : State) :
    ∃ p, exec i s = .next (perform i p s) ∧
      ∀ u : State, u.board = s.board → u.ctx = s.ctx → u.draws = s.draws → exec i u = .next (perform i p u) := by
  obtain ⟨hport, hne⟩ := (isOperation_iff i).1 hi
  cases i with
  | rq | wf | cf | rs | wren | wrdis | selA | selB | devreset => cases hport
  | convPower ch =>
    have hch : ch ≠ 2 := fun h => hne (h ▸ rfl)
    refine ⟨_, if_neg hch, ?_⟩
    rintro ⟨⟩ ⟨⟩ ⟨⟩ ⟨⟩
    exact if_neg hch
  | _ =>
    refine ⟨_, rfl, ?_⟩
    rintro ⟨⟩ ⟨⟩ ⟨⟩ ⟨⟩
    rfl

/-- Settles O38: a frame to the device is `deviceReceive` of its bytes, which keeps what the statement names. -/
theorem framesToTheDeviceLeaveTheBlock : Obligations.FramesToTheDeviceLeaveTheBlock := by
  intro s i hport
  obtain ⟨f, h⟩ := exec_of_port_down hport s
  have keeps := deviceReceive_keeps s.board.val s.dev f
  exact ⟨_, h, keeps.outOfRange, keeps.memory, keeps.line⟩

theorem perform_out (i : Instr) (p : Prog (Result × Ctx)) (s : State) (r : Option Response) :
    perform i p { s with out := r } = perform i p s := rfl

/-- Settles O60: `perform` clears the response before it runs the program. -/
theorem previousResponseHasNoEffect : Obligations.PreviousResponseHasNoEffect := by
  intro s i r hport
  by_cases hne : i = .convPower 2
  · subst hne; rfl
  · have hi := (isOperation_iff i).2 ⟨hport, hne⟩
    obtain ⟨p, hs, hsame⟩ := exec_same_program hi s
    rw [hs, hsame { s with out := r } rfl rfl rfl, perform_out]

end Sys2Proof.Machine
end

section
/-! What the programs of the operations can come to, each operation once: the frames and byte counts of `ComesTo`,
the statuses of its row of the table after R132, and the context of `CtxAfter`. -/

namespace Sys2Proof.Machine

/-! ### What the conditions of a configuration give -/

theorem mem_of_lookup_eq_some {α β : Type} [BEq α] [LawfulBEq α] {m : List (α × β)} {k : α} {x : β}
    (h : m.lookup k = some x) : (k, x) ∈ m := by
  obtain ⟨l, r, rfl, _⟩ := List.lookup_eq_some_iff.1 h
  simp

/-- The conditions of `Board.wf` that the operations rest on. -/
structure Conditions (b : Board) : Prop where
  width : ∀ {r e}, b.entry r = some e → e.width ≤ b.nmax
  gains : b.gains ≠ []
  cal : ∀ x ∈ b.calOrder, ∃ e, b.entry x.2 = some e
  coef : ∀ x ∈ b.coefOrder, ∃ e, b.entry x.2 = some e
  quantity : ∀ q, ∀ r ∈ b.regsOf q, ∃ e, b.entry r = some e ∧ (b.isSigned r = true → 1 ≤ e.width)

theorem entry_of_hasWidthTwo {b : Board} {r : RegId} (h : b.hasWidthTwo r = true) : ∃ e, b.entry r = some e := by
  unfold Board.hasWidthTwo at h
  split at h
  · exact ⟨_, ‹_›⟩
  · cases h

theorem width_pos_of_hasSignBit {b : Board} {r : RegId} {e : RegEntry} (he : b.entry r = some e)
    (h : b.hasSignBit r = true) : 1 ≤ e.width := by
  simpa only [Board.hasSignBit, he, decide_eq_true_eq] using h

theorem entry_of_quantityWf {b : Board} {q : Quantity} (h : b.quantityWf q = true) :
    ∀ r ∈ b.regsOf q, ∃ e, b.entry r = some e ∧ (b.isSigned r = true → 1 ≤ e.width) := by
  intro r hr
  simp only [Board.quantityWf, Bool.and_eq_true, List.all_eq_true, Bool.or_eq_true, Bool.not_eq_true'] at h
  obtain ⟨hsome, hsign⟩ := h.2 r hr
  obtain ⟨e, he⟩ := Option.isSome_iff_exists.1 hsome
  refine ⟨e, he, fun hs => width_pos_of_hasSignBit he (hsign.resolve_left ?_)⟩
  simp [hs]

theorem mem_quantityAll (q : Quantity) : q ∈ Quantity.all := by
  rcases q with (_ | _ | _) | (_ | _) | (_ | _) | _ | _ | _ <;> decide

/-- A configuration meets them, since `WfBoard` holds no other. -/
theorem conditions (b : WfBoard) : Conditions b.val := by
  obtain ⟨b, hb⟩ := b
  simp only [Board.wf, Bool.and_eq_true, and_assoc, List.all_eq_true] at hb
  obtain ⟨-, -, table, -, -, gains, -, -, -, -, -, -, -, cal, -, -, coef, quantity⟩ := hb
  refine ⟨fun {r e} he => ?_, ?_, fun x hx => Option.isSome_iff_exists.1 (cal x hx),
    fun x hx => entry_of_hasWidthTwo (coef x hx), fun q => entry_of_quantityWf (quantity q (mem_quantityAll q))⟩
  · have := table _ (mem_of_lookup_eq_some he)
    simp only [RegEntry.wf, Bool.and_eq_true, decide_eq_true_eq] at this
    exact this.2
  · simpa using gains

/-! ### What the shared programs can come to -/

/-- The statuses a read of a register of the table can raise (R81). -/
def readStatuses : List Status := [.ioError, .ioMissingBytes, .checksumMismatch]

section Programs
variable {α β : Type} {b : WfBoard} {pv : α → Prop} {ps : Status → Prop}

/-- A program whose frames and byte counts fit the buffers, by what it can return and raise. -/
abbrev ComesTo (b : WfBoard) (pv : α → Prop) (ps : Status → Prop) : Prog α → Prop :=
  ProgAll pv ps (frameOk b.val.nmax) (countOk b.val.nmax)

theorem comesTo_withinBuffer {n : Nat} {k : Prog α} (hb : b.val.nmax < n → ps .bufferTooSmall)
    (hk : ComesTo b pv ps k) : ComesTo b pv ps (withinBuffer b.val n k) := by
  unfold withinBuffer
  split
  · exact hb ‹_›
  · exact hk

theorem comesTo_orInvalid {x : Option β} {k : β → Prog α} (hn : x = none → ps .invalidParam)
    (hk : ∀ a, x = some a → ComesTo b pv ps (k a)) : ComesTo b pv ps (orInvalid x k) := by
  cases x with
  | none => exact hn rfl
  | some a => exact hk a rfl

theorem comesTo_decS {p : List Byte} {k : Int → Prog α} (hz : p.length = 0 → ps .invalidParam)
    (hb : b.val.nmax < p.length → ps .bufferTooSmall) (hk : ComesTo b pv ps (k (beInt p))) :
    ComesTo b pv ps (progDecS b.val p k) := by
  unfold progDecS
  split
  · exact hz ‹_›
  · exact comesTo_withinBuffer hb hk

theorem comesTo_dec {r : RegId} {p : List Byte} {k : Int → Prog α} (hz : b.val.isSigned r = true → 1 ≤ p.length)
    (hp : p.length ≤ b.val.nmax) (hk : ∀ v, ComesTo b pv ps (k v)) : ComesTo b pv ps (progDec b.val r p k) := by
  unfold progDec
  split
  · rename_i hs
    have := hz hs
    exact comesTo_decS (by omega) (by omega) (hk _)
  · exact comesTo_withinBuffer (by omega) (hk _)

/-- A read of a register of the table never overflows the buffers, which its width fits. -/
theorem comesTo_readEntry {r : RegId} {e : RegEntry} {k : List Byte → Prog α} (he : b.val.entry r = some e)
    (hr : ∀ st ∈ readStatuses, ps st)
    (hk : ∀ p : List Byte, p.length = e.width → p.length ≤ b.val.nmax → ComesTo b pv ps (k p)) :
    ComesTo b pv ps (progRdReg b.val e.raddr e.width k) := by
  have := (conditions b).width he
  exact progAll_rdReg (by omega) (hr _ (by decide)) (hr _ (by decide)) (hr _ (by decide))
    fun p hp hw => hk p hp (by omega)

theorem comesTo_read {r : RegId} {e : RegEntry} {k : List Byte → Prog α} (he : b.val.entry r = some e)
    (hr : ∀ st ∈ readStatuses, ps st)
    (hk : ∀ p : List Byte, p.length = e.width → p.length ≤ b.val.nmax → ComesTo b pv ps (k p)) :
    ComesTo b pv ps (progRead b.val r k) := by
  rw [progRead, he, orInvalid_some]
  exact comesTo_readEntry he hr hk

theorem length_serBytes (v w : Nat) : (serBytes v w).length = w := by simp [serBytes]

/-- A write of a value to a register of the table. -/
theorem comesTo_writeEntry {r : RegId} {e : RegEntry} {v : Nat} {k : Prog α} (he : b.val.entry r = some e)
    (hi : ps .ioError) (hk : ComesTo b pv ps k) :
    ComesTo b pv ps (progWrReg b.val e.raddr (serBytes v e.width) k) := by
  have := (conditions b).width he
  exact progAll_wrReg (by rw [length_serBytes]; omega) hi hk

theorem comesTo_rmw {r : RegId} {mask value : RegVal} {k : Prog α} (hn : ps .invalidParam)
    (hr : ∀ st ∈ readStatuses, ps st) (hk : ComesTo b pv ps k) :
    ComesTo b pv ps (progRmw b.val r mask value k) := by
  refine comesTo_orInvalid (fun _ => hn) fun e he => comesTo_readEntry he hr fun p _ hp => ?_
  exact comesTo_withinBuffer (by omega) (comesTo_writeEntry he (hr _ (by decide)) hk)

theorem comesTo_loadCoefs {order : List (CoefField × RegId)} {tmp : CoefSet} {k : CoefSet → Prog α}
    (ho : ∀ x ∈ order, ∃ e, b.val.entry x.2 = some e) (hr : ∀ st ∈ readStatuses, ps st)
    (hk : ∀ cs, ComesTo b pv ps (k cs)) : ComesTo b pv ps (progLoadCoefs b.val order tmp k) := by
  induction order generalizing tmp with
  | nil => exact hk tmp
  | cons x rest ih =>
    obtain ⟨e, he⟩ := ho x List.mem_cons_self
    refine comesTo_read he hr fun p _ hp => comesTo_withinBuffer (by omega) ?_
    exact ih fun y hy => ho y (List.mem_cons_of_mem _ hy)

theorem comesTo_applyCal {rec : CalRec} {order : List (CalField × RegId)} {k : Prog α}
    (ho : ∀ x ∈ order, ∃ e, b.val.entry x.2 = some e) (hi : ps .ioError) (hk : ComesTo b pv ps k) :
    ComesTo b pv ps (progApplyCal b.val rec order k) := by
  induction order with
  | nil => exact hk
  | cons x rest ih =>
    obtain ⟨e, he⟩ := ho x List.mem_cons_self
    rw [progApplyCal, he, orInvalid_some]
    exact comesTo_writeEntry he hi (ih fun y hy => ho y (List.mem_cons_of_mem _ hy))

theorem comesTo_reads {rs : List RegId} {acc : List (RegId × List Byte × Int)}
    {k : List (RegId × List Byte × Int) → Prog α}
    (ho : ∀ r ∈ rs, ∃ e, b.val.entry r = some e ∧ (b.val.isSigned r = true → 1 ≤ e.width))
    (hr : ∀ st ∈ readStatuses, ps st) (hk : ∀ xs, ComesTo b pv ps (k xs)) :
    ComesTo b pv ps (progReads b.val rs acc k) := by
  induction rs generalizing acc with
  | nil => exact hk acc
  | cons r rest ih =>
    obtain ⟨e, he, hsign⟩ := ho r List.mem_cons_self
    refine comesTo_read he hr fun p hlen hp => comesTo_dec (fun hs => hlen ▸ hsign hs) hp fun v => ?_
    exact ih fun y hy => ho y (List.mem_cons_of_mem _ hy)

end Programs

/-- A conversion needs a loaded cache and may fail as its reads may; it leaves the context. -/
theorem comesTo_conv {s : State} {q : Quantity} {ps : Status → Prop} (hd : ps .invalidData)
    (hr : ∀ st ∈ readStatuses, ps st) :
    ComesTo s.board (fun x => x.2 = s.ctx) ps (progConv s q) := by
  unfold progConv
  split
  · exact hd
  · exact comesTo_reads ((conditions s.board).quantity q) hr fun _ => rfl

/-! ### What an operation can come to -/

/-- What an operation that ends with `OK` can make of the context `c`: four of them write one field each
(R19 to R22). -/
def CtxAfter (b : Board) (c : Ctx) : Instr → Ctx → Prop
  | .selCh _, c' => ∃ ch, c' = { c with sel := ch }
  | .setRatio _ _ _, c' =>
    ∃ r : Ratio3, r.k1A.wf = true ∧ r.k1B.wf = true ∧ r.k2.wf = true ∧ c' = { c with ratio := r }
  | .loadCoef, c' => ∃ cs, c' = { c with coef := .loaded cs }
  | .setPga _ _, c' => ∃ g ∈ b.gains.map Prod.fst, ∃ ch, c' = { c with pga := setGain c.pga g ch }
  | _, c' => c' = c

theorem reduce_wf {n d : Nat} (hn : 0 < n) (hd : 0 < d) : (Ratio.reduce n d).wf = true := by
  have hg : 0 < Nat.gcd n d := Nat.gcd_pos_of_pos_left d hn
  simp only [Ratio.wf, Ratio.reduce, Bool.and_eq_true, beq_iff_eq]
  exact ⟨⟨decide_eq_true (Nat.div_pos (Nat.gcd_le_left d hn) hg),
    decide_eq_true (Nat.div_pos (Nat.gcd_le_right n hd) hg)⟩, Nat.coprime_div_gcd_div_gcd hg⟩

theorem ratioOf_wf {r : RawRatio} {x : Ratio} (h : ratioOf r = some x) : x.wf = true := by
  unfold ratioOf at h
  split at h
  · rename_i hpos
    obtain ⟨hn, hd⟩ := hpos
    cases h
    exact reduce_wf (by omega) hd
  · cases h

/-- The program of every operation: its frames and byte counts fit the buffers, it raises statuses of its row of
the table after R132, and the context it returns is as `CtxAfter` says. -/
theorem exec_program {i : Instr} (hi : isOperation i = true) (s : State) :
    ∃ p, exec i s = .next (perform i p s) ∧
      ComesTo s.board (fun x => CtxAfter s.board.val s.ctx i x.2) (· ∈ allowedStatuses i) p := by
  obtain ⟨hport, hne⟩ := (isOperation_iff i).1 hi
  cases i with
  | rq | wf | cf | rs | wren | wrdis | selA | selB | devreset => cases hport
  | encRead | encCmd | getRatio | getSel => exact ⟨_, rfl, rfl⟩
  | cksum | encWrite | validate | decU =>
    exact ⟨_, rfl, comesTo_withinBuffer (fun _ => by simp [allowedStatuses]) rfl⟩
  | decS =>
    exact ⟨_, rfl, comesTo_decS (fun _ => by simp [allowedStatuses]) (fun _ => by simp [allowedStatuses]) rfl⟩
  | rdiv num den =>
    refine ⟨_, rfl, ?_⟩
    split
    · simp [ComesTo, ProgAll, allowedStatuses]
    · exact rfl
  | rdReg =>
    exact ⟨_, rfl, progAll_rdReg (fun _ => by simp [allowedStatuses]) (by simp [allowedStatuses])
      (by simp [allowedStatuses]) (by simp [allowedStatuses]) fun _ _ _ => rfl⟩
  | wrReg => exact ⟨_, rfl, progAll_wrReg (fun _ => by simp [allowedStatuses]) (by simp [allowedStatuses]) rfl⟩
  | sendCmd | reset => exact ⟨_, rfl, progAll_sendCmd (by simp [allowedStatuses]) rfl⟩
  | selCh =>
    exact ⟨_, rfl, comesTo_orInvalid (fun _ => by simp [allowedStatuses]) fun c _ =>
      progAll_sendCmd (by simp [allowedStatuses]) ⟨c, rfl⟩⟩
  | setRatio =>
    refine ⟨_, rfl, comesTo_orInvalid (fun _ => by simp [allowedStatuses]) fun k1A hA => ?_⟩
    refine comesTo_orInvalid (fun _ => by simp [allowedStatuses]) fun k1B hB => ?_
    refine comesTo_orInvalid (fun _ => by simp [allowedStatuses]) fun k2 h2 => ?_
    exact ⟨⟨k1A, k1B, k2⟩, ratioOf_wf hA, ratioOf_wf hB, ratioOf_wf h2, rfl⟩
  | getPga =>
    exact ⟨_, rfl, comesTo_orInvalid (fun _ => by simp [allowedStatuses]) fun _ _ => rfl⟩
  | setPga ch g =>
    refine ⟨_, rfl, comesTo_orInvalid (fun _ => by simp [allowedStatuses]) fun c _ => ?_⟩
    refine comesTo_orInvalid (fun _ => by simp [allowedStatuses]) fun code hg => ?_
    refine comesTo_rmw (by simp [allowedStatuses]) (by simp [allowedStatuses, readStatuses]) ?_
    exact ⟨g, List.mem_map_of_mem (mem_of_lookup_eq_some hg), c, rfl⟩
  | rmwField =>
    exact ⟨_, rfl, comesTo_rmw (by simp [allowedStatuses]) (by simp [allowedStatuses, readStatuses]) rfl⟩
  | loadCoef =>
    exact ⟨_, rfl, comesTo_loadCoefs (conditions s.board).coef (by simp [allowedStatuses, readStatuses]) fun cs =>
      ⟨cs, rfl⟩⟩
  | applyCal =>
    exact ⟨_, rfl, comesTo_applyCal (conditions s.board).cal (by simp [allowedStatuses]) rfl⟩
  | convRms | convEnergy =>
    exact ⟨_, rfl, comesTo_orInvalid (fun _ => by simp [allowedStatuses]) fun _ _ =>
      comesTo_conv (by simp [allowedStatuses]) (by simp [allowedStatuses, readStatuses])⟩
  | convPower ch =>
    have hch : ch ≠ 2 := fun h => hne (h ▸ rfl)
    exact ⟨_, if_neg hch, comesTo_orInvalid (fun _ => by simp [allowedStatuses]) fun _ _ =>
      comesTo_conv (by simp [allowedStatuses]) (by simp [allowedStatuses, readStatuses])⟩
  | convFreq | convPf | convPhase =>
    exact ⟨_, rfl, comesTo_conv (by simp [allowedStatuses]) (by simp [allowedStatuses, readStatuses])⟩

end Sys2Proof.Machine
end

section
/-! What an operation can come to, from its beginning or from where its answered transactions left it. -/

namespace Sys2Proof.Machine

/-! ### From the program to the outcome -/

/-- The state an operation's program runs from when the operation begins or is taken up again. -/
def resumed (i : Instr) (s : State) : State := { s with out := none, seq := s.seq.taken i }

/-- An operation whose program has these properties ends with one of its values, with one of its statuses and the
context as it was, or waits; a property of the state that its transactions keep holds of the state it ended from or
waits in. -/
theorem perform_all {i : Instr} {p : Prog (Result × Ctx)} {s : State} {pv : Result × Ctx → Prop} {ps : Status → Prop}
    {pf : List Byte → Prop} {pn : Nat → Prop} {I : State → Prop} (hp : ProgAll pv ps pf pn p)
    (hwait : ∀ f s, pf f → I s → I (presentSend f s))
    (hsend : ∀ f s a t, pf f → I s → transSend f s = some (a, t) → I t)
    (hrecv : ∀ n s a t, pn n → I s → transRecv n s = some (a, t) → I t) (hs : I (resumed i s)) :
    ∃ u, RunKeeps (resumed i s) u ∧ I u ∧
      ((∃ r c, pv (r, c) ∧ perform i p s = finishOp u ⟨.ok, r⟩ c) ∨
       (∃ st, ps st ∧ perform i p s = finishOp u ⟨st, .none⟩ s.ctx) ∨ perform i p s = u) := by
  obtain ⟨e, u, hrun, keeps, hcases⟩ := perform_cases i p s
  have hall := runProg_all hwait hsend hrecv _ (progAfter_all s.seq.answers p hp) (resumed i s) hs
  rw [resumed, hrun] at hall
  obtain ⟨hend, hu⟩ := hall
  refine ⟨u, keeps, hu, ?_⟩
  rcases hcases with ⟨r, c, rfl, h⟩ | ⟨st, rfl, h⟩ | ⟨rfl, h, _⟩
  · exact .inl ⟨r, c, hend, h⟩
  · exact .inr (.inl ⟨st, hend, h⟩)
  · exact .inr (.inr h)

/-- The outcome of an operation, taken up at any point: it ended with `OK` and the context its row allows, it ended
with a status of its row and the context as it was, or it waits for the transport. -/
theorem exec_outcome {i : Instr} {s t : State} (hport : i.port = .host) (h : exec i s = .next t) :
    PortsKept s t ∧
      ((∃ r, t.out = some ⟨.ok, r⟩ ∧ Idle t ∧ CtxAfter s.board.val s.ctx i t.ctx) ∨
       (∃ st ∈ allowedStatuses i, t.out = some ⟨st, .none⟩ ∧ Idle t ∧ t.ctx = s.ctx) ∨
       (t.out = none ∧ t.seq.op = some i ∧ t.ctx = s.ctx)) := by
  obtain ⟨p, hexec, hp⟩ := exec_program (isOperation_of_next hport h) s
  cases hexec.symm.trans h
  refine ⟨perform_portsKept i p s, ?_⟩
  obtain ⟨u, keeps, -, hcases⟩ := perform_all (i := i) (s := s) (I := fun _ => True) hp (fun _ _ _ _ => trivial)
    (fun _ _ _ _ _ _ _ => trivial) (fun _ _ _ _ _ _ _ => trivial) trivial
  rcases hcases with ⟨r, c, hc, h⟩ | ⟨st, hst, h⟩ | h <;> rw [h]
  · exact .inl ⟨r, finishOp_out .., finishOp_seq .., by rwa [finishOp_ctx]⟩
  · exact .inr (.inl ⟨st, hst, finishOp_out .., finishOp_seq .., finishOp_ctx ..⟩)
  · exact .inr (.inr ⟨keeps.out, keeps.op, keeps.ctx⟩)

/-- A context field has one writer: an operation that is not the field's leaves it. -/
theorem ctxAfter_keeps {b : Board} {c c' : Ctx} {i : Instr} (h : CtxAfter b c i c') :
    c'.ifkind = c.ifkind ∧ ((∀ ch, i ≠ .selCh ch) → c'.sel = c.sel) ∧
    ((∀ a b c, i ≠ .setRatio a b c) → c'.ratio = c.ratio) ∧ (i ≠ .loadCoef → c'.coef = c.coef) ∧
    ((∀ ch g, i ≠ .setPga ch g) → c'.pga = c.pga) := by
  cases i with
  | selCh ch => obtain ⟨x, rfl⟩ := h; exact ⟨rfl, fun h => absurd rfl (h ch), fun _ => rfl, fun _ => rfl, fun _ => rfl⟩
  | setRatio x y z =>
    obtain ⟨r, -, -, -, rfl⟩ := h
    exact ⟨rfl, fun _ => rfl, fun h => absurd rfl (h x y z), fun _ => rfl, fun _ => rfl⟩
  | loadCoef => obtain ⟨cs, rfl⟩ := h; exact ⟨rfl, fun _ => rfl, fun _ => rfl, fun h => absurd rfl h, fun _ => rfl⟩
  | setPga ch g =>
    obtain ⟨x, -, y, rfl⟩ := h
    exact ⟨rfl, fun _ => rfl, fun _ => rfl, fun _ => rfl, fun h => absurd rfl (h ch g)⟩
  | _ =>
    cases h
    exact ⟨rfl, fun _ => rfl, fun _ => rfl, fun _ => rfl, fun _ => rfl⟩

/-- Settles O58: an arrival changes no context, and an operation only as `CtxAfter` says. -/
theorem contextFieldsHaveOneWriter : Obligations.ContextFieldsHaveOneWriter := by
  intro s t i h
  cases hport : i.port with
  | down =>
    obtain ⟨f, hf⟩ := exec_of_port_down hport s
    cases hf.symm.trans h
    exact ⟨⟨rfl, rfl, rfl, rfl⟩, rfl, fun _ => rfl, fun _ => rfl, fun _ => rfl, fun _ => rfl⟩
  | up =>
    obtain ⟨bs, hbs⟩ := exec_of_port_up hport s
    cases hbs.symm.trans h
    exact ⟨⟨rfl, rfl, rfl, rfl⟩, rfl, fun _ => rfl, fun _ => rfl, fun _ => rfl, fun _ => rfl⟩
  | host =>
    obtain ⟨ports, ⟨-, -, -, hc⟩ | ⟨-, -, -, -, hc⟩ | ⟨-, -, hc⟩⟩ := exec_outcome hport h
    · exact ⟨ports, ctxAfter_keeps hc⟩
    · rw [hc]; exact ⟨ports, rfl, fun _ => rfl, fun _ => rfl, fun _ => rfl, fun _ => rfl⟩
    · rw [hc]; exact ⟨ports, rfl, fun _ => rfl, fun _ => rfl, fun _ => rfl, fun _ => rfl⟩

end Sys2Proof.Machine
end

section
/-! The invariant of the machine: at reset, under each named update of the state, along a run, and under the
step. -/

namespace Sys2Proof.Machine

/-! ### A drawn context -/

theorem gainAt_mem (b : WfBoard) (n : Nat) : gainAt b n ∈ b.val.gains.map Prod.fst := by
  have hpos : 0 < b.val.gains.length := List.length_pos_iff.2 (conditions b).gains
  have hlt : n % b.val.gains.length < (b.val.gains.map Prod.fst).length := by
    rw [List.length_map]; exact Nat.mod_lt _ hpos
  rw [gainAt, List.getElem?_eq_getElem hlt, Option.getD_some]
  exact List.getElem_mem hlt

theorem ratioAt_wf (p : Nat × Nat) : (ratioAt p).wf = true := reduce_wf (Nat.succ_pos _) (Nat.succ_pos _)

theorem ctxOk_drawnCtx (b : WfBoard) (d : ContextDraw) (coef : CoefCache) (k : IfKind) :
    ctxOk b (drawnCtx b d coef k) :=
  ⟨gainAt_mem b _, gainAt_mem b _, gainAt_mem b _, ratioAt_wf _, ratioAt_wf _, ratioAt_wf _⟩

theorem length_drawnTx_le (b : WfBoard) (n : Nat) : (drawnTx b n).length ≤ b.val.nmax + 3 := List.length_take_le _ _

theorem length_drawnRx_le (b : WfBoard) (n : Nat) : (drawnRx b n).length ≤ b.val.nmax + 1 := List.length_take_le _ _

/-! ### The invariant under the state's operations -/

/-- Settles O54: the drawn fields are within their types, and the rest is empty. -/
theorem invariantHoldsAtReset : Obligations.InvariantHoldsAtReset where
  context := ctxOk_drawnCtx _ _ _ _
  memory := rfl
  transmit := length_drawnTx_le _ _
  receive := length_drawnRx_le _ _
  sequencer := fun _ => rfl
  transactions := fun _ h => nomatch h
  response := fun _ h => nomatch h

section Inv
variable {s : State} (h : Inv s)
include h

/-- The invariant says nothing about what waits at the ports. -/
theorem Inv.withPorts (host : List HostItem) (world : List WorldItem) (sends : List SendAnswer)
    (recvs : List RecvPlan) : Inv { s with host := host, world := world, sends := sends, recvs := recvs } :=
  ⟨h.context, h.memory, h.transmit, h.receive, h.sequencer, h.transactions, h.response⟩

/-- Of the device it says that the register memory is canonical. -/
theorem Inv.withDevice {d : Device} (hd : d.reg.wf = true) : Inv { s with dev := d } :=
  ⟨h.context, hd, h.transmit, h.receive, h.sequencer, h.transactions, h.response⟩

theorem inv_frameArrives (f : List Byte) : Inv (frameArrives f s) :=
  h.withDevice ((deviceReceive_keeps _ _ _).memory h.memory)

theorem inv_responseArrives (bs : List Byte) : Inv (responseArrives bs s) :=
  (h.withPorts s.host s.world s.sends (s.recvs ++ [RecvPlan.line])).withDevice
    (d := { s.dev with line := s.dev.line ++ bs }) h.memory

theorem inv_respondUnknown : Inv (respondUnknown s) where
  __ := h
  response := by
    rintro r hr
    cases hr
    exact ⟨fun _ => rfl, by decide, by decide⟩

theorem inv_powerCycled : Inv (powerCycled s) := h.withDevice rfl

theorem inv_deviceSettled : Inv (deviceSettled s) := h.withDevice h.memory

theorem deviceAbandoned_wf : (deviceAbandoned s).reg.wf = true := by
  cases hp : s.seq.pending with
  | none => rw [deviceAbandoned_none hp]; exact h.memory
  | some f => rw [deviceAbandoned_some hp]; exact (deviceLost_keeps _ _ _).memory h.memory

/-- What creation and destruction have in common: the block idle, its fields drawn, the operation given up. -/
theorem inv_drawnBlock (d : ContextDraw) (coef : CoefCache) (k : IfKind) (created : Bool) (n : Nat) :
    Inv { s with
      seq := Seq.idle, ctx := drawnCtx s.board d coef k, tx := drawnTx s.board n, rx := drawnRx s.board n
      created := created, out := none, dev := deviceAbandoned s, draws := n + 1 } where
  context := ctxOk_drawnCtx _ _ _ _
  memory := deviceAbandoned_wf h
  transmit := length_drawnTx_le _ _
  receive := length_drawnRx_le _ _
  sequencer := fun _ => rfl
  transactions := h.transactions
  response := fun _ hr => nomatch hr

theorem inv_createContext (k : IfKind) : Inv (createContext k s) := inv_drawnBlock h _ _ _ _ _

theorem inv_destroyContext : Inv (destroyContext s) := inv_drawnBlock h _ _ _ _ _

theorem inv_resumed (i : Instr) : Inv (resumed i s) where
  __ := h
  sequencer := fun hop => nomatch hop
  response := fun _ hr => nomatch hr

theorem inv_finishOp {r : Response} {c : Ctx} (hr : responseOk r) (hc : ctxOk s.board c) :
    Inv (finishOp s r c) where
  context := by rwa [finishOp_board, finishOp_ctx]
  memory := by rw [finishOp_dev]; exact h.memory
  transmit := by rw [finishOp_board]; exact finishOp_tx_length _ _ _ h.transmit
  receive := by rw [finishOp_board]; exact finishOp_rx_length _ _ _ h.receive
  sequencer := fun _ => finishOp_seq _ _ _
  transactions := by rw [finishOp_log, finishOp_board]; exact h.transactions
  response := by
    intro r' hr'
    rw [finishOp_out] at hr'
    cases hr'
    exact hr

end Inv

/-! ### The invariant along a run -/

theorem eventOk_send {b : Board} {f : List Byte} (hf : frameOk b.nmax f) (plan : SendAnswer) :
    eventOk b (.send f (sendAnswerOf f.length plan)) := by
  obtain ⟨hhead, hmin, hmax⟩ := hf
  refine ⟨hhead, hmin, hmax, fun n hn => ?_⟩
  cases plan with
  | sent m => cases hn; exact Nat.min_le_right _ _
  | fail => cases hn

theorem eventOk_recv {b : Board} {n : Nat} (hn : countOk b.nmax n) (line : List Byte) (plan : RecvPlan) :
    eventOk b (.recv n (recvAnswerOf n line plan).1) :=
  ⟨hn.1, hn.2, recvAnswerOf_le n line plan⟩

/-- The invariant while operation `i` is in progress, under the parameters it began with. -/
def InvDuring (b : WfBoard) (i : Instr) (s : State) : Prop := Inv s ∧ s.board = b ∧ s.seq.op = some i

section Run
variable {b : WfBoard} {i : Instr} {s t : State}

theorem invDuring_presentSend {f : List Byte} (hf : frameOk b.val.nmax f) (h : InvDuring b i s) :
    InvDuring b i (presentSend f s) := by
  obtain ⟨hs, rfl, hop⟩ := h
  refine ⟨{ hs with transmit := hf.2.2, sequencer := fun hnone => ?_ }, rfl, hop⟩
  rw [presentSend_op, hop] at hnone
  cases hnone

theorem invDuring_transSend {f : List Byte} {a : SendAnswer} (hf : frameOk b.val.nmax f) (h : InvDuring b i s)
    (ht : transSend f s = some (a, t)) : InvDuring b i t := by
  have keeps := transSend_keeps ht
  obtain ⟨hs, rfl, hop⟩ := h
  have hop' : t.seq.op = some i := keeps.op.trans hop
  obtain ⟨plan, rest, -, rfl, rfl⟩ := transSend_some ht
  refine ⟨?_, rfl, hop'⟩
  exact
    { context := hs.context
      memory := (sendEffect_keeps s f _).memory hs.memory
      transmit := hf.2.2
      receive := hs.receive
      sequencer := fun hnone => nomatch hnone.symm.trans hop'
      transactions := List.forall_mem_append.2 ⟨hs.transactions, List.forall_mem_singleton.2 (eventOk_send hf plan)⟩
      response := hs.response }

theorem length_rxAfter_le {n : Nat} {a : RecvAnswer} (ha : ∀ bs, a = .got bs → bs.length ≤ n) (hn : n ≤ b.val.nmax + 1)
    (hrx : s.rx.length ≤ b.val.nmax + 1) : (rxAfter s a).length ≤ b.val.nmax + 1 := by
  cases a with
  | fail => exact hrx
  | got bs => exact (ha bs rfl).trans hn

theorem invDuring_transRecv {n : Nat} {a : RecvAnswer} (hn : countOk b.val.nmax n) (h : InvDuring b i s)
    (ht : transRecv n s = some (a, t)) : InvDuring b i t := by
  have keeps := transRecv_keeps ht
  obtain ⟨hs, rfl, hop⟩ := h
  have hop' : t.seq.op = some i := keeps.op.trans hop
  obtain ⟨plan, rest, -, rfl, rfl⟩ := transRecv_some ht
  refine ⟨?_, rfl, hop'⟩
  exact
    { context := hs.context
      memory := hs.memory
      transmit := hs.transmit
      receive := length_rxAfter_le (recvAnswerOf_le n _ plan) hn.2 hs.receive
      sequencer := fun hnone => nomatch hnone.symm.trans hop'
      transactions := List.forall_mem_append.2 ⟨hs.transactions, List.forall_mem_singleton.2 (eventOk_recv hn _ plan)⟩
      response := hs.response }

end Run

theorem ctxOk_setGain {b : WfBoard} {c : Ctx} {g : Nat} (hc : ctxOk b c) (hg : g ∈ b.val.gains.map Prod.fst)
    (ch : Ch3) : ctxOk b { c with pga := setGain c.pga g ch } := by
  obtain ⟨hA, hB, hU, hratio⟩ := hc
  cases ch with
  | A => exact ⟨hg, hB, hU, hratio⟩
  | B => exact ⟨hA, hg, hU, hratio⟩
  | U => exact ⟨hA, hB, hg, hratio⟩

theorem ctxOk_of_ctxAfter {b : WfBoard} {c c' : Ctx} {i : Instr} (hc : ctxOk b c) (h : CtxAfter b.val c i c') :
    ctxOk b c' := by
  cases i with
  | selCh => obtain ⟨ch, rfl⟩ := h; exact hc
  | loadCoef => obtain ⟨cs, rfl⟩ := h; exact hc
  | setPga => obtain ⟨g, hg, ch, rfl⟩ := h; exact ctxOk_setGain hc hg ch
  | setRatio =>
    obtain ⟨r, hk1A, hk1B, hk2, rfl⟩ := h
    obtain ⟨hA, hB, hU, -⟩ := hc
    exact ⟨hA, hB, hU, hk1A, hk1B, hk2⟩
  | _ => cases h; exact hc

/-- No operation raises the two statuses that no rule raises (R128). -/
theorem not_mem_allowedStatuses (i : Instr) :
    .incorrectResponse ∉ allowedStatuses i ∧ .noResponse ∉ allowedStatuses i := by
  cases i <;> simp [allowedStatuses]

theorem responseOk_of_allowed {i : Instr} {st : Status} (h : st ∈ allowedStatuses i) : responseOk ⟨st, .none⟩ :=
  ⟨fun _ => rfl, fun he => (not_mem_allowedStatuses i).1 (he ▸ h), fun he => (not_mem_allowedStatuses i).2 (he ▸ h)⟩

theorem responseOk_ok (r : Result) : responseOk ⟨.ok, r⟩ := ⟨fun h => absurd rfl h, nofun, nofun⟩

/-- An operation keeps the invariant: its transactions do, its response is one of its row's, and its context stays
within its types. -/
theorem inv_operation {i : Instr} {s t : State} (hport : i.port = .host) (hs : Inv s) (h : exec i s = .next t) :
    Inv t := by
  obtain ⟨p, hexec, hp⟩ := exec_program (isOperation_of_next hport h) s
  cases hexec.symm.trans h
  obtain ⟨u, keeps, ⟨hu, hboard, -⟩, hcases⟩ := perform_all (I := InvDuring s.board i) hp
    (fun _ _ => invDuring_presentSend) (fun _ _ _ _ => invDuring_transSend) (fun _ _ _ _ => invDuring_transRecv)
    ⟨inv_resumed hs i, rfl, rfl⟩
  rcases hcases with ⟨r, c, hc, h⟩ | ⟨st, hst, h⟩ | h <;> rw [h]
  · exact inv_finishOp hu (responseOk_ok r) (hboard ▸ ctxOk_of_ctxAfter hs.context hc)
  · exact inv_finishOp hu (responseOk_of_allowed hst) (hboard ▸ hs.context)
  · exact hu

theorem inv_exec {i : Instr} {s t : State} (hs : Inv s) (h : exec i s = .next t) : Inv t := by
  cases hport : i.port with
  | down =>
    obtain ⟨f, hf⟩ := exec_of_port_down hport s
    cases hf.symm.trans h
    exact inv_frameArrives hs f
  | up =>
    obtain ⟨bs, hbs⟩ := exec_of_port_up hport s
    cases hbs.symm.trans h
    exact inv_responseArrives hs bs
  | host => exact inv_operation hport hs h

/-! ### The invariant under the step -/

theorem inv_acceptOp {bs : List Byte} {s t : State} (hs : Inv s) (h : acceptOp bs s = .next t) : Inv t := by
  unfold acceptOp at h
  split at h
  · split at h
    · exact inv_exec hs h
    · cases h; exact inv_respondUnknown hs
    · cases h
  · cases h

theorem inv_advance {s t : State} (hs : Inv s) (h : advance s = .next t) : Inv t := by
  unfold advance at h
  split at h
  · exact inv_exec hs h
  · cases h; exact hs

theorem inv_hostStep {s t : State} (hs : Inv s) (h : hostStep s = .next t) : Inv t := by
  have taken (rest : List HostItem) : Inv { s with host := rest } := hs.withPorts rest s.world s.sends s.recvs
  unfold hostStep at h
  split at h
  · exact inv_advance hs h
  · cases h; exact inv_createContext (taken _) _
  · cases h; exact inv_destroyContext (taken _)
  · cases h; exact inv_deviceSettled (taken _)
  · split at h
    · exact inv_exec hs h
    · exact inv_acceptOp (taken _) h

theorem inv_worldStep {w : WorldItem} {s t : State} (hs : Inv s) (h : worldStep w s = .next t) : Inv t := by
  cases w with
  | down bs =>
    simp only [worldStep, downArrives] at h
    split at h
    · cases h
    · split at h
      · exact inv_exec hs h
      · cases h; exact inv_frameArrives hs bs
  | up bs =>
    simp only [worldStep, upArrives] at h
    split at h
    · exact inv_exec hs h
    · cases h; exact inv_responseArrives hs bs
  | sendAnswer a => cases h; exact hs.withPorts s.host s.world _ s.recvs
  | recvAnswer p => cases h; exact hs.withPorts s.host s.world s.sends _
  | powerCycle => cases h; exact inv_powerCycled hs

/-- Settles O55: what arrives first, or what the host presents, or the operation in progress keeps the invariant. -/
theorem everyStepKeepsTheInvariant : Obligations.EveryStepKeepsTheInvariant := by
  intro s t hs h
  unfold step portStep at h
  split at h
  · exact inv_worldStep (hs.withPorts s.host _ s.sends s.recvs) h
  · exact inv_hostStep hs h

end Sys2Proof.Machine
end

section
/-! Answers that come late (R16, R50, R139): what is left of a program after its answered transactions goes on where
the run was left waiting, so late answers lead to where answers in time would have led. -/

namespace Sys2Proof.Machine

/-- The state with further answers of the transport to come. -/
def State.withAnswers (as : List SendAnswer) (rs : List RecvPlan) (s : State) : State :=
  { s with sends := s.sends ++ as, recvs := s.recvs ++ rs }

section Late
variable {α : Type} {as : List SendAnswer} {rs : List RecvPlan}

/-- A run left waiting, and taken up with further answers at what its answered transactions leave of its program, is
the run with those answers from the start. -/
theorem runProg_taken_up {i : Instr} {p : Prog α} {s t : State} (hop : s.seq.op = some i)
    (hpending : s.seq.pending = none) (hout : s.out = none) (h : runProg p s = (.waiting, t)) :
    ∃ answers, t.seq.answers = s.seq.answers ++ answers ∧
      runProg (progAfter p answers) (resumed i (t.withAnswers as rs)) = runProg p (s.withAnswers as rs) := by
  induction p generalizing s with
  | ret | raise => cases h
  | send f k ih =>
    cases hs : s.sends with
    | nil =>
      rw [runProg, transSend_nil hs] at h
      cases h
      refine ⟨[], (List.append_nil _).symm, ?_⟩
      obtain ⟨⟨op, answers, slipped, pending⟩⟩ := s
      cases hop; cases hpending; cases hout; cases hs
      cases as <;> rfl
    | cons plan rest =>
      rw [runProg, transSend_cons hs] at h
      obtain ⟨answers, hanswers, hrun⟩ := ih _ (by exact hop) rfl (by exact hout) h
      refine ⟨_ :: answers, hanswers.trans (List.append_assoc ..), ?_⟩
      rw [progAfter, hrun, runProg, transSend_cons (s := s.withAnswers as rs) (plan := plan) (rest := rest ++ as)]
      · rfl
      · exact congrArg (· ++ as) hs
  | recv n k ih =>
    cases hr : s.recvs with
    | nil =>
      rw [runProg, transRecv_nil hr] at h
      cases h
      refine ⟨[], (List.append_nil _).symm, ?_⟩
      obtain ⟨⟨op, answers, slipped, pending⟩⟩ := t
      cases hop; cases hpending; cases hout
      rfl
    | cons plan rest =>
      rw [runProg, transRecv_cons hr] at h
      obtain ⟨answers, hanswers, hrun⟩ := ih _ (by exact hop) rfl (by exact hout) h
      refine ⟨_ :: answers, hanswers.trans (List.append_assoc ..), ?_⟩
      rw [progAfter, hrun, runProg, transRecv_cons (s := s.withAnswers as rs) (plan := plan) (rest := rest ++ rs)]
      · rfl
      · exact congrArg (· ++ rs) hr

end Late

theorem progAfter_nil {α : Type} (p : Prog α) : progAfter p [] = p := by cases p <;> rfl

theorem perform_of_idle {i : Instr} {p : Prog (Result × Ctx)} {s : State} (h : Idle s) :
    perform i p s = endOp (runProg p (begun i s)) := by
  unfold Idle at h
  rw [perform_eq_endOp, h]
  exact congrArg (fun q => endOp (runProg q (begun i s))) (progAfter_nil p)

theorem busy_endOp {e : RunEnd (Result × Ctx)} {t : State} (h : (endOp (e, t)).seq.busy = true) : e = .waiting := by
  cases e with
  | waiting => rfl
  | _ => rw [endOp, finishOp_seq] at h; cases h

/-- An operation that is still in progress waits, and no more than its transactions have changed. -/
theorem runKeeps_of_busy {i : Instr} {p : Prog (Result × Ctx)} {s : State} (h : (perform i p s).seq.busy = true) :
    RunKeeps (resumed i s) (perform i p s) := by
  obtain ⟨e, u, -, keeps, ⟨r, c, -, hp⟩ | ⟨st, -, hp⟩ | ⟨-, hp, -⟩⟩ := perform_cases i p s
  · rw [hp, finishOp_seq] at h; cases h
  · rw [hp, finishOp_seq] at h; cases h
  · rw [hp]; exact keeps

theorem perform_late {i : Instr} {p : Prog (Result × Ctx)} {s : State} (as : List SendAnswer) (rs : List RecvPlan)
    (hidle : Idle s) (hbusy : (perform i p s).seq.busy = true) :
    perform i p ((perform i p s).withAnswers as rs) = perform i p (s.withAnswers as rs) := by
  have hidle' : Idle (s.withAnswers as rs) := hidle
  rw [perform_of_idle hidle']
  rw [perform_of_idle hidle] at hbusy ⊢
  cases hrun : runProg p (begun i s) with | mk e t
  rw [hrun] at hbusy
  cases busy_endOp hbusy
  obtain ⟨answers, hanswers, hlate⟩ := runProg_taken_up (as := as) (rs := rs) rfl rfl rfl hrun
  calc perform i p (t.withAnswers as rs)
      = endOp (runProg (progAfter p t.seq.answers) (resumed i (t.withAnswers as rs))) := perform_eq_endOp ..
    _ = endOp (runProg p ((begun i s).withAnswers as rs)) := by rw [hanswers]; exact congrArg endOp hlate

/-- The same of the operation: while it waits, its transactions have changed nothing its program depends on. -/
theorem exec_late {i : Instr} {s t : State} (as : List SendAnswer) (rs : List RecvPlan) (hi : isOperation i = true)
    (hidle : Idle s) (hexec : exec i s = .next t) (hbusy : t.seq.busy = true) :
    exec i (t.withAnswers as rs) = exec i (s.withAnswers as rs) := by
  obtain ⟨p, hs, hsame⟩ := exec_same_program hi s
  cases hs.symm.trans hexec
  have keeps := runKeeps_of_busy hbusy
  rw [hsame (s.withAnswers as rs) rfl rfl rfl,
    hsame ((perform i p s).withAnswers as rs) keeps.board keeps.ctx keeps.draws, perform_late as rs hidle hbusy]

/-- Settles O47: taken up with the late answers, the program is left where the answered transactions left it. -/
theorem lateAnswersReachTheSameState : Obligations.LateAnswersReachTheSameState :=
  fun _ _ _ as rs hidle hi hexec hbusy => exec_late as rs hi hidle hexec hbusy

end Sys2Proof.Machine
end

section
/-! The step at the ports (R17, R64, R139, R143): which operation it runs, and a read whose transport does not
answer. -/

namespace Sys2Proof.Machine

/-! ### What the step runs -/

theorem step_of_world_nil {s : State} (h : s.world = []) : step s = hostStep s := by
  unfold step portStep
  rw [h]

/-- A busy block to which the host presents nothing but operations goes on with the one in progress (R17). -/
theorem step_of_busy {s : State} {i : Instr} (hop : s.seq.op = some i) (hworld : s.world = [])
    (hhost : ∀ x ∈ s.host.head?, ∃ bs, x = .op bs) : step s = exec i s := by
  rw [step_of_world_nil hworld, hostStep]
  split
  · rw [advance, hop]
  · rename_i h; simp [h] at hhost
  · rename_i h; simp [h] at hhost
  · rename_i h; simp [h] at hhost
  · rw [hop]

/-- An idle block takes the operation the host presents first. -/
theorem step_of_idle {s : State} {bs : List Byte} {rest : List HostItem} (hidle : Idle s) (hworld : s.world = [])
    (hhost : s.host = .op bs :: rest) : step s = acceptOp bs { s with host := rest } := by
  unfold Idle at hidle
  rw [step_of_world_nil hworld, hostStep, hhost, hidle]
  rfl

theorem step_create {s : State} {k : IfKind} {rest : List HostItem} (hworld : s.world = [])
    (hhost : s.host = .create k :: rest) : step s = .next (createContext k { s with host := rest }) := by
  rw [step_of_world_nil hworld, hostStep, hhost]

theorem acceptOp_ok {bs : List Byte} {s : State} {i : Instr} (hcreated : s.created = true) (hi : decodeOp bs = .ok i) :
    acceptOp bs s = exec i s := by
  rw [acceptOp, if_pos hcreated, hi]

/-- Settles O42: an idle block accepts what is presented, and a context is there to run it. -/
theorem stepRunsThePresentedOperation : Obligations.StepRunsThePresentedOperation := by
  intro s bs rest i hidle hcreated hworld hhost hi
  rw [step_of_idle hidle hworld hhost]
  exact acceptOp_ok hcreated hi

/-- Settles O45: the step is the running operation's, and no operation writes the port. -/
theorem busyBlockHoldsTheNextOperation : Obligations.BusyBlockHoldsTheNextOperation := by
  intro s i bs rest hop hworld hhost hport
  have hstep : step s = exec i s := step_of_busy hop hworld (by simp [hhost])
  refine ⟨hstep, fun t ht => ?_⟩
  obtain ⟨⟨-, -, host, -⟩, -⟩ := exec_outcome hport (hstep.symm.trans ht)
  exact host

/-! ### Reset and creation -/

/-- Settles O48: by the reset state's fields; with nothing at its ports the block waits (R144). -/
theorem resetLeavesTheBlockIdle : Obligations.ResetLeavesTheBlockIdle :=
  ⟨rfl, rfl, rfl, rfl, rfl, step_of_world_nil rfl⟩

/-- Settles O49: the step is `createContext`, which gives up what was in progress. -/
theorem creationResetsTheBlockAlone : Obligations.CreationResetsTheBlockAlone := by
  intro s k rest hworld hhost
  exact ⟨_, step_create hworld hhost, rfl, rfl, rfl, rfl, rfl, rfl, rfl, rfl,
    fun hpending => deviceAbandoned_none hpending, fun f hpending => deviceAbandoned_some hpending, rfl, rfl,
    ctxOk_drawnCtx _ _ _ _⟩

/-! ### An operation whose transport does not answer -/

theorem run_of_step_self {s : State} (h : step s = .next s) (k : Nat) : Host.Core.run core k s = .next s := by
  induction k with
  | zero => rfl
  | succ k ih =>
    have hcore : core.step s = .next s := h
    simpa only [Host.Core.run, hcore] using ih

@[simp] theorem withAnswers_nil (s : State) : s.withAnswers [] [] = s := by
  simp [State.withAnswers]

/-- An operation left waiting is where it was when it is taken up without a further answer. -/
theorem exec_self_of_busy {i : Instr} {s t : State} (hport : i.port = .host) (hidle : Idle s)
    (hexec : exec i s = .next t) (hbusy : t.seq.busy = true) : exec i t = .next t := by
  have h := exec_late [] [] (isOperation_of_next hport hexec) hidle hexec hbusy
  rwa [withAnswers_nil, withAnswers_nil, hexec] at h

/-- And so is the machine after any number of steps in which nothing arrives (R139). -/
theorem run_self_of_busy {i : Instr} {s t : State} (hport : i.port = .host) (hidle : Idle s) (hworld : s.world = [])
    (hhost : ∀ x ∈ s.host, ∃ bs, x = .op bs) (hexec : exec i s = .next t) (hbusy : t.seq.busy = true) (k : Nat) :
    Host.Core.run core k t = .next t := by
  obtain ⟨⟨-, -, host, world⟩, ⟨-, -, idle, -⟩ | ⟨-, -, -, idle, -⟩ | ⟨-, hop, -⟩⟩ := exec_outcome hport hexec
  · rw [idle] at hbusy; cases hbusy
  · rw [idle] at hbusy; cases hbusy
  · refine run_of_step_self ?_ k
    have operations : ∀ x ∈ t.host.head?, ∃ bs, x = .op bs := fun x hx =>
      hhost x (host ▸ List.mem_of_mem_head? hx)
    rw [step_of_busy hop (world.trans hworld) operations, exec_self_of_busy hport hidle hexec hbusy]

section ReadWaits
variable {s : State} {addr : Byte} {w : Nat} (hidle : Idle s) (hw : w ≤ s.board.val.nmax)
include hidle hw

/-- A read whose request is not answered stands with the request in the transmit buffer. -/
theorem exec_rdReg_unsent (hs : s.sends = []) :
    exec (.rdReg addr w) s = .next (presentSend (readFrame addr) (begun (.rdReg addr w) s)) := by
  have hnone : transSend (readFrame addr) (begun (.rdReg addr w) s) = none := transSend_nil hs
  rw [exec, execRdReg, perform_of_idle hidle, progRdReg, withinBuffer_of_le hw, sendFrame, runProg, hnone]
  rfl

/-- A read whose request is taken whole and whose receive is not answered stands after one transaction. -/
theorem exec_rdReg_unreceived {a : SendAnswer} {as : List SendAnswer} (hs : s.sends = a :: as)
    (ha : Takes (readFrame addr) a) (hr : s.recvs = []) :
    exec (.rdReg addr w) s = .next (afterSend (begun (.rdReg addr w) s) (readFrame addr) a) := by
  have hnone : transRecv (w + 1) (afterSend (begun (.rdReg addr w) s) (readFrame addr) a) = none := transRecv_nil hr
  rw [exec, execRdReg, perform_of_idle hidle, progRdReg, withinBuffer_of_le hw,
    runProg_sendFrame (s := begun (.rdReg addr w) s) _ hs, sendStatus_of_takes ha, if_pos rfl, runProg, hnone]
  rfl

end ReadWaits

/-- Settles O46: at both waiting points the read is in progress, and an operation left waiting stays so. -/
theorem unansweredReadNeverEnds : Obligations.UnansweredReadNeverEnds := by
  intro s addr w k hidle hw hworld hhost
  refine ⟨fun hs => ?_, fun n as hs hn hr => ?_⟩
  · have hexec := exec_rdReg_unsent (addr := addr) hidle hw hs
    exact ⟨_, hexec, rfl, rfl, rfl, rfl, rfl, rfl, rfl, rfl,
      run_self_of_busy rfl hidle hworld hhost hexec rfl k⟩
  · have ha : Takes (readFrame addr) (.sent n) := (takes_iff _ _).2 ⟨n, rfl, hn⟩
    have answer : sendAnswerOf (readFrame addr).length (.sent n) = .sent 2 := sendAnswerOf_of_takes ha
    have hexec := exec_rdReg_unreceived hidle hw hs ha hr
    refine ⟨_, hexec, rfl, rfl, rfl, rfl, ?_, ?_, rfl, run_self_of_busy rfl hidle hworld hhost hexec rfl k⟩
    · rw [afterSend_log, sendEvent, answer]; rfl
    · rw [afterSend_dev, answer, sendEffect_of_not_wrReg (by simp)]; rfl

end Sys2Proof.Machine
end

section
/-! The device's registers (R29, R34): what a write of a register leaves as it was, a register as the cells it has, and
the write address of a register. -/

namespace Sys2Proof.Machine

/-! ### Cells and registers -/

theorem readCell_writeCells_of_forall_ne (m : Memory) (a : Nat) (p : List Byte) {x : Nat}
    (h : ∀ i < p.length, x ≠ i * 256 + a) : readCell (writeCells m a p) x = readCell m x := by
  induction p generalizing m a with
  | nil => rfl
  | cons v vs ih =>
    have first : x ≠ a := by simpa using h 0 (by simp)
    have others : ∀ i < vs.length, x ≠ i * 256 + (a + 256) := fun i hi => by
      have next := h (i + 1) (Nat.succ_lt_succ hi)
      rwa [Nat.succ_mul, Nat.add_assoc, Nat.add_comm 256] at next
    rw [writeCells, ih _ _ others, readCell_writeCell, if_neg first]

/-- A cell that is none of the written register's reads as before. -/
theorem readCell_writeReg_of_forall_ne (m : Memory) (a : Byte) (p : List Byte) {x : Nat}
    (h : ∀ i < p.length, x ≠ cellAddr a i) : readCell (writeReg m a p) x = readCell m x :=
  readCell_writeCells_of_forall_ne m _ p fun i hi => by simpa [cellAddr] using h i hi

theorem cellAddr_mod (a : Byte) (i : Nat) : cellAddr a i % 256 = a.toNat := by
  have := a.isLt
  unfold cellAddr
  omega

/-- A cell of another register reads as before. -/
theorem readCell_writeReg_of_ne (m : Memory) (a : Byte) (p : List Byte) {x : Nat} (h : x % 256 ≠ a.toNat) :
    readCell (writeReg m a p) x = readCell m x :=
  readCell_writeReg_of_forall_ne m a p fun i _ hx => h (hx ▸ cellAddr_mod a i)

/-- A register written at its width is read back. -/
theorem readReg_writeReg (m : Memory) (a : Byte) {p : List Byte} {w : Nat} (h : p.length = w) :
    readReg (writeReg m a p) a w = some p :=
  h ▸ readCells_writeCells m _ p

theorem length_of_readCells {m : Memory} {a n : Nat} {p : List Byte} (h : readCells m a n = some p) :
    p.length = n := by
  induction n generalizing a p with
  | zero => cases h; rfl
  | succ n ih =>
    rw [readCells] at h
    split at h
    · cases h
      rw [List.length_cons, ih ‹_›]
    · cases h

theorem length_of_readReg {m : Memory} {a : Byte} {w : Nat} {p : List Byte} (h : readReg m a w = some p) :
    p.length = w :=
  length_of_readCells h

theorem readCells_congr {m m' : Memory} {a : Nat} (n : Nat)
    (h : ∀ x, x % 256 = a % 256 → readCell m' x = readCell m x) : readCells m' a n = readCells m a n := by
  induction n generalizing a with
  | zero => rfl
  | succ n ih => rw [readCells, readCells, h a rfl, ih fun x hx => h x (by omega)]

/-- A register's content is that of its own cells. -/
theorem readReg_congr {m m' : Memory} {a : Byte} (w : Nat)
    (h : ∀ x, x % 256 = a.toNat → readCell m' x = readCell m x) : readReg m' a w = readReg m a w :=
  readCells_congr w fun x hx => h x (hx.trans (cellAddr_mod a 0))

/-! ### Write addresses -/

theorem writeAddr_msb (a : Byte) : (writeAddr a).msb = true := by
  rw [writeAddr, BitVec.msb_or, Bool.or_eq_true]
  exact .inr (by decide)

/-- A write address leads to the register at the same address with bit 7 clear (R32, R61). -/
theorem readAddrOf_writeAddr (a : Byte) : readAddrOf (writeAddr a) = a &&& 0x7F := by
  have clear : (writeBit &&& 0x7F : Byte) = 0 := by decide
  rw [readAddrOf, writeAddr, BitVec.and_comm, BitVec.and_or_distrib_left, BitVec.and_comm _ writeBit, clear,
    BitVec.and_comm]
  exact BitVec.or_zero

end Sys2Proof.Machine
end

section
/-! The wire frames at a ready device (R46 to R48): a read request, a write frame and the five commands; and the
arrival of a frame or a response at the ports. -/

namespace Sys2Proof.Machine

/-! ### What a ready device does -/

theorem deviceReceive_of_ready {b : Board} {d : Device} {f : List Byte} (h : d.ready = true) :
    deviceReceive b d f = deviceFrame b d f := if_pos h

theorem deviceContent_known {b : Board} {d : Device} {a : Byte} {w : Nat} {p : List Byte}
    (hm : measuresAt b a = false) (hp : readReg d.reg a w = some p) : deviceContent b d a w = (p, d) := by
  simp only [deviceContent, hm, Bool.false_eq_true, if_false, hp]

/-- A register that changes by itself, or whose content is not known, comes to hold what the device draws for it. -/
theorem deviceContent_drawn {b : Board} {d : Device} {a : Byte} {w : Nat}
    (h : measuresAt b a = true ∨ readReg d.reg a w = none) :
    deviceContent b d a w = (drawnPayload d.tick w,
      { d with reg := writeReg d.reg a (drawnPayload d.tick w), tick := d.tick + 1 }) := by
  have unknown : (if measuresAt b a then none else readReg d.reg a w) = none := by
    split
    · rfl
    · exact h.resolve_left ‹_›
  simp only [deviceContent, unknown]

theorem deviceRead_of_width {b : Board} {d : Device} {a : Byte} {w : Nat} (h : widthAt b a = some w) :
    deviceRead b d a = { (deviceContent b d a w).2 with
      line := (deviceContent b d a w).2.line ++
        ((deviceContent b d a w).1 ++ [cksumByte hdrByte a (deviceContent b d a w).1]) } := by
  simp only [deviceRead, h, List.append_assoc]

theorem length_drawnPayload (n w : Nat) : (drawnPayload n w).length = w := by simp [drawnPayload]

/-- The command codes differ from each other (R8). -/
theorem codes_nodup (b : WfBoard) :
    [b.val.codes.reset, b.val.codes.selA, b.val.codes.selB, b.val.codes.wren, b.val.codes.wrdis].Nodup := by
  obtain ⟨b, hb⟩ := b
  simp only [Board.wf, Bool.and_eq_true, and_assoc] at hb
  exact of_decide_eq_true hb.1

section Commands
variable (b : WfBoard) (d : Device)

/-- A command frame with its right checksum is taken by its code. -/
theorem deviceFrame_cmdFrame (b : Board) (k : Byte) :
    deviceFrame b d (cmdFrame ctrlAddr k) =
      if k = b.codes.wren then { d with we := true }
      else if k = b.codes.wrdis then { d with we := false }
      else if k = b.codes.selA then { d with sel := .A }
      else if k = b.codes.selB then { d with sel := .B }
      else if k = b.codes.reset then deviceReset d
      else deviceOpen d .all := by
  rw [cmdFrame, deviceFrame_command, deviceCommand, cksumMatches, if_pos (beq_self_eq_true _)]

theorem deviceFrame_wren (b : Board) : deviceFrame b d (cmdFrame ctrlAddr b.codes.wren) = { d with we := true } := by
  rw [deviceFrame_cmdFrame, if_pos rfl]

theorem deviceFrame_wrdis : deviceFrame b.val d (cmdFrame ctrlAddr b.val.codes.wrdis) = { d with we := false } := by
  have := codes_nodup b
  rw [deviceFrame_cmdFrame]
  grind

theorem deviceFrame_selA : deviceFrame b.val d (cmdFrame ctrlAddr b.val.codes.selA) = { d with sel := .A } := by
  have := codes_nodup b
  rw [deviceFrame_cmdFrame]
  grind

theorem deviceFrame_selB : deviceFrame b.val d (cmdFrame ctrlAddr b.val.codes.selB) = { d with sel := .B } := by
  have := codes_nodup b
  rw [deviceFrame_cmdFrame]
  grind

theorem deviceFrame_reset : deviceFrame b.val d (cmdFrame ctrlAddr b.val.codes.reset) = deviceReset d := by
  have := codes_nodup b
  rw [deviceFrame_cmdFrame]
  grind

end Commands

theorem exec_cf_right (k : Byte) (s : State) :
    exec (.cf k (cksumByte hdrByte ctrlAddr [k])) s = .next (frameArrives (cmdFrame ctrlAddr k) s) := rfl

/-! ### The statements of the wire frames -/

/-- A frame that arrives at a ready device changes the device as R69 has it taken, and nothing else. -/
theorem next_frameArrives_of_ready {s : State} {f : List Byte} {d : Device} (hready : s.dev.ready = true)
    (h : deviceFrame s.board.val s.dev f = d) :
    (.next (frameArrives f s) : Host.Outcome State Fault Refusal) = .next { s with dev := d } := by
  rw [frameArrives, deviceReceive_of_ready hready, h]

/-- Settles O35: `deviceContent` gives what is known, or draws what the register then holds. -/
theorem readRequestIsAnswered : Obligations.ReadRequestIsAnswered := by
  intro s addr w hready hmsb hw
  have hread := (deviceFrame_read s.board.val s.dev addr hmsb).trans (deviceRead_of_width hw)
  have hexec : exec (.rq addr) s = .next { s with dev := _ } := next_frameArrives_of_ready hready hread
  refine ⟨fun p hm hp => ?_, fun h => ?_⟩
  · rw [hexec, deviceContent_known hm hp]
  · rw [deviceContent_drawn h] at hexec
    have hlen := length_drawnPayload s.dev.tick w
    exact ⟨_, _, hlen, hexec, readReg_writeReg _ _ hlen,
      fun x hx => readCell_writeReg_of_forall_ne _ _ _ (by rwa [hlen])⟩

/-- Settles O36: the frame is of the register's width and right, so its payload is stored. -/
theorem writeFrameStoresItsPayload : Obligations.WriteFrameStoresItsPayload := by
  intro s wa p hready hwe hmsb hne hw hrange
  have hwrite := (deviceFrame_write s.board.val s.dev wa p (cksumByte hdrByte wa p) hmsb hne hw).trans
    (deviceWrite_stores s.dev wa p hwe hrange)
  exact ⟨_, next_frameArrives_of_ready hready hwrite, readReg_writeReg _ _ rfl,
    fun x hx => readCell_writeReg_of_forall_ne _ _ _ hx⟩

/-- Settles O37: each named command by its code, the codes being distinct; a general command frame with the right
checksum is the very same bytes. -/
theorem commandFramesActOnTheDevice : Obligations.CommandFramesActOnTheDevice := by
  intro s ck hready hck
  have arrives {f : List Byte} {d : Device} := next_frameArrives_of_ready (f := f) (d := d) hready
  refine ⟨arrives (deviceFrame_wren _ _), arrives (deviceFrame_wrdis _ _), arrives (deviceFrame_selA _ _),
    arrives (deviceFrame_selB _ _), ⟨_, arrives (deviceFrame_reset _ _), rfl, rfl, rfl⟩, fun k i hki => ?_⟩
  rw [hck, exec_cf_right]
  simp only [List.mem_cons, Prod.mk.injEq, List.not_mem_nil, or_false] at hki
  rcases hki with ⟨rfl, rfl⟩ | ⟨rfl, rfl⟩ | ⟨rfl, rfl⟩ | ⟨rfl, rfl⟩ | ⟨rfl, rfl⟩ <;> rfl

/-- Settles O40: `RS` is the arrival of its payload and its checksum byte. -/
theorem responseWaitsForTheNextReceive : Obligations.ResponseWaitsForTheNextReceive :=
  fun _ _ _ => rfl

/-! ### Arrivals at the step -/

theorem step_of_world_cons {s : State} {x : WorldItem} {rest : List WorldItem} (h : s.world = x :: rest) :
    step s = worldStep x { s with world := rest } := by
  unfold step portStep
  rw [h]

theorem downArrives_of_idle {s : State} {bs : List Byte} {i : Instr} (hidle : Idle s)
    (h : decodeFrame s.board.val bs = .ok i) : downArrives bs s = exec i s := by
  unfold Idle at hidle
  simp only [downArrives, hidle, Seq.idle, h]

theorem upArrives_of_decoded {s : State} {bs : List Byte} {i : Instr}
    (h : decodeResponse s.board.val bs = .ok i) : upArrives bs s = exec i s := by
  simp only [upArrives, h]

/-- Settles O43: what arrives from outside comes first, and is executed as what it decodes to. -/
theorem stepRunsTheArrivingFrame : Obligations.StepRunsTheArrivingFrame := by
  intro s bs rest i
  refine ⟨fun hidle hworld hi => ?_, fun hworld hi => ?_⟩
  · rw [step_of_world_cons hworld]
    exact downArrives_of_idle (s := { s with world := rest }) hidle hi
  · rw [step_of_world_cons hworld]
    exact upArrives_of_decoded (s := { s with world := rest }) hi

end Sys2Proof.Machine
end

section
/-! What a write bracket (R82) does to the device: the one register it reaches, whatever becomes of its frames, and
the device after a bracket that was taken whole. -/

namespace Sys2Proof.Machine

/-! ### The registers a write leaves -/

/-- A device as it was but for the register at read address `a`, its write-enable, the line and its draws. -/
structure KeepsOthers (a : Byte) (d e : Device) : Prop where
  ready : e.ready = d.ready
  sel : e.sel = d.sel
  outOfRange : e.outOfRange = d.outOfRange
  cells : ∀ x : Nat, x % 256 ≠ a.toNat → readCell e.reg x = readCell d.reg x

theorem KeepsOthers.refl (a : Byte) (d : Device) : KeepsOthers a d d := ⟨rfl, rfl, rfl, fun _ _ => rfl⟩

theorem KeepsOthers.trans {a : Byte} {d e f : Device} (h : KeepsOthers a d e) (h' : KeepsOthers a e f) :
    KeepsOthers a d f :=
  ⟨h'.ready.trans h.ready, h'.sel.trans h.sel, h'.outOfRange.trans h.outOfRange,
    fun x hx => (h'.cells x hx).trans (h.cells x hx)⟩

theorem KeepsOthers.withEnable {a : Byte} {d e : Device} (h : KeepsOthers a d e) (we : Bool) :
    KeepsOthers a d { e with we := we } :=
  ⟨h.ready, h.sel, h.outOfRange, h.cells⟩

/-- A register of another address holds what it held. -/
theorem KeepsOthers.readReg {a c : Byte} {d e : Device} (h : KeepsOthers a d e) (hc : a ≠ c) (w : Nat) :
    readReg e.reg c w = readReg d.reg c w :=
  readReg_congr w fun x hx => h.cells x fun ha => hc (BitVec.eq_of_toNat_eq (ha.symm.trans hx))

theorem deviceOpen_register_keepsOthers (a : Byte) (d : Device) : KeepsOthers a d (deviceOpen d (.register a)) :=
  ⟨rfl, rfl, rfl, fun x hx => readCell_forgetReg d.reg a x hx⟩

theorem deviceOpen_enable_keepsOthers (a : Byte) (d : Device) : KeepsOthers a d (deviceOpen d .enable) :=
  ⟨rfl, rfl, rfl, fun _ _ => rfl⟩

/-- A write frame reaches its own register, whether it is right or not. -/
theorem deviceWrite_keepsOthers (d : Device) (wa : Byte) (p : List Byte) (ck : Byte) :
    KeepsOthers (readAddrOf wa) d (deviceWrite d wa p ck) := by
  unfold deviceWrite
  split_ifs
  · exact ⟨rfl, rfl, rfl, fun _ hx => readCell_writeReg_of_ne _ _ _ hx⟩
  · exact ⟨rfl, rfl, rfl, fun _ hx => readCell_writeReg_of_ne _ _ _ hx⟩
  · exact deviceOpen_register_keepsOthers _ _

/-! ### The frames of a bracket -/

/-- The three frames of a write of `p` to the register at `addr` (R82). -/
inductive BracketFrame (c : Codes) (addr : Byte) (p : List Byte) : List Byte → Prop
  | enable : BracketFrame c addr p (cmdFrame ctrlAddr c.wren)
  | data : BracketFrame c addr p (writeFrame (writeAddr addr) p)
  | disable : BracketFrame c addr p (cmdFrame ctrlAddr c.wrdis)

/-- The device has a register of the payload's width at `addr`, and the data frame does not go to the control address
(R33). -/
structure Writable (b : Board) (addr : Byte) (p : List Byte) : Prop where
  address : writeAddr addr ≠ ctrlAddr
  width : widthAt b (addr &&& 0x7F) = some p.length

section Frames
variable {b : WfBoard} {d : Device} {addr : Byte} {p f : List Byte}

theorem deviceFrame_writeFrame (h : Writable b.val addr p) :
    deviceFrame b.val d (writeFrame (writeAddr addr) p) =
      deviceWrite d (writeAddr addr) p (cksumByte hdrByte (writeAddr addr) p) :=
  deviceFrame_write _ _ _ _ _ (writeAddr_msb addr) h.address ((readAddrOf_writeAddr addr).symm ▸ h.width)

theorem deviceFrame_bracket_keepsOthers (h : Writable b.val addr p) (hf : BracketFrame b.val.codes addr p f) :
    KeepsOthers (addr &&& 0x7F) d (deviceFrame b.val d f) := by
  cases hf with
  | enable => exact deviceFrame_wren d b.val ▸ (KeepsOthers.refl _ d).withEnable _
  | data =>
    rw [deviceFrame_writeFrame h, ← readAddrOf_writeAddr]
    exact deviceWrite_keepsOthers _ _ _ _
  | disable => exact deviceFrame_wrdis b d ▸ (KeepsOthers.refl _ d).withEnable _

theorem frameTouch_cmdFrame (c : Codes) (k : Byte) : frameTouch c (cmdFrame ctrlAddr k) = commandTouch c k := rfl

/-- A frame of the bracket reaches the write-enable or the register (log 18). -/
theorem frameTouch_bracket {c : Codes} (h : writeAddr addr ≠ ctrlAddr) (hf : BracketFrame c addr p f) :
    frameTouch c f = .enable ∨ frameTouch c f = .register (addr &&& 0x7F) := by
  cases hf with
  | enable => exact .inl ((frameTouch_cmdFrame _ _).trans (if_pos (.inl rfl)))
  | data => exact .inr (readAddrOf_writeAddr addr ▸ frameTouch_write c _ _ (writeAddr_msb addr) h)
  | disable => exact .inl ((frameTouch_cmdFrame _ _).trans (if_pos (.inr rfl)))

/-- Nor does a ready device that may have had any part of such a frame change another register. -/
theorem deviceLost_bracket_keepsOthers {c : Codes} (hready : d.ready = true) (h : writeAddr addr ≠ ctrlAddr)
    (hf : BracketFrame c addr p f) : KeepsOthers (addr &&& 0x7F) d (deviceLost c d f) := by
  refine KeepsOthers.withEnable ?_ _
  rw [deviceUpset, if_pos hready]
  rcases frameTouch_bracket h hf with touch | touch <;> rw [touch]
  · exact deviceOpen_enable_keepsOthers _ _
  · exact deviceOpen_register_keepsOthers _ _

end Frames

/-! ### A bracket's frames sent -/

/-- The operation in progress, if it is a `WR_REG`, is not one to the control address (U6). -/
def PlainSends (q : Seq) : Prop := ∀ addr p, q.op = some (.wrReg addr p) → writeAddr addr ≠ ctrlAddr

theorem sendEffect_of_plain {s : State} {f : List Byte} {a : SendAnswer} (h : PlainSends s.seq) :
    sendEffect s f a = if s.seq.slipped then deviceLost s.board.val.codes s.dev f
      else deviceAfterSend s.board.val s.dev f a := by
  by_cases hop : ∃ addr p, s.seq.op = some (.wrReg addr p)
  · obtain ⟨addr, p, hop⟩ := hop
    exact sendEffect_of_ne hop (h addr p hop)
  · exact sendEffect_of_not_wrReg fun addr p hs => hop ⟨addr, p, hs⟩

/-- An operation is in progress under the parameters `b` whose frames a ready device takes as they come. -/
structure Writing (b : WfBoard) (s : State) : Prop where
  board : s.board = b
  plain : PlainSends s.seq
  ready : s.dev.ready = true

section Sends
variable {b : WfBoard} {s : State} {addr : Byte} {p f : List Byte}

theorem sendEffect_keepsOthers (hs : Writing b s) (h : Writable b.val addr p) (hf : BracketFrame b.val.codes addr p f)
    (a : SendAnswer) : KeepsOthers (addr &&& 0x7F) s.dev (sendEffect s f a) := by
  obtain ⟨rfl, plain, ready⟩ := hs
  rw [sendEffect_of_plain plain, deviceAfterSend, deviceReceive_of_ready ready]
  split_ifs
  · exact deviceLost_bracket_keepsOthers ready h.address hf
  · exact deviceFrame_bracket_keepsOthers h hf
  · exact deviceLost_bracket_keepsOthers ready h.address hf

theorem Writing.afterSend (hs : Writing b s) (h : Writable b.val addr p) (hf : BracketFrame b.val.codes addr p f)
    (a : SendAnswer) : Writing b (afterSend s f a) :=
  ⟨hs.board, hs.plain, (sendEffect_keepsOthers hs h hf _).ready.trans hs.ready⟩

/-- The state after the three answered sends of a bracket. -/
def afterBracket (s : State) (addr : Byte) (p : List Byte) (a1 a2 a3 : SendAnswer) : State :=
  afterSend (afterSend (afterSend s (cmdFrame ctrlAddr s.board.val.codes.wren) a1)
    (writeFrame (writeAddr addr) p) a2) (cmdFrame ctrlAddr s.board.val.codes.wrdis) a3

/-- The transport takes the three frames of a bracket whole. -/
def BracketTaken (c : Codes) (addr : Byte) (p : List Byte) (a1 a2 a3 : SendAnswer) : Prop :=
  Takes (cmdFrame ctrlAddr c.wren) a1 ∧ Takes (writeFrame (writeAddr addr) p) a2 ∧
    Takes (cmdFrame ctrlAddr c.wrdis) a3

theorem afterBracket_keepsOthers (hs : Writing b s) (h : Writable b.val addr p) (a1 a2 a3 : SendAnswer) :
    KeepsOthers (addr &&& 0x7F) s.dev (afterBracket s addr p a1 a2 a3).dev := by
  obtain rfl := hs.board
  have enabled := hs.afterSend h .enable a1
  have written := enabled.afterSend h .data a2
  exact ((sendEffect_keepsOthers hs h .enable _).trans (sendEffect_keepsOthers enabled h .data _)).trans
    (sendEffect_keepsOthers written h .disable _)

/-- A bracket of which a frame is not taken whole ends the operation with `IO_ERROR` (R82, R83), and reaches the one
register. -/
theorem runProg_wrReg_lost {α : Type} {a1 a2 a3 : SendAnswer} {sends : List SendAnswer} (k : Prog α)
    (hs : Writing b s) (h : Writable b.val addr p) (hp : p.length ≤ b.val.nmax)
    (hsends : s.sends = a1 :: a2 :: a3 :: sends) (hlost : ¬ BracketTaken b.val.codes addr p a1 a2 a3) :
    ∃ u, runProg (progWrReg b.val addr p k) s = (.raised .ioError, u) ∧ KeepsOthers (addr &&& 0x7F) s.dev u.dev := by
  obtain rfl := hs.board
  by_cases hgo : Takes (cmdFrame ctrlAddr s.board.val.codes.wren) a1 ∨ s.board.val.wrContinue = true
  · obtain ⟨q, hrun, -, hq⟩ := runProg_wrReg (addr := addr) k hp hsends hgo
    exact ⟨_, by rw [hrun, hq hlost]; rfl, afterBracket_keepsOthers hs h a1 a2 a3⟩
  · obtain ⟨hnot, hstop⟩ := not_or.1 hgo
    refine ⟨Machine.afterSend s (cmdFrame ctrlAddr s.board.val.codes.wren) a1, ?_,
      sendEffect_keepsOthers hs h .enable _⟩
    rw [progWrReg, withinBuffer_of_le hp, runProg_sendFrame _ hsends, sendStatus_of_not_takes hnot,
      if_pos ⟨by decide, Bool.eq_false_iff.2 hstop⟩]
    rfl

end Sends

/-! ### A bracket taken whole -/

/-- No frame of the operation in progress was lost so far. -/
structure Delivering (b : WfBoard) (s : State) : Prop extends Writing b s where
  whole : s.seq.slipped = false

section Delivered
variable {b : WfBoard} {s : State} {addr : Byte} {p f : List Byte} {a a1 a2 a3 : SendAnswer}

/-- A frame taken whole is delivered (R50). -/
theorem afterSend_dev_of_takes (hs : Delivering b s) (ha : Takes f a) :
    (afterSend s f a).dev = deviceFrame b.val s.dev f := by
  obtain ⟨⟨rfl, plain, ready⟩, whole⟩ := hs
  unfold Takes at ha
  rw [afterSend_dev, sendEffect_of_plain plain, whole, if_neg Bool.false_ne_true, deviceAfterSend, if_pos ha,
    deviceReceive_of_ready ready]

theorem Delivering.afterSend (hs : Delivering b s) (h : Writable b.val addr p)
    (hf : BracketFrame b.val.codes addr p f) (ha : Takes f a) : Delivering b (afterSend s f a) := by
  refine ⟨hs.toWriting.afterSend h hf a, ?_⟩
  unfold Takes at ha
  rw [afterSend_seq, sent_slipped, hs.whole, ha]
  rfl

theorem Delivering.afterBracket (hs : Delivering b s) (h : Writable b.val addr p)
    (ha : BracketTaken b.val.codes addr p a1 a2 a3) : Delivering b (afterBracket s addr p a1 a2 a3) := by
  obtain rfl := hs.board
  obtain ⟨h1, h2, h3⟩ := ha
  exact ((hs.afterSend h .enable h1).afterSend h .data h2).afterSend h .disable h3

/-- A delivered bracket is the write frame at a write-enabled device, which is then protected again (R47). -/
theorem afterBracket_dev (hs : Delivering b s) (h : Writable b.val addr p)
    (ha : BracketTaken b.val.codes addr p a1 a2 a3) :
    (afterBracket s addr p a1 a2 a3).dev =
      { deviceWrite { s.dev with we := true } (writeAddr addr) p (cksumByte hdrByte (writeAddr addr) p) with
        we := false } := by
  obtain rfl := hs.board
  obtain ⟨h1, h2, h3⟩ := ha
  have enabled := hs.afterSend h .enable h1
  have written := enabled.afterSend h .data h2
  rw [afterBracket, afterSend_dev_of_takes written h3, afterSend_dev_of_takes enabled h2,
    afterSend_dev_of_takes hs h1, deviceFrame_wren, deviceFrame_writeFrame h, deviceFrame_wrdis]

/-- It stores a payload in the device's range. -/
theorem afterBracket_dev_of_inRange (hs : Delivering b s) (h : Writable b.val addr p)
    (ha : BracketTaken b.val.codes addr p a1 a2 a3) (hrange : (addr &&& 0x7F, beNat p) ∉ s.dev.outOfRange) :
    (afterBracket s addr p a1 a2 a3).dev =
      { s.dev with reg := writeReg s.dev.reg (addr &&& 0x7F) p, we := false } := by
  rw [← readAddrOf_writeAddr] at hrange
  rw [afterBracket_dev hs h ha, deviceWrite_stores { s.dev with we := true } _ _ rfl hrange, readAddrOf_writeAddr]

theorem runProg_wrReg_taken {α : Type} {sends : List SendAnswer} (k : Prog α) (hs : Writing b s)
    (hp : p.length ≤ b.val.nmax) (hsends : s.sends = a1 :: a2 :: a3 :: sends)
    (ha : BracketTaken b.val.codes addr p a1 a2 a3) :
    runProg (progWrReg b.val addr p k) s = runProg k (afterBracket s addr p a1 a2 a3) := by
  obtain rfl := hs.board
  obtain ⟨q, hrun, hq, -⟩ := runProg_wrReg (addr := addr) k hp hsends (.inl ha.1)
  rw [hrun, hq ha]
  rfl

end Delivered

/-! ### The statements of `WR_REG` -/

theorem begun_wrReg_delivering {s : State} {addr : Byte} {p : List Byte} (hready : s.dev.ready = true)
    (hne : writeAddr addr ≠ ctrlAddr) : Delivering s.board (begun (.wrReg addr p) s) :=
  ⟨⟨rfl, fun _ _ hop => by cases hop; exact hne, hready⟩, rfl⟩

/-- Settles O12: the run of the bracket ends in `afterBracket`, where the payload is stored. -/
theorem deliveredWriteReachesTheRegister : Obligations.DeliveredWriteReachesTheRegister := by
  intro s addr p a1 a2 a3 as hidle hp hready hne hw hrange hsends h1 h2 h3
  have hs := begun_wrReg_delivering (p := p) hready hne
  have taken : BracketTaken s.board.val.codes addr p a1 a2 a3 := ⟨h1, h2, h3⟩
  have hrun := runProg_wrReg_taken (.ret (Result.none, s.ctx)) hs.toWriting hp hsends taken
  obtain ⟨hperform, hended⟩ := perform_done (i := .wrReg addr p) hidle hrun
  have hdev := afterBracket_dev_of_inRange hs ⟨hne, hw⟩ taken hrange
  refine ⟨_, rfl, hended, ?_⟩
  rw [hperform, finishOp_dev, finishOp_ctx, hdev]
  exact ⟨rfl, readReg_writeReg _ _ rfl, fun x hx => readCell_writeReg_of_forall_ne _ _ _ hx, rfl, rfl, rfl⟩

theorem progAll_bracketFrames {α : Type} {b : Board} {addr : Byte} {p : List Byte} {pv : α → Prop}
    {pn : Nat → Prop} {k : Prog α} (hk : ProgAll pv (fun _ => True) (BracketFrame b.codes addr p) pn k) :
    ProgAll pv (fun _ => True) (BracketFrame b.codes addr p) pn (progWrReg b addr p k) := by
  unfold progWrReg withinBuffer
  split
  · trivial
  · refine ⟨.enable, fun a1 => ?_⟩
    dsimp only
    split
    · trivial
    · refine ⟨.data, fun a2 => ⟨.disable, fun a3 => ?_⟩⟩
      dsimp only
      split_ifs
      · trivial
      · trivial
      · trivial
      · exact hk

/-- A state during a `WR_REG` to `addr` that began with the device as `d`. -/
def WritesOnly (b : WfBoard) (addr : Byte) (d : Device) (t : State) : Prop :=
  Writing b t ∧ KeepsOthers (addr &&& 0x7F) d t.dev

theorem writesOnly_presentSend {b : WfBoard} {addr : Byte} {d : Device} {t : State} (f : List Byte)
    (h : WritesOnly b addr d t) : WritesOnly b addr d (presentSend f t) :=
  ⟨⟨h.1.board, h.1.plain, h.1.ready⟩, h.2⟩

theorem writesOnly_transSend {b : WfBoard} {addr : Byte} {p f : List Byte} {d : Device} {t u : State} {a : SendAnswer}
    (hw : Writable b.val addr p) (hf : BracketFrame b.val.codes addr p f) (h : WritesOnly b addr d t)
    (hsend : transSend f t = some (a, u)) : WritesOnly b addr d u := by
  obtain ⟨writing, keeps⟩ := h
  obtain ⟨plan, rest, -, rfl, rfl⟩ := transSend_some hsend
  have effect := sendEffect_keepsOthers writing hw hf (sendAnswerOf f.length plan)
  exact ⟨⟨writing.board, writing.plain, effect.ready.trans writing.ready⟩, keeps.trans effect⟩

/-- Settles O13: each frame of the bracket, sent with any answer, keeps what is not the register's, so every run of
the program does. -/
theorem writeTouchesOnlyItsRegister : Obligations.WriteTouchesOnlyItsRegister := by
  intro s addr p hidle hready hne hw
  have start : WritesOnly s.board addr s.dev (resumed (.wrReg addr p) s) :=
    ⟨⟨rfl, fun _ _ hop => by cases hop; exact hne, hready⟩, .refl _ _⟩
  have frames : ProgAll (fun _ => True) (fun _ => True) (BracketFrame s.board.val.codes addr p) (fun _ => False)
      (progWrReg s.board.val addr p (.ret (Result.none, s.ctx))) := progAll_bracketFrames trivial
  obtain ⟨u, -, ⟨writing, keeps⟩, hcases⟩ := perform_all (i := .wrReg addr p) frames
    (fun f _ _ h => writesOnly_presentSend f h) (fun _ _ _ _ hf h hsend => writesOnly_transSend ⟨hne, hw⟩ hf h hsend)
    (fun _ _ _ _ hf _ _ => hf.elim) start
  have hdev : (perform (.wrReg addr p) (progWrReg s.board.val addr p (.ret (Result.none, s.ctx))) s).dev = u.dev := by
    rcases hcases with ⟨r, c, -, h⟩ | ⟨st, -, h⟩ | h
    · rw [h, finishOp_dev]
    · rw [h, finishOp_dev]
    · rw [h]
  refine ⟨_, rfl, ?_⟩
  rw [hdev]
  exact ⟨writing.ready, keeps.sel, keeps.cells⟩

end Sys2Proof.Machine
end

section
/-! The writes of `APPLY_CAL` that were delivered before one that failed (R103): what the registers hold after them,
and that the failed one leaves the others. -/

namespace Sys2Proof.Machine

/-! ### Registers of the table -/

/-- An entry of the table has bit 7 of its read address clear, and its write address is not the control address
(R10, R33). -/
theorem address_of_entry {b : WfBoard} {r : RegId} {e : RegEntry} (he : b.val.entry r = some e) :
    e.raddr.msb = false ∧ writeAddr e.raddr ≠ ctrlAddr := by
  obtain ⟨b, hb⟩ := b
  simp only [Board.wf, Bool.and_eq_true, and_assoc, List.all_eq_true] at hb
  obtain ⟨-, -, table, -⟩ := hb
  have hwf := table _ (mem_of_lookup_eq_some he)
  simp only [RegEntry.wf, Bool.and_eq_true, Bool.not_eq_true', beq_iff_eq, bne_iff_ne, ne_eq] at hwf
  obtain ⟨⟨⟨hmsb, hwaddr⟩, hne⟩, -⟩ := hwf
  exact ⟨hmsb, fun h => hne (hwaddr.trans h)⟩

theorem and_low_bits_of_msb_false {a : Byte} (h : a.msb = false) : a &&& 0x7F = a := by
  have low : a.toNat < 2 ^ 7 := by
    have := BitVec.msb_eq_false_iff_two_mul_lt.1 h
    omega
  refine BitVec.eq_of_toNat_eq ?_
  rw [BitVec.toNat_and]
  exact (Nat.and_two_pow_sub_one_eq_mod a.toNat 7).trans (Nat.mod_eq_of_lt low)

/-- The bytes `APPLY_CAL` writes for a field to a register of the table (R103). -/
def calBytes (rec : CalRec) (f : CalField) (e : RegEntry) : List Byte :=
  serBytes (fieldOf e.width (calField rec f)) e.width

theorem length_calBytes (rec : CalRec) (f : CalField) (e : RegEntry) : (calBytes rec f e).length = e.width :=
  length_serBytes _ _

theorem writable_of_entry {b : WfBoard} {r : RegId} {e : RegEntry} (he : b.val.entry r = some e)
    (hw : widthAt b.val e.raddr = some e.width) (rec : CalRec) (f : CalField) :
    Writable b.val e.raddr (calBytes rec f e) := by
  obtain ⟨hmsb, hne⟩ := address_of_entry he
  exact ⟨hne, by rw [and_low_bits_of_msb_false hmsb, length_calBytes, hw]⟩

/-! ### One write after another -/

/-- The device `d'` after the writes of the fields `xs` to the registers `es`, in that order, to the device `d`: the
last write of a register stands where its value is in range, and what no write is to is as it was. -/
structure Calibrated (rec : CalRec) (xs : List (CalField × RegId)) (es : List RegEntry) (d d' : Device) : Prop where
  outOfRange : d'.outOfRange = d.outOfRange
  others : ∀ a, (∀ e ∈ es, e.raddr ≠ a) → ∀ w, readReg d'.reg a w = readReg d.reg a w
  stored : ∀ {j : Nat} {f r e}, xs[j]? = some (f, r) → es[j]? = some e →
    (e.raddr, beNat (calBytes rec f e)) ∉ d.outOfRange →
    (∀ (i : Nat) (x : RegEntry), j < i → es[i]? = some x → x.raddr ≠ e.raddr) →
    readReg d'.reg e.raddr e.width = some (calBytes rec f e)

theorem Calibrated.nil (rec : CalRec) (d : Device) : Calibrated rec [] [] d d :=
  ⟨rfl, fun _ _ _ => rfl, fun h => nomatch h⟩

/-- A write more at the beginning: of the writes after it, those to its register replace it and the others leave it. -/
theorem Calibrated.cons {rec : CalRec} {f : CalField} {r : RegId} {e : RegEntry} {xs : List (CalField × RegId)}
    {es : List RegEntry} {d d1 d' : Device} (keeps : KeepsOthers e.raddr d d1)
    (first : (e.raddr, beNat (calBytes rec f e)) ∉ d.outOfRange →
      readReg d1.reg e.raddr e.width = some (calBytes rec f e))
    (rest : Calibrated rec xs es d1 d') : Calibrated rec ((f, r) :: xs) (e :: es) d d' where
  outOfRange := rest.outOfRange.trans keeps.outOfRange
  others a ha w := by
    obtain ⟨he, hes⟩ := List.forall_mem_cons.1 ha
    exact (rest.others a hes w).trans (keeps.readReg he w)
  stored {j g q x} hg hx hrange hlater := by
    cases j with
    | zero =>
      cases hg
      cases hx
      have notLater : ∀ y ∈ es, y.raddr ≠ e.raddr := fun y hy => by
        obtain ⟨i, hi⟩ := List.getElem?_of_mem hy
        exact hlater (i + 1) y (Nat.succ_pos i) hi
      exact (rest.others _ notLater _).trans (first hrange)
    | succ j =>
      exact rest.stored hg hx (keeps.outOfRange ▸ hrange)
        fun i y hi hy => hlater (i + 1) y (Nat.succ_lt_succ hi) hy

/-- A delivered write of a field. -/
theorem afterBracket_calibrates {b : WfBoard} {s : State} {r : RegId} {e : RegEntry} {rec : CalRec} {f : CalField}
    {a1 a2 a3 : SendAnswer} (hs : Delivering b s) (he : b.val.entry r = some e)
    (hw : widthAt b.val e.raddr = some e.width)
    (ha : BracketTaken b.val.codes e.raddr (calBytes rec f e) a1 a2 a3) :
    KeepsOthers e.raddr s.dev (afterBracket s e.raddr (calBytes rec f e) a1 a2 a3).dev ∧
      ((e.raddr, beNat (calBytes rec f e)) ∉ s.dev.outOfRange →
        readReg (afterBracket s e.raddr (calBytes rec f e) a1 a2 a3).dev.reg e.raddr e.width =
          some (calBytes rec f e)) := by
  have writable := writable_of_entry he hw rec f
  have address := and_low_bits_of_msb_false (address_of_entry he).1
  refine ⟨by simpa only [address] using afterBracket_keepsOthers hs.toWriting writable a1 a2 a3, fun hrange => ?_⟩
  rw [afterBracket_dev_of_inRange hs writable ha (by rwa [address]), address]
  exact readReg_writeReg _ _ (length_calBytes rec f e)

/-! ### The delivered writes of `APPLY_CAL` -/

/-- The transport takes any frame of the machine (R26). -/
def TakesAny (b : Board) (a : SendAnswer) : Prop := ∃ n, a = .sent n ∧ b.nmax + 3 ≤ n

theorem bracketTaken_of_takesAny {b : Board} {addr : Byte} {p : List Byte} {a1 a2 a3 : SendAnswer}
    (hp : p.length ≤ b.nmax) (h1 : TakesAny b a1) (h2 : TakesAny b a2) (h3 : TakesAny b a3) :
    BracketTaken b.codes addr p a1 a2 a3 := by
  have takes : ∀ {f : List Byte} {a : SendAnswer}, f.length ≤ b.nmax + 3 → TakesAny b a → Takes f a :=
    fun hf ⟨n, ha, hn⟩ => (takes_iff _ _).2 ⟨n, ha, hf.trans hn⟩
  have command : ∀ k, (cmdFrame ctrlAddr k).length ≤ b.nmax + 3 := fun k => (frameOk_cmdFrame _ _).2.2
  exact ⟨takes (command _) h1, takes (frameOk_writeFrame _ _ hp).2.2 h2, takes (command _) h3⟩

theorem progApplyCal_cons {α : Type} {b : Board} {rec : CalRec} {x : CalField × RegId} {e : RegEntry}
    {rest : List (CalField × RegId)} {k : Prog α} (he : b.entry x.2 = some e) :
    progApplyCal b rec (x :: rest) k =
      progWrReg b e.raddr (calBytes rec x.1 e) (progApplyCal b rec rest k) := by
  rw [progApplyCal, he]
  rfl

/-- The writes of `APPLY_CAL` to the registers `es` when the transport takes their frames whole: the run goes on with
the writes after them, from a device that has them all. -/
theorem runProg_applyCal_taken {α : Type} {b : WfBoard} {rec : CalRec} {xs : List (CalField × RegId)}
    {es : List RegEntry} {as sends : List SendAnswer} {s : State} (rest : List (CalField × RegId)) (k : Prog α)
    (hs : Delivering b s) (hentries : xs.map (fun x => b.val.entry x.2) = es.map some)
    (hwidths : ∀ e ∈ es, widthAt b.val e.raddr = some e.width) (hlen : as.length = 3 * es.length)
    (htakes : ∀ a ∈ as, TakesAny b.val a) (hsends : s.sends = as ++ sends) :
    ∃ u, runProg (progApplyCal b.val rec (xs ++ rest) k) s = runProg (progApplyCal b.val rec rest k) u ∧
      Delivering b u ∧ u.sends = sends ∧ Calibrated rec xs es s.dev u.dev := by
  induction xs generalizing es as s with
  | nil =>
    obtain rfl : es = [] := by simpa using hentries.symm
    obtain rfl : as = [] := List.eq_nil_of_length_eq_zero hlen
    exact ⟨s, rfl, hs, hsends, .nil rec s.dev⟩
  | cons x xs ih =>
    cases es with
    | nil => cases hentries
    | cons e es =>
      obtain ⟨he, hentries⟩ := List.cons.inj hentries
      obtain ⟨hw, hwidths⟩ := List.forall_mem_cons.1 hwidths
      obtain ⟨a1, a2, a3, as, rfl⟩ : ∃ a1 a2 a3 as', as = a1 :: a2 :: a3 :: as' := by
        match as, hlen with
        | a1 :: a2 :: a3 :: as', _ => exact ⟨a1, a2, a3, as', rfl⟩
      simp only [List.forall_mem_cons] at htakes
      obtain ⟨h1, h2, h3, htakes⟩ := htakes
      have hp : (calBytes rec x.1 e).length ≤ b.val.nmax :=
        (length_calBytes rec x.1 e).trans_le ((conditions b).width he)
      have taken := bracketTaken_of_takesAny (addr := e.raddr) hp h1 h2 h3
      have writable := writable_of_entry he hw rec x.1
      obtain ⟨keeps, stored⟩ := afterBracket_calibrates hs he hw taken
      have hlen' : as.length = 3 * es.length := by
        simp only [List.length_cons] at hlen
        omega
      have hsends' : (afterBracket s e.raddr (calBytes rec x.1 e) a1 a2 a3).sends = as ++ sends :=
        congrArg (fun l => l.tail.tail.tail) hsends
      obtain ⟨u, hrun, delivering, hu, calibrated⟩ :=
        ih (hs.afterBracket writable taken) hentries hwidths hlen' htakes hsends'
      refine ⟨u, ?_, delivering, hu, .cons keeps stored calibrated⟩
      rw [List.cons_append, progApplyCal_cons he, runProg_wrReg_taken _ hs.toWriting hp hsends taken, hrun]

/-- A write of which a frame is lost, after writes that were delivered: the operation ends with `IO_ERROR`, and the
device has the earlier writes, in all registers but that one (R103, R104). -/
theorem runProg_applyCal_lost {α : Type} {b : WfBoard} {rec : CalRec} {xs : List (CalField × RegId)}
    {es : List RegEntry} {f : CalField} {r : RegId} {e : RegEntry} {as sends : List SendAnswer}
    {a1 a2 a3 : SendAnswer} {s : State} (rest : List (CalField × RegId)) (k : Prog α) (hs : Delivering b s)
    (hentries : xs.map (fun x => b.val.entry x.2) = es.map some) (he : b.val.entry r = some e)
    (hwidths : ∀ x ∈ es ++ [e], widthAt b.val x.raddr = some x.width) (hlen : as.length = 3 * es.length)
    (htakes : ∀ a ∈ as, TakesAny b.val a)
    (hlost : ¬ BracketTaken b.val.codes e.raddr (calBytes rec f e) a1 a2 a3)
    (hsends : s.sends = as ++ a1 :: a2 :: a3 :: sends) :
    ∃ d t, runProg (progApplyCal b.val rec (xs ++ (f, r) :: rest) k) s = (.raised .ioError, t) ∧
      Calibrated rec xs es s.dev d ∧ KeepsOthers e.raddr d t.dev := by
  obtain ⟨hwidths, hw⟩ := List.forall_mem_append.1 hwidths
  obtain ⟨u, hrun, delivering, hu, calibrated⟩ :=
    runProg_applyCal_taken ((f, r) :: rest) k hs hentries hwidths hlen htakes hsends
  have hp : (calBytes rec f e).length ≤ b.val.nmax :=
    (length_calBytes rec f e).trans_le ((conditions b).width he)
  obtain ⟨t, hfail, keeps⟩ := runProg_wrReg_lost (progApplyCal b.val rec rest k) delivering.toWriting
    (writable_of_entry he (hw e List.mem_cons_self) rec f) hp hu hlost
  rw [and_low_bits_of_msb_false (address_of_entry he).1] at keeps
  exact ⟨u.dev, t, by rw [hrun, progApplyCal_cons he, hfail], calibrated, keeps⟩

theorem eq_take_append_cons_drop {α : Type} {l : List α} {k : Nat} {x : α} (h : l[k]? = some x) :
    l = l.take k ++ x :: l.drop (k + 1) := by
  conv_lhs => rw [← List.take_append_drop k l, List.drop_eq_getElem?_toList_append, h]
  rfl

/-- Settles O26: the writes before the failed one leave the value in its register, and the failed one, to another
register, leaves it there. -/
theorem earlierCalibrationWritesStay : Obligations.EarlierCalibrationWritesStay := by
  intro s rec k j es e ej f fk r rk v q as sends a1 a2 a3 hidle hentries hlen hk hq hwidths hready hjk hej hj hv hrange
    hlater has htakes hlost hsends
  subst hq hv
  rw [List.take_add_one, hk, List.map_append, List.map_append] at hentries
  obtain ⟨hentries, hlast⟩ := List.append_inj' hentries rfl
  have he : s.board.val.entry rk = some e := (List.cons.inj hlast).1
  have start : Delivering s.board (begun (.applyCal rec) s) := ⟨⟨rfl, nofun, hready⟩, rfl⟩
  obtain ⟨d, t, hrun, calibrated, keeps⟩ := runProg_applyCal_lost (f := fk) (s.board.val.calOrder.drop (k + 1))
    (.ret (Result.none, s.ctx)) start hentries he hwidths (hlen ▸ has) htakes hlost hsends
  rw [← eq_take_append_cons_drop hk] at hrun
  obtain ⟨hperform, hended⟩ := perform_raised hidle hrun
  have other : e.raddr ≠ ej.raddr := hlater k e hjk (by rw [List.getElem?_append_right hlen.le, hlen, Nat.sub_self]; rfl)
  have hfield : (s.board.val.calOrder.take k)[j]? = some (f, r) := (List.getElem?_take_of_lt hjk).trans hj
  have hstored := calibrated.stored hfield hej hrange fun i x hi hx =>
    hlater i x hi ((List.getElem?_append_left (List.getElem?_eq_some_iff.1 hx).1).trans hx)
  refine ⟨_, rfl, hended, ?_⟩
  rw [hperform, finishOp_dev, keeps.readReg other]
  exact hstored

end Sys2Proof.Machine
end

section
/-! A register read over the line (R46, R81): the request is answered by the device, and the receive delivers what it
answered. -/

namespace Sys2Proof.Machine

/-- The response a read makes of `p` and its checksum is `p`. -/
theorem checkResponse_goodResponse {α : Type} {addr : Byte} {w : Nat} {p : List Byte} (k : List Byte → Prog α)
    (hp : p.length = w) : checkResponse addr w k (.got (goodResponse addr p)) = k p := by
  subst hp
  have length : (goodResponse addr p).length = p.length + 1 := by simp [goodResponse]
  have payload : (goodResponse addr p).take p.length = p := List.take_left' rfl
  have checksum : (goodResponse addr p).getD p.length 0 = cksumByte hdrByte addr p := by simp [goodResponse]
  rw [checkResponse, length, payload, checksum, if_neg (lt_irrefl _), cksumMatches, if_pos (beq_self_eq_true _)]

/-- A request taken whole after which exactly the right response is on the line, and a receive of what is there. -/
theorem runProg_rdReg_line {α : Type} {b : Board} {s : State} {addr : Byte} {w : Nat} {p : List Byte} {a : SendAnswer}
    {sends : List SendAnswer} {recvs : List RecvPlan} (k : List Byte → Prog α) (hp : p.length = w) (hw : w ≤ b.nmax)
    (hs : s.sends = a :: sends) (ha : Takes (readFrame addr) a) (hr : s.recvs = .line :: recvs)
    (hline : (afterSend s (readFrame addr) a).dev.line = goodResponse addr p) :
    ∃ u, runProg (progRdReg b addr w k) s = runProg (k p) u ∧
      u.dev = { (afterSend s (readFrame addr) a).dev with line := [] } ∧ u.sends = sends ∧ u.recvs = recvs := by
  have length : (goodResponse addr p).length = w + 1 := by simp [goodResponse, hp]
  have answer : recvAnswerOf (w + 1) (afterSend s (readFrame addr) a).dev.line .line =
      (.got (goodResponse addr p), []) := by
    rw [hline, recvAnswerOf, List.take_of_length_le length.le, List.drop_of_length_le length.le]
  have hr' : (afterSend s (readFrame addr) a).recvs = .line :: recvs := hr
  rw [progRdReg, withinBuffer_of_le hw, runProg_sendFrame _ hs, sendStatus_of_takes ha, if_pos rfl, runProg,
    transRecv_cons hr', answer]
  dsimp only
  rw [checkResponse_goodResponse k hp]
  exact ⟨_, rfl, rfl, congrArg List.tail hs, rfl⟩

/-- The device puts a known register's response on a clear line and stays as it was (log 20). -/
theorem deviceRead_known {b : Board} {d : Device} {a : Byte} {w : Nat} {p : List Byte}
    (hw : widthAt b a = some w) (hm : measuresAt b a = false) (hp : readReg d.reg a w = some p) :
    deviceRead b d a = { d with line := d.line ++ goodResponse a p } := by
  rw [deviceRead_of_width hw, deviceContent_known hm hp, goodResponse]

/-- Settles O41: what the device answers is the whole of the line, and the receive takes all of it. -/
theorem readReturnsTheDeviceRegister : Obligations.ReadReturnsTheDeviceRegister := by
  intro s addr w n p as plans hidle hready hmsb hmax hw hm hp hline hsends hn hrecvs
  have ha : Takes (readFrame addr) (.sent n) := (takes_iff _ _).2 ⟨n, rfl, hn⟩
  have start : Delivering s.board (begun (.rdReg addr w) s) := ⟨⟨rfl, nofun, hready⟩, rfl⟩
  have hdev : (afterSend (begun (.rdReg addr w) s) (readFrame addr) (.sent n)).dev =
      { s.dev with line := goodResponse addr p } := by
    rw [afterSend_dev_of_takes start ha, begun_dev, readFrame, deviceFrame_read _ _ _ hmsb,
      deviceRead_known hw hm hp, hline, List.nil_append]
  obtain ⟨u, hrun, hu, husends, hurecvs⟩ := runProg_rdReg_line (s := begun (.rdReg addr w) s)
    (fun p => .ret (Result.bytes p, s.ctx)) (length_of_readReg hp) hmax hsends ha hrecvs (congrArg Device.line hdev)
  obtain ⟨hperform, hended⟩ := perform_done hidle hrun
  refine ⟨_, rfl, hended, ?_⟩
  rw [hperform, finishOp_ctx, finishOp_dev, finishOp_sends, finishOp_recvs, hu, hdev, ← hline]
  exact ⟨rfl, rfl, husends, hurecvs⟩

end Sys2Proof.Machine
end

section
/-! What the encoder puts is read back (R56 to R59, R64, R65): the operands at the host port, the operations by their
number, and the frames by their format. -/

namespace Sys2Proof

open Machine

/-! ### Numbers as bytes -/

theorem beNat_append_singleton (p : List Byte) (d : Byte) : beNat (p ++ [d]) = beNat p * 256 + d.toNat :=
  List.foldl_append

/-- The last byte of a serialised value is its low byte, and the bytes before it serialise the rest. -/
theorem serBytes_succ (v w : Nat) : serBytes v (w + 1) = serBytes (v / 256) w ++ [BitVec.ofNat 8 (v % 256)] := by
  have low (n : Nat) : n &&& 0xFF = n % 256 := Nat.and_two_pow_sub_one_eq_mod n 8
  have before : ∀ i ∈ List.range w, BitVec.ofNat 8 ((v >>> (8 * (w - i))) &&& 0xFF) =
      BitVec.ofNat 8 (((v / 256) >>> (8 * (w - 1 - i))) &&& 0xFF) := fun i hi => by
    have shift : 8 * (w - i) = 8 + 8 * (w - 1 - i) := by have := List.mem_range.1 hi; omega
    rw [shift, Nat.shiftRight_add, Nat.shiftRight_eq_div_pow v 8]
  simp only [serBytes, List.range_succ, List.map_append, List.map_singleton, Nat.add_sub_cancel, Nat.sub_self,
    Nat.mul_zero, Nat.shiftRight_zero, List.map_congr_left before, low v]

/-- Serialising keeps the low bytes of a value (R95). -/
theorem beNat_serBytes_mod (v w : Nat) : beNat (serBytes v w) = v % 256 ^ w := by
  induction w generalizing v with
  | zero => rw [Nat.pow_zero, Nat.mod_one]; rfl
  | succ w ih =>
    have byte : (BitVec.ofNat 8 (v % 256)).toNat = v % 256 := by rw [BitVec.toNat_ofNat]; omega
    rw [serBytes_succ, beNat_append_singleton, ih, byte, Nat.pow_succ', Nat.mod_mul]
    omega

/-- The bytes the encoder takes for a number hold it. -/
theorem lt_pow_byteLen (n : Nat) : n < 256 ^ byteLen n := by
  unfold byteLen
  split
  · omega
  · calc n < 2 ^ (n.log2 + 1) := Nat.lt_log2_self
      _ ≤ 2 ^ (8 * (n.log2 / 8 + 1)) := Nat.pow_le_pow_right (by decide) (by omega)
      _ = 256 ^ (n.log2 / 8 + 1) := Nat.pow_mul 2 8 _

/-! ### Operands at the host port -/

@[simp] theorem takeByte_cons (b : Byte) (r : List Byte) : takeByte (b :: r) = .ok (b, r) := rfl

@[simp] theorem takeNat_putNat (n : Nat) (rest : List Byte) : takeNat (putNat n ++ rest) = .ok (n, rest) := by
  rw [takeNat, putNat, takePayload_putPayload]
  dsimp only
  rw [beNat_serBytes_mod, Nat.mod_eq_of_lt (lt_pow_byteLen n)]

@[simp] theorem takeInt_putInt (v : Int) (rest : List Byte) : takeInt (putInt v ++ rest) = .ok (v, rest) := by
  rw [takeInt, putInt, takeNat_putNat]
  dsimp only
  rw [unzigzag_zigzag]

@[simp] theorem takeSel_putSel (ch : BitVec 2) (rest : List Byte) : takeSel (putSel ch ++ rest) = .ok (ch, rest) := by
  have selector : ∀ ch : BitVec 2, BitVec.ofNat 2 (min (BitVec.ofNat 8 ch.toNat).toNat 3) = ch := by decide
  exact congrArg (fun ch => Except.ok (ch, rest)) (selector ch)

@[simp] theorem takeRatio_putRatio (r : RawRatio) (rest : List Byte) :
    takeRatio (putRatio r ++ rest) = .ok (r, rest) := by
  simp only [takeRatio, putRatio, List.append_assoc, takeInt_putInt, takeNat_putNat, thenTake_ok]

@[simp] theorem takeCalRec_putCalRec (c : CalRec) (rest : List Byte) :
    takeCalRec (putCalRec c ++ rest) = .ok (c, rest) := by
  simp only [takeCalRec, putCalRec, List.append_assoc, takeNat_putNat, thenTake_ok]

/-! ### Operations -/

/-- The operation of a number (R64) takes back the operands the encoder put in the order of R65, and leaves what
follows. -/
theorem decodeOp_encode (b : Board) {i : Instr} (rest : List Byte) (hport : i.port = .host)
    (hvalid : i.valid b = true) : decodeOp (encode b.codes i ++ rest) = .ok i := by
  cases i with
  | rq | wf | cf | rs | wren | wrdis | selA | selB | devreset => cases hport
  | reset | getRatio | getSel | loadCoef | convFreq | convPf | convPhase => rfl
  | encRead | encCmd | sendCmd => rfl
  | rdReg a w =>
    have width : (BitVec.ofNat 8 w).toNat = w := Nat.mod_eq_of_lt (of_decide_eq_true hvalid)
    exact congrArg (fun w => Except.ok (Instr.rdReg a w)) width
  | _ => simp [encode, decodeOp, decodeOperands]

/-! ### Frames -/

/-- A command with its right checksum is one of the named ones by its code, or is none (R58, R8). -/
theorem decodeCommand_right (c : Codes) (k : Byte) :
    decodeCommand c k (cksumByte hdrByte ctrlAddr [k]) =
      if k = c.wren then .wren
      else if k = c.wrdis then .wrdis
      else if k = c.selA then .selA
      else if k = c.selB then .selB
      else if k = c.reset then .devreset
      else .cf k (cksumByte hdrByte ctrlAddr [k]) :=
  if_pos (beq_self_eq_true _)

/-- A general command frame is a command with a wrong checksum or with a code that is none of the five. -/
theorem commandWf_iff (c : Codes) (k ck : Byte) :
    commandWf c k ck = true ↔
      (cksumMatches hdrByte ctrlAddr [k] ck = true →
        k ≠ c.wren ∧ k ≠ c.wrdis ∧ k ≠ c.selA ∧ k ≠ c.selB ∧ k ≠ c.reset) := by
  simp [commandWf, cksumMatches, and_assoc, imp_iff_not_or]

/-- A general command frame is none of the named commands. -/
theorem decodeCommand_of_commandWf {c : Codes} {k ck : Byte} (h : commandWf c k ck = true) :
    decodeCommand c k ck = .cf k ck := by
  unfold decodeCommand
  split
  · obtain ⟨hwren, hwrdis, hselA, hselB, hreset⟩ := (commandWf_iff c k ck).1 h ‹_›
    rw [if_neg hwren, if_neg hwrdis, if_neg hselA, if_neg hselB, if_neg hreset]
  · rfl

/-- Four bytes to the control address are a command (R58). -/
theorem decodeFrame_command (b : Board) (k ck : Byte) :
    decodeFrame b [hdrByte, ctrlAddr, k, ck] = .ok (decodeCommand b.codes k ck) := rfl

theorem decodeWrite_append {n : Nat} (wa : Byte) {p : List Byte} (ck : Byte) (h : p.length ≤ n) :
    decodeWrite n wa (p ++ [ck]) = .ok (.wf wa p ck) := by
  simp [decodeWrite, h]

/-- A write frame within the buffers that is no command is read as one (R57). -/
theorem decodeFrame_write {b : Board} {wa : Byte} {p : List Byte} (ck : Byte) (hlen : p.length ≤ b.nmax)
    (hcommand : ¬ (wa = ctrlAddr ∧ p.length = 1)) :
    decodeFrame b ([hdrByte, wa] ++ p ++ [ck]) = .ok (.wf wa p ck) := by
  match p with
  | [] => exact decodeWrite_append wa ck hlen
  | [k] => exact if_neg fun h => hcommand ⟨h, rfl⟩
  | [_, _] | _ :: _ :: _ :: _ => exact decodeWrite_append wa ck hlen

theorem decodeResponse_append {b : Board} {p : List Byte} (ck : Byte) (h : p.length ≤ b.nmax) :
    decodeResponse b (p ++ [ck]) = .ok (.rs p ck) := by
  simp [decodeResponse, h]

/-- A frame to the device, whichever its row, is read back from its bytes under distinct command codes. -/
theorem decodeFrame_encode {b : Board} {i : Instr} (hcodes : b.codes.wf = true) (hport : i.port = .down)
    (hvalid : i.valid b = true) : decodeFrame b (encode b.codes i) = .ok i := by
  have distinct : [b.codes.reset, b.codes.selA, b.codes.selB, b.codes.wren, b.codes.wrdis].Nodup :=
    of_decide_eq_true hcodes
  cases i with
  | rq => rfl
  | wf wa p ck =>
    obtain ⟨hlen, hcommand⟩ : p.length ≤ b.nmax ∧ ¬ (wa = ctrlAddr ∧ p.length = 1) := by
      simpa [Instr.valid, imp_iff_not_or] using hvalid
    exact decodeFrame_write ck hlen hcommand
  | cf k ck => rw [encode, decodeFrame_command, decodeCommand_of_commandWf hvalid]
  | wren | wrdis | selA | selB | devreset =>
    rw [encode, cmdFrame, decodeFrame_command, decodeCommand_right]
    grind
  | _ => cases hport

/-- Settles O1: port by port, each frame by its format and each operation by its number. -/
theorem decodeOfEncodeIsTheInstruction : Obligations.DecodeOfEncodeIsTheInstruction := by
  intro b i rest hcodes hvalid
  cases hport : i.port with
  | host =>
    rw [if_pos rfl]
    exact decodeOp_encode b rest hport hvalid
  | down =>
    rw [if_neg nofun]
    exact decodeFrame_encode hcodes hport hvalid
  | up =>
    rw [if_neg nofun]
    cases i with
    | rs p ck => exact decodeResponse_append ck (of_decide_eq_true hvalid)
    | _ => cases hport

/-- Settles O2: each word by its format or its number, whatever the configuration, since every `NMAX` is 4 at
least. -/
theorem writtenOutWordsDecode : Obligations.WrittenOutWordsDecode := by
  intro b
  have room : 2 ≤ b.nmax := le_trans (by decide) (four_le_nmax b)
  exact ⟨rfl, decodeFrame_write (p := [0x10, 0x00]) 0xC8 room (by decide),
    decodeResponse_append (p := [0xFF, 0xFF]) 0xEC room, rfl⟩

end Sys2Proof
end

section
/-! An operation number outside the table of R64 (R66). -/

namespace Sys2Proof.Machine

/-- The numbers outside the table of R64, the ranges R66 lists. -/
theorem decodeOperands_unknown {op : Byte} (bs : List Byte)
    (h : 0x05 ≤ op.toNat ∧ op.toNat ≤ 0x0F ∨ 0x15 ≤ op.toNat ∧ op.toNat ≤ 0x1F ∨
      0x28 ≤ op.toNat ∧ op.toNat ≤ 0x2F ∨ 0x39 ≤ op.toNat) :
    decodeOperands op bs = .error (.unknownOp op) := by
  unfold decodeOperands
  split
  case h_28 => rfl
  all_goals omega

theorem acceptOp_unknown {op k : Byte} {bs : List Byte} {s : State} (hcreated : s.created = true)
    (h : decodeOperands op bs = .error (.unknownOp k)) : acceptOp (op :: bs) s = .next (respondUnknown s) := by
  rw [acceptOp, if_pos hcreated, decodeOp, h]

/-- Settles O44: the idle block takes the presentation, whose number no row of the table has. -/
theorem unknownOperationIsNotImplemented : Obligations.UnknownOperationIsNotImplemented := by
  intro s op bs rest hidle hcreated hworld hhost hrange
  rw [step_of_idle hidle hworld hhost]
  exact acceptOp_unknown hcreated (decodeOperands_unknown bs hrange)

end Sys2Proof.Machine
end

section
/-! Frames the device should not get (U7, U8), taken by the procedure of R69: what each reaches is open, and the block
does not see it. -/

namespace Sys2Proof.Machine

/-! ### A device that is not ready -/

/-- Before the settle time is over any frame reaches everything (U8). -/
theorem deviceReceive_of_not_ready {b : Board} {d : Device} {f : List Byte} (h : d.ready = false) :
    deviceReceive b d f = deviceOpen d .all := by
  simp only [deviceReceive, deviceUpset, h, Bool.false_eq_true, if_false]

/-! ### A ready device -/

/-- What a frame a ready device should not get reaches (U7). -/
theorem deviceUpset_of_ready {c : Codes} {d : Device} {f : List Byte} (h : d.ready = true) :
    deviceUpset c d f = deviceOpen d (frameTouch c f) := by
  rw [deviceUpset, if_pos h]

/-- A command that is none of the five named ones with its right checksum. -/
theorem deviceCommand_unnamed {c : Codes} {d : Device} {k ck : Byte} (h : commandWf c k ck = true) :
    deviceCommand c d k ck = deviceOpen d .all := by
  unfold deviceCommand
  split
  · obtain ⟨hwren, hwrdis, hselA, hselB, hreset⟩ := (commandWf_iff c k ck).1 h ‹_›
    rw [if_neg hwren, if_neg hwrdis, if_neg hselA, if_neg hselB, if_neg hreset]
  · rfl

/-- A write frame of the register's width with a wrong checksum, or at a protected device. -/
theorem deviceWrite_rejected {d : Device} {wa ck : Byte} {p : List Byte}
    (h : ck ≠ cksumByte hdrByte wa p ∨ d.we = false) :
    deviceWrite d wa p ck = deviceOpen d (.register (readAddrOf wa)) := by
  refine if_neg fun hright => ?_
  obtain ⟨hck, hwe⟩ := Bool.and_eq_true_iff.1 hright
  rcases h with h | h
  · exact h (eq_of_beq hck).symm
  · exact absurd (hwe.symm.trans h) (by decide)

/-- A longer frame to the control address is a command and bytes beyond it. -/
theorem deviceFrame_command_longer (b : Board) (d : Device) (k ck : Byte) (more : List Byte) :
    deviceFrame b d (hdrByte :: ctrlAddr :: k :: ck :: more) = deviceStray (deviceCommand b.codes d k ck) more := rfl

/-- A longer frame with bit 7 of its address clear is a read request and bytes beyond it. -/
theorem deviceFrame_read_longer (b : Board) (d : Device) (a : Byte) (rest : List Byte) (hm : a.msb = false) :
    deviceFrame b d (hdrByte :: a :: rest) = deviceStray (deviceRead b d a) rest := by
  have hne : a ≠ ctrlAddr := by rintro rfl; exact absurd hm (by decide)
  simp only [deviceFrame, ne_eq, not_true_eq_false, if_false, hne, hm, Bool.false_eq_true]

section Misfit
variable {b : Board} {d : Device} {a : Byte} {rest : List Byte} (hready : d.ready = true) (hm : a.msb = true)
  (hne : a ≠ ctrlAddr)
include hready hm hne

/-- A frame to a register, of another width than the register's. -/
theorem deviceFrame_wrong_width {w : Nat} (hw : widthAt b (readAddrOf a) = some w) (hlen : rest.length ≠ w + 1) :
    deviceFrame b d (hdrByte :: a :: rest) =
      deviceStray (deviceOpen d (.register (readAddrOf a))) (rest.drop (w + 1)) := by
  rw [deviceFrame_misfit b d a rest hm hne (by rintro w' hw'; cases hw.symm.trans hw'; exact hlen),
    deviceUpset_of_ready hready, frameTouch_write _ _ _ hm hne, hw]

/-- A frame to a register the device lacks. -/
theorem deviceFrame_no_register (hw : widthAt b (readAddrOf a) = none) :
    deviceFrame b d (hdrByte :: a :: rest) = deviceStray (deviceOpen d (.register (readAddrOf a))) rest := by
  rw [deviceFrame_misfit b d a rest hm hne (by simp [hw]), deviceUpset_of_ready hready,
    frameTouch_write _ _ _ hm hne, hw]

/-- Two bytes with bit 7 of the address set: a write frame cut short, whatever the register's width. -/
theorem deviceFrame_read_msb :
    deviceFrame b d (readFrame a) = deviceOpen d (.register (readAddrOf a)) := by
  cases hw : widthAt b (readAddrOf a) with
  | none => exact deviceFrame_no_register hready hm hne hw
  | some w => exact deviceFrame_wrong_width hready hm hne hw (Nat.succ_ne_zero w).symm

end Misfit

/-- A read request to the control address, or to an address the device lacks: the line alone is open. -/
theorem deviceFrame_read_nowhere {b : Board} {d : Device} {a : Byte} (hready : d.ready = true)
    (h : a = ctrlAddr ∨ a.msb = false ∧ widthAt b a = none) :
    deviceFrame b d (readFrame a) = deviceOpen d .answer := by
  rcases h with rfl | ⟨hm, hw⟩
  · exact deviceUpset_of_ready hready
  · rw [readFrame, deviceFrame_read b d a hm, deviceRead, hw]

/-! ### What an open reaction draws -/

theorem deviceStray_nil (d : Device) : deviceStray d [] = d := rfl

/-- Bytes beyond a frame reach everything if a frame may begin in them, and the line alone if none may (R69). -/
theorem deviceStray_of_ne_nil (d : Device) {bs : List Byte} (h : bs ≠ []) :
    deviceStray d bs = deviceOpen d (if hdrByte ∈ bs then .all else .answer) := by
  rw [deviceStray, if_neg (by simpa using h), strayTouch]
  simp only [List.contains_iff_mem]

theorem deviceOpen_ready (d : Device) {x : Touch} (hall : x ≠ .all) : (deviceOpen d x).ready = d.ready := by
  cases x with
  | all => exact absurd rfl hall
  | _ => rfl

theorem deviceOpen_we (d : Device) {x : Touch} (hall : x ≠ .all) (h : x ≠ .enable) : (deviceOpen d x).we = d.we := by
  cases x with
  | all => exact absurd rfl hall
  | enable => exact absurd rfl h
  | _ => rfl

theorem deviceOpen_sel (d : Device) {x : Touch} (hall : x ≠ .all) (h : x ≠ .select) :
    (deviceOpen d x).sel = d.sel := by
  cases x with
  | all => exact absurd rfl hall
  | select => exact absurd rfl h
  | _ => rfl

theorem deviceOpen_reg (d : Device) {x : Touch} (hall : x ≠ .all) (h : ∀ a, x ≠ .register a) :
    (deviceOpen d x).reg = d.reg := by
  cases x with
  | all => exact absurd rfl hall
  | register a => exact absurd rfl (h a)
  | _ => rfl

/-- Whatever it reaches, an open reaction puts bytes on the line, keeps the range, and counts what it draws. -/
theorem deviceOpen_eq (d : Device) (x : Touch) : deviceOpen d x =
    ⟨(deviceOpen d x).we, (deviceOpen d x).sel, (deviceOpen d x).reg, d.line ++ (Config.deviceDraw d.tick).line,
      (deviceOpen d x).ready, d.outOfRange, d.tick + 1⟩ := by
  cases x <;> rfl

/-! ### The statement -/

/-- Settles O39: the frames in the order in which the statement lists them, each as R69 has a ready device take it. -/
theorem unexpectedFrameLeavesTheDeviceOpen : Obligations.UnexpectedFrameLeavesTheDeviceOpen := by
  intro s
  refine ⟨fun hready => ?_, fun hready i hport => ?_, deviceStray_nil, fun d bs => deviceStray_of_ne_nil d,
    fun d x => ?_⟩
  · have arrives {f : List Byte} {d : Device} := next_frameArrives_of_ready (f := f) (d := d) hready
    refine ⟨fun k ck h => ?command, fun wa p ck hm hne => ⟨fun hw h => ?rejected, fun w hw hlen => ?width,
      fun hw => ?noRegister⟩, fun ck => ?short, fun k c2 p ck => ?longer, fun a p ck hm => ?longRead,
      fun a hm hne => ?readMsb, fun a h => ?readNowhere⟩
    case command => exact arrives ((deviceFrame_command _ _ _ _).trans (deviceCommand_unnamed h))
    case rejected => exact arrives ((deviceFrame_write _ _ _ _ _ hm hne hw).trans (deviceWrite_rejected h))
    case width => exact arrives (deviceFrame_wrong_width hready hm hne hw (by simpa using hlen.symm))
    case noRegister => exact arrives (deviceFrame_no_register hready hm hne hw)
    case short => exact arrives (deviceUpset_of_ready hready)
    case longer => exact ⟨_, arrives (deviceFrame_command _ _ _ _), arrives (deviceFrame_command_longer _ _ _ _ _)⟩
    case longRead => exact ⟨_, arrives (deviceFrame_read _ _ _ hm), arrives (deviceFrame_read_longer _ _ _ _ hm)⟩
    case readMsb => exact arrives (deviceFrame_read_msb hready hm hne)
    case readNowhere => exact arrives (deviceFrame_read_nowhere hready h)
  · obtain ⟨f, hexec⟩ := exec_of_port_down hport s
    rw [hexec, frameArrives, deviceReceive_of_not_ready hready]
  · refine ⟨_, _, _, _, _, deviceOpen_eq d x, (deviceOpen_keeps d x).ready, deviceOpen_ready d, deviceOpen_we d,
      deviceOpen_sel d, deviceOpen_reg d, ?_⟩
    rintro a rfl y hy
    exact readCell_forgetReg d.reg a y hy

end Sys2Proof.Machine
end

section
/-! The frame codec (40_framecodec). The checksum is the complement of the word sum of the bytes, so it is the one byte
that brings their sum to 0xFF; and each codec operation of an idle block ends at once with a response of its operands
and `NMAX`. -/

namespace Sys2Proof.Machine

/-! ### The checksum -/

/-- The sum of R73 as a byte is the sum of the bytes. -/
theorem ofNat_cksumSum (h a : Byte) (p : List Byte) : BitVec.ofNat 8 (cksumSum h a p) = h + a + p.sum := by
  have payload : BitVec.ofNat 8 (p.map BitVec.toNat).sum = p.sum := by
    induction p with
    | nil => rfl
    | cons x p ih =>
      simp only [List.map_cons, List.sum_cons, BitVec.ofNat_add, ih, BitVec.ofNat_toNat, BitVec.setWidth_eq]
  simp only [cksumSum, BitVec.ofNat_add, payload, BitVec.ofNat_toNat, BitVec.setWidth_eq]

/-- R73's formula, with nothing lost in the byte. -/
theorem toNat_cksumByte (h a : Byte) (p : List Byte) :
    (cksumByte h a p).toNat = 0xFF - cksumSum h a p % 256 := by
  rw [cksumByte, BitVec.toNat_ofNat]
  omega

theorem cksumByte_eq_not (h a : Byte) (p : List Byte) : cksumByte h a p = ~~~(h + a + p.sum) := by
  apply BitVec.eq_of_toNat_eq
  rw [toNat_cksumByte, BitVec.toNat_not, ← ofNat_cksumSum, BitVec.toNat_ofNat]

/-- The checksum sees the sum of the bytes and nothing else. -/
theorem cksumByte_eq_cksumByte_iff {h h' a a' : Byte} {p p' : List Byte} :
    cksumByte h a p = cksumByte h' a' p' ↔ h + a + p.sum = h' + a' + p'.sum := by
  rw [cksumByte_eq_not, cksumByte_eq_not, BitVec.not_inj]

/-- R77's two tests agree: the checksum is the one byte that brings the sum to 0xFF. -/
theorem cksumByte_eq_iff {h a ck : Byte} {p : List Byte} :
    cksumByte h a p = ck ↔ (cksumSum h a p + ck.toNat) % 256 = 0xFF := by
  have hck := ck.isLt
  rw [← BitVec.toNat_inj, toNat_cksumByte]
  omega

theorem cksumMatches_iff {h a ck : Byte} {p : List Byte} : cksumMatches h a p ck = true ↔ cksumByte h a p = ck :=
  beq_iff_eq

theorem cksumMatches_cksumByte (h a : Byte) (p : List Byte) : cksumMatches h a p (cksumByte h a p) = true :=
  cksumMatches_iff.2 rfl

theorem cksumMatches_of_ne {h a ck : Byte} {p : List Byte} (hne : ck ≠ cksumByte h a p) :
    cksumMatches h a p ck = false :=
  Bool.eq_false_iff.2 fun hm => hne (cksumMatches_iff.1 hm).symm

/-- A byte with one bit flipped is another byte. -/
theorem xor_shiftedBit_ne (c : Byte) {i : Nat} (hi : i < 8) : c ^^^ (1#8 <<< i) ≠ c := by
  have bit : ∀ i < 8, 1#8 <<< i ≠ 0#8 := by decide
  simpa using bit i hi

/-! ### The frames -/

/-- A command frame is the write frame of its one-byte payload (R76). -/
theorem cmdFrame_eq_writeFrame (c k : Byte) : cmdFrame c k = writeFrame c [k] := rfl

theorem getLast?_writeFrame (a : Byte) (p : List Byte) :
    (writeFrame a p).getLast? = some (cksumByte hdrByte a p) :=
  List.getLast?_concat

theorem sum_writeFrame (a : Byte) (p : List Byte) :
    ((writeFrame a p).map BitVec.toNat).sum = cksumSum hdrByte a p + (cksumByte hdrByte a p).toNat := by
  simp [writeFrame, cksumSum, Nat.add_assoc]

/-- R78 (d). -/
theorem sum_writeFrame_mod (a : Byte) (p : List Byte) : ((writeFrame a p).map BitVec.toNat).sum % 256 = 0xFF := by
  rw [sum_writeFrame]
  exact cksumByte_eq_iff.1 rfl

/-! ### The operations -/

/-- The answer of an operation with a payload of `len` bytes: its result, or `BUFFER_TOO_SMALL` above `n = NMAX`. -/
def payloadResponse (n len : Nat) (r : Result) : Response :=
  if len ≤ n then ⟨.ok, r⟩ else ⟨.bufferTooSmall, .none⟩

theorem payloadResponse_of_le {n len : Nat} (r : Result) (h : len ≤ n) : payloadResponse n len r = ⟨.ok, r⟩ := if_pos h

theorem payloadResponse_of_gt {n len : Nat} (r : Result) (h : n < len) :
    payloadResponse n len r = ⟨.bufferTooSmall, .none⟩ := if_neg (Nat.not_le_of_lt h)

/-- One byte of payload always fits (R7). -/
theorem length_singleton_le_nmax (b : Board) (k : Byte) : [k].length ≤ b.nmax :=
  Nat.le_trans (show 1 ≤ 4 by decide) (four_le_nmax b)

section Idle
variable {s : State} (hs : Idle s)
include hs

/-- An operation that only checks the length of its payload and returns. -/
theorem perform_withinBuffer_ret (i : Instr) (len : Nat) (r : Result) :
    perform i (withinBuffer s.board.val len (.ret (r, s.ctx))) s =
      { s with out := some (payloadResponse s.board.val.nmax len r) } := by
  by_cases h : len ≤ s.board.val.nmax
  · rw [withinBuffer_of_le h, perform_ret i r s.ctx s hs, payloadResponse_of_le r h]
  · have h := Nat.lt_of_not_le h
    rw [withinBuffer_of_gt h, perform_raise i _ s hs, payloadResponse_of_gt r h]

theorem exec_cksum (h a : Byte) (p : List Byte) : exec (.cksum h a p) s =
    .next { s with out := some (payloadResponse s.board.val.nmax p.length (.byte (cksumByte h a p))) } :=
  congrArg Host.Outcome.next (perform_withinBuffer_ret hs _ _ _)

theorem exec_encRead (a : Byte) : exec (.encRead a) s = .next { s with out := some ⟨.ok, .bytes (readFrame a)⟩ } :=
  congrArg Host.Outcome.next (perform_ret _ _ _ s hs)

theorem exec_encWrite (a : Byte) (p : List Byte) : exec (.encWrite a p) s =
    .next { s with out := some (payloadResponse s.board.val.nmax p.length (.bytes (writeFrame a p))) } :=
  congrArg Host.Outcome.next (perform_withinBuffer_ret hs _ _ _)

theorem exec_encCmd (c k : Byte) : exec (.encCmd c k) s = .next { s with out := some ⟨.ok, .bytes (cmdFrame c k)⟩ } :=
  congrArg Host.Outcome.next (perform_ret _ _ _ s hs)

theorem exec_validate (h a ck : Byte) (p : List Byte) : exec (.validate h a p ck) s =
    .next { s with out := some (payloadResponse s.board.val.nmax p.length (.bool (cksumMatches h a p ck))) } :=
  congrArg Host.Outcome.next (perform_withinBuffer_ret hs _ _ _)

/-- `VALIDATE` accepts the checksum of its own operands. -/
theorem exec_validate_cksumByte {p : List Byte} (h a : Byte) (hlen : p.length ≤ s.board.val.nmax) :
    exec (.validate h a p (cksumByte h a p)) s = .next { s with out := some ⟨.ok, .bool true⟩ } := by
  rw [exec_validate hs, payloadResponse_of_le _ hlen, cksumMatches_cksumByte]

/-- And no other checksum. -/
theorem exec_validate_of_ne {p : List Byte} {h a ck : Byte} (hlen : p.length ≤ s.board.val.nmax)
    (hne : ck ≠ cksumByte h a p) :
    exec (.validate h a p ck) s = .next { s with out := some ⟨.ok, .bool false⟩ } := by
  rw [exec_validate hs, payloadResponse_of_le _ hlen, cksumMatches_of_ne hne]

end Idle

/-! ### The statements -/

/-- Settles O7: `VALIDATE` compares with the very byte that `CKSUM` answers and the encoders put last. -/
theorem validateAcceptsOwnChecksumOnly : Obligations.ValidateAcceptsOwnChecksumOnly := by
  intro s h a k p hs hlen
  refine ⟨⟨cksumByte h a p, ?cksum, exec_validate_cksumByte hs h a hlen, fun c' => exec_validate_of_ne hs hlen,
      fun i hi => xor_shiftedBit_ne _ hi⟩,
    ⟨writeFrame a p, _, ?encWrite, getLast?_writeFrame a p, exec_validate_cksumByte hs _ a hlen⟩,
    ⟨cmdFrame a k, _, exec_encCmd hs a k, getLast?_writeFrame a [k],
      exec_validate_cksumByte hs _ a (length_singleton_le_nmax _ k)⟩⟩
  case cksum => rw [exec_cksum hs, payloadResponse_of_le _ hlen]
  case encWrite => rw [exec_encWrite hs, payloadResponse_of_le _ hlen]

/-- Settles O8: the checksum is a one-to-one function of the sum of the bytes. -/
theorem checksumSeesTheByteSumAlone : Obligations.ChecksumSeesTheByteSumAlone := by
  refine ⟨fun h h' a a' x y p q => ?changed, fun h a x y x' y' p q r hxy => ?cancel, fun h a p q hperm => ?reorder,
    fun wa c k p => ⟨sum_writeFrame_mod wa p, sum_writeFrame_mod c [k]⟩⟩
  case changed => simp [cksumByte_eq_cksumByte_iff]
  case cancel =>
    rw [cksumByte_eq_cksumByte_iff]
    simp only [List.sum_append, List.sum_singleton]
    linear_combination hxy
  case reorder => rw [cksumByte_eq_cksumByte_iff, hperm.sum_eq]

/-- Settles O4: R73's formula is `toNat_cksumByte`. -/
theorem cksumReturnsComplementOfSum : Obligations.CksumReturnsComplementOfSum := by
  intro s h a p hs
  refine ⟨fun hlen => ⟨cksumByte h a p, toNat_cksumByte h a p, ?_⟩, fun hlen => ?_⟩
  · rw [exec_cksum hs, payloadResponse_of_le _ hlen]
  · rw [exec_cksum hs, payloadResponse_of_gt _ hlen]

/-- Settles O5: the frames by their definitions, the checksum by `toNat_cksumByte`. -/
theorem encodersReturnTheirFrames : Obligations.EncodersReturnTheirFrames := by
  intro s a k p hs
  refine ⟨exec_encRead hs a, fun hlen => ⟨cksumByte hdrByte a p, toNat_cksumByte _ _ _, ?_⟩, fun hlen => ?_,
    cksumByte hdrByte a [k], toNat_cksumByte _ _ _, exec_encCmd hs a k, ?_⟩
  · rw [exec_encWrite hs, payloadResponse_of_le _ hlen, writeFrame]
  · rw [exec_encWrite hs, payloadResponse_of_gt _ hlen]
  · rw [exec_encWrite hs, payloadResponse_of_le _ (length_singleton_le_nmax _ k), ← cmdFrame_eq_writeFrame, cmdFrame]

/-- Settles O6: the sum of the test is R73's with the received checksum added. -/
theorem validateTestsTheByteSum : Obligations.ValidateTestsTheByteSum := by
  intro s h a ck p hs
  refine ⟨fun hlen => ⟨cksumMatches h a p ck, cksumMatches_iff.trans cksumByte_eq_iff, ?_⟩, fun hlen => ?_⟩
  · rw [exec_validate hs, payloadResponse_of_le _ hlen]
  · rw [exec_validate hs, payloadResponse_of_gt _ hlen]

/-- Settles O9: the response each operation's equation names has no part of the state in it but `NMAX`. -/
theorem codecResponseDependsOnOperandsAlone : Obligations.CodecResponseDependsOnOperandsAlone := by
  intro i n hcodec
  cases i with
  | cksum h a p => exact ⟨_, fun s hs hn => hn ▸ exec_cksum hs h a p⟩
  | encRead a => exact ⟨_, fun s hs _ => exec_encRead hs a⟩
  | encWrite a p => exact ⟨_, fun s hs hn => hn ▸ exec_encWrite hs a p⟩
  | encCmd c k => exact ⟨_, fun s hs _ => exec_encCmd hs c k⟩
  | validate h a p ck => exact ⟨_, fun s hs hn => hn ▸ exec_validate hs h a ck p⟩
  | _ => cases hcodec

end Sys2Proof.Machine
end

section
/-! The sends of one operation (R16, R50): what a run has sent since the operation began, with the device that these
frames leave, and an operation's end after them. -/

namespace Sys2Proof.Machine

/-! ### What a run has sent -/

/-- The frame is not the data frame of a `WR_REG` that reaches the control address (U6): it acts as a frame does in any
operation. -/
def ActsAlone (q : Seq) (f : List Byte) (a : SendAnswer) : Prop :=
  isControlData q = true → Takes f a → q.slipped = true

theorem actsAlone_of_plain {q : Seq} (h : PlainSends q) (f : List Byte) (a : SendAnswer) : ActsAlone q f a := by
  intro hcontrol
  unfold isControlData at hcontrol
  split at hcontrol
  · rename_i hop
    have address : writeAddr _ = ctrlAddr := beq_iff_eq.1 (Bool.and_eq_true_iff.1 hcontrol).1
    exact absurd address (h _ _ hop)
  · cases hcontrol

theorem actsAlone_of_count {q : Seq} (h : q.answers.length ≠ 1) (f : List Byte) (a : SendAnswer) :
    ActsAlone q f a := by
  intro hcontrol
  unfold isControlData at hcontrol
  split at hcontrol
  · exact absurd (beq_iff_eq.1 (Bool.and_eq_true_iff.1 hcontrol).2) h
  · cases hcontrol

theorem sendEffect_of_actsAlone {s : State} {f : List Byte} {a : SendAnswer} (h : ActsAlone s.seq f a) :
    sendEffect s f (sendAnswerOf f.length a) = if s.seq.slipped then deviceLost s.board.val.codes s.dev f
      else deviceAfterSend s.board.val s.dev f (sendAnswerOf f.length a) := by
  unfold sendEffect
  by_cases hslip : s.seq.slipped = true
  · rw [if_pos hslip, if_pos hslip]
  · have notData : ¬ (isControlData s.seq && tookAll f (sendAnswerOf f.length a)) = true := fun hdata =>
      hslip (h (Bool.and_eq_true_iff.1 hdata).1 (Bool.and_eq_true_iff.1 hdata).2)
    rw [if_neg hslip, if_neg hslip, if_neg notData]

/-- The data frame of a `WR_REG` to the control address, taken whole with the enable frame (U6; log 22). -/
theorem sendEffect_of_controlData {s : State} {f : List Byte} {a : SendAnswer} (hslip : s.seq.slipped = false)
    (hcontrol : isControlData s.seq = true) (ha : Takes f a) :
    sendEffect s f (sendAnswerOf f.length a) = deviceUpset s.board.val.codes s.dev f := by
  unfold Takes at ha
  rw [sendEffect, hslip, hcontrol, ha]
  rfl

/-- From `s` to `u` a run has made these transactions, none of them a receive. Whatever is sent next acts on the device
of `u` as it does after these. -/
structure Sent (s u : State) (es : List Event) : Prop where
  board : u.board = s.board
  op : u.seq.op = s.seq.op
  recvs : u.recvs = s.recvs
  log : u.log = s.log ++ es
  next : ∀ es', deviceAfterEvents s.board.val s.dev (es ++ es') =
    deviceAfterFrom s.board.val u.seq.slipped u.dev es'

theorem Sent.nil {s : State} (h : s.seq.slipped = false) : Sent s s [] :=
  ⟨rfl, rfl, rfl, (List.append_nil _).symm, fun es' => by rw [h, List.nil_append, deviceAfterEvents]⟩

section Sent
variable {s u : State} {es : List Event}

theorem Sent.dev (h : Sent s u es) : u.dev = deviceAfterEvents s.board.val s.dev es := by
  simpa using (h.next []).symm

theorem Sent.plain (h : Sent s u es) (hs : PlainSends s.seq) : PlainSends u.seq :=
  fun addr p hop => hs addr p (h.op.symm.trans hop)

theorem Sent.send {f : List Byte} {a : SendAnswer} (h : Sent s u es) (halone : ActsAlone u.seq f a) :
    Sent s (afterSend u f a) (es ++ [sendEvent f a]) where
  board := h.board
  op := h.op
  recvs := h.recvs
  log := by rw [afterSend_log, h.log, List.append_assoc]
  next es' := by
    rw [List.append_assoc, h.next, afterSend_dev, sendEffect_of_actsAlone halone, h.board]
    rfl

end Sent

theorem sendEvent_of_takes {f : List Byte} {a : SendAnswer} (h : Takes f a) :
    sendEvent f a = .send f (.sent f.length) :=
  congrArg (Event.send f) (sendAnswerOf_of_takes h)

theorem afterSend_slipped_of_takes {s : State} {f : List Byte} {a : SendAnswer} (h : Takes f a) :
    (afterSend s f a).seq.slipped = s.seq.slipped := by
  unfold Takes at h
  rw [afterSend_seq, sent_slipped, h, Bool.not_true, Bool.or_false]

/-! ### The end of an operation -/

/-- A program that makes no transaction ends an operation with this response and this context, where the context was
`c` (R123, R135). -/
inductive EndsAs (c : Ctx) : Prog (Result × Ctx) → Response → Ctx → Prop
  | ret (r : Result) (c' : Ctx) : EndsAs c (.ret (r, c')) ⟨.ok, r⟩ c'
  | raise (st : Status) : EndsAs c (.raise st) ⟨st, .none⟩ c

/-- An operation whose run comes to `q` in the state `u` ends with the response of `q` and what `u` has. -/
theorem exec_ends {i : Instr} {p q : Prog (Result × Ctx)} {s u : State} {r : Response} {c : Ctx}
    (hexec : exec i s = .next (perform i p s)) (hidle : Idle s) (hrun : runProg p (begun i s) = runProg q u)
    (hends : EndsAs s.ctx q r c) :
    ∃ t, exec i s = .next t ∧ EndedWith s t r ∧ t.ctx = c ∧ t.sends = u.sends ∧ t.recvs = u.recvs ∧
      t.log = u.log ∧ t.dev = u.dev := by
  obtain ⟨hperform, hended⟩ : perform i p s = finishOp u r c ∧ EndedWith s (perform i p s) r := by
    cases hends with
    | ret r c => exact perform_done hidle hrun
    | raise st => exact perform_raised hidle hrun
  refine ⟨_, hexec, hended, ?_⟩
  rw [hperform]
  exact ⟨finishOp_ctx _ _ _, finishOp_sends _ _ _, finishOp_recvs _ _ _, finishOp_log _ _ _, finishOp_dev _ _ _⟩

/-- The operation `i` ends with this response and this context after these transactions, none of them a receive; the
transport then has these answers left. -/
def EndsAfter (i : Instr) (s : State) (r : Response) (c : Ctx) (es : List Event) (sends : List SendAnswer) : Prop :=
  ∃ t, exec i s = .next t ∧ EndedWith s t r ∧ t.ctx = c ∧ t.sends = sends ∧ t.recvs = s.recvs ∧
    t.log = s.log ++ es ∧ t.dev = deviceAfterEvents s.board.val s.dev es

theorem endsAfter_of_sent {i : Instr} {p q : Prog (Result × Ctx)} {s u : State} {r : Response} {c : Ctx}
    {es : List Event} {sends : List SendAnswer} (hexec : exec i s = .next (perform i p s)) (hidle : Idle s)
    (hrun : runProg p (begun i s) = runProg q u) (hends : EndsAs s.ctx q r c) (hsent : Sent (begun i s) u es)
    (hu : u.sends = sends) : EndsAfter i s r c es sends := by
  obtain ⟨t, hnext, hended, hctx, hsends, hrecvs, hlog, hdev⟩ := exec_ends hexec hidle hrun hends
  exact ⟨t, hnext, hended, hctx, hsends.trans hu, hrecvs.trans hsent.recvs, hlog.trans hsent.log, hdev.trans hsent.dev⟩

theorem sent_begun (i : Instr) (s : State) : Sent (begun i s) (begun i s) [] := .nil rfl

/-- The first frame of an operation acts as a frame does in any operation. -/
theorem sent_first (i : Instr) (s : State) (f : List Byte) (a : SendAnswer) :
    Sent (begun i s) (afterSend (begun i s) f a) [sendEvent f a] :=
  (sent_begun i s).send (actsAlone_of_count (q := (begun i s).seq) Nat.zero_ne_one f a)

/-! ### Commands -/

theorem runProg_sendCmd_of_takes {α : Type} {s : State} {caddr code : Byte} {a : SendAnswer} {as : List SendAnswer}
    (k : Prog α) (hs : s.sends = a :: as) (ha : Takes (cmdFrame caddr code) a) :
    runProg (progSendCmd caddr code k) s = runProg k (afterSend s (cmdFrame caddr code) a) := by
  rw [progSendCmd, runProg_sendFrame _ hs, sendStatus_of_takes ha, if_pos rfl]

theorem runProg_sendCmd_of_not_takes {α : Type} {s : State} {caddr code : Byte} {a : SendAnswer}
    {as : List SendAnswer} (k : Prog α) (hs : s.sends = a :: as) (ha : ¬ Takes (cmdFrame caddr code) a) :
    runProg (progSendCmd caddr code k) s = runProg (.raise .ioError) (afterSend s (cmdFrame caddr code) a) := by
  rw [progSendCmd, runProg_sendFrame _ hs, sendStatus_of_not_takes ha, if_neg nofun]

/-- A command ends with `OK` exactly when its frame is taken whole, and the context is then the one it was given. -/
theorem exec_command {i : Instr} {s : State} {caddr code : Byte} {c : Ctx} {a : SendAnswer} {as : List SendAnswer}
    (hexec : exec i s = .next (perform i (progSendCmd caddr code (.ret (.none, c))) s)) (hidle : Idle s)
    (hs : s.sends = a :: as) :
    ∃ t r, exec i s = .next t ∧ EndedWith s t r ∧ t.sends = as ∧ t.recvs = s.recvs ∧
      t.log = s.log ++ [sendEvent (cmdFrame caddr code) a] ∧
      t.dev = deviceAfterEvents s.board.val s.dev [sendEvent (cmdFrame caddr code) a] ∧
      (Takes (cmdFrame caddr code) a → r = ⟨.ok, .none⟩ ∧ t.ctx = c) ∧
      (¬ Takes (cmdFrame caddr code) a → r = ⟨.ioError, .none⟩ ∧ t.ctx = s.ctx) := by
  have sent := sent_first i s (cmdFrame caddr code) a
  by_cases ha : Takes (cmdFrame caddr code) a
  · have hrun := runProg_sendCmd_of_takes (s := begun i s) (.ret (Result.none, c)) hs ha
    obtain ⟨t, hnext, hended, hctx, hsends, hrecvs, hlog, hdev⟩ :=
      endsAfter_of_sent hexec hidle hrun (.ret .none c) sent (congrArg List.tail hs)
    exact ⟨t, _, hnext, hended, hsends, hrecvs, hlog, hdev, fun _ => ⟨rfl, hctx⟩, fun hn => absurd ha hn⟩
  · have hrun := runProg_sendCmd_of_not_takes (s := begun i s) (.ret (Result.none, c)) hs ha
    obtain ⟨t, hnext, hended, hctx, hsends, hrecvs, hlog, hdev⟩ :=
      endsAfter_of_sent hexec hidle hrun (.raise .ioError) sent (congrArg List.tail hs)
    exact ⟨t, _, hnext, hended, hsends, hrecvs, hlog, hdev, fun h => absurd h ha, fun _ => ⟨rfl, hctx⟩⟩

/-- A command that writes no context field leaves the context as it was, whatever the transport answers. -/
theorem exec_command_keeps_ctx {i : Instr} {s : State} {caddr code : Byte} {a : SendAnswer} {as : List SendAnswer}
    (hexec : exec i s = .next (perform i (progSendCmd caddr code (.ret (.none, s.ctx))) s)) (hidle : Idle s)
    (hs : s.sends = a :: as) :
    ∃ t r, exec i s = .next t ∧ EndedWith s t r ∧ t.ctx = s.ctx ∧ t.sends = as ∧ t.recvs = s.recvs ∧
      t.log = s.log ++ [sendEvent (cmdFrame caddr code) a] ∧
      t.dev = deviceAfterEvents s.board.val s.dev [sendEvent (cmdFrame caddr code) a] ∧
      (Takes (cmdFrame caddr code) a → r = ⟨.ok, .none⟩) ∧
      (¬ Takes (cmdFrame caddr code) a → r = ⟨.ioError, .none⟩) := by
  obtain ⟨t, r, hnext, hended, hsends, hrecvs, hlog, hdev, htaken, hlost⟩ := exec_command hexec hidle hs
  have hctx : t.ctx = s.ctx :=
    (Classical.em (Takes (cmdFrame caddr code) a)).elim (fun h => (htaken h).2) fun h => (hlost h).2
  exact ⟨t, r, hnext, hended, hctx, hsends, hrecvs, hlog, hdev, fun h => (htaken h).1, fun h => (hlost h).1⟩

/-- Settles O14: both operations are one command that gives the context back as it was. -/
theorem commandOperationsSendOneFrame : Obligations.CommandOperationsSendOneFrame :=
  fun _ _ _ _ _ hidle hs => ⟨exec_command_keeps_ctx rfl hidle hs, exec_command_keeps_ctx rfl hidle hs⟩

theorem curChOf_of_two_le {ch : BitVec 2} (h : 2 ≤ ch.toNat) : curChOf ch = none := by
  unfold curChOf
  split
  · omega
  · omega
  · rfl

/-- Settles O15: a selector in domain makes the operation the command of its channel, with the selection recorded in
the context it ends with. -/
theorem selectChannelRecordsOnSuccess : Obligations.SelectChannelRecordsOnSuccess := by
  intro s ch hidle
  refine ⟨fun hch => ?_, fun c f a as hsel hs => ?_⟩
  · rw [exec, execSelCh, curChOf_of_two_le hch, orInvalid_none, perform_raise _ _ _ hidle]
  · rcases hsel with ⟨rfl, rfl, rfl⟩ | ⟨rfl, rfl, rfl⟩
    · exact exec_command rfl hidle hs
    · exact exec_command rfl hidle hs

end Sys2Proof.Machine
end

section
/-! A register read under every answer of the transport (R80, R81). -/

namespace Sys2Proof.Machine

/-! ### The one receive -/

/-- The state after one answered `Recv`. -/
def afterRecv (s : State) (n : Nat) (plan : RecvPlan) : State :=
  { s with
    recvs := s.recvs.tail
    rx := rxAfter s (recvAnswerOf n s.dev.line plan).1
    log := s.log ++ [.recv n (recvAnswerOf n s.dev.line plan).1]
    dev := { s.dev with line := (recvAnswerOf n s.dev.line plan).2 }
    seq := s.seq.received (recvAnswerOf n s.dev.line plan).1 }

theorem runProg_recv {α : Type} {s : State} {n : Nat} {plan : RecvPlan} {plans : List RecvPlan}
    (k : RecvAnswer → Prog α) (hr : s.recvs = plan :: plans) :
    runProg (.recv n k) s = runProg (k (recvAnswerOf n s.dev.line plan).1) (afterRecv s n plan) := by
  simp only [runProg, transRecv_cons hr, afterRecv, hr, List.tail_cons]

@[simp] theorem afterRecv_log (s : State) (n : Nat) (plan : RecvPlan) :
    (afterRecv s n plan).log = s.log ++ [.recv n (recvAnswerOf n s.dev.line plan).1] := rfl

@[simp] theorem afterRecv_dev (s : State) (n : Nat) (plan : RecvPlan) :
    (afterRecv s n plan).dev = { s.dev with line := (recvAnswerOf n s.dev.line plan).2 } := rfl

/-- A read whose request is taken whole, whatever its receive is answered. -/
theorem runProg_rdReg_received {α : Type} {b : Board} {s : State} {addr : Byte} {w : Nat} {a : SendAnswer}
    {as : List SendAnswer} {plan : RecvPlan} {plans : List RecvPlan} (k : List Byte → Prog α) (hw : w ≤ b.nmax)
    (hs : s.sends = a :: as) (ha : Takes (readFrame addr) a) (hr : s.recvs = plan :: plans) :
    runProg (progRdReg b addr w k) s =
      runProg (checkResponse addr w k (recvAnswerOf (w + 1) (afterSend s (readFrame addr) a).dev.line plan).1)
        (afterRecv (afterSend s (readFrame addr) a) (w + 1) plan) := by
  rw [progRdReg, withinBuffer_of_le hw, runProg_sendFrame _ hs, sendStatus_of_takes ha, if_pos rfl,
    runProg_recv (s := afterSend s (readFrame addr) a) _ hr]

/-- The count fits the width: the checksum decides (R81). -/
theorem checkResponse_append {α : Type} {addr ck : Byte} {w : Nat} {p : List Byte} (k : List Byte → Prog α)
    (hp : p.length = w) :
    checkResponse addr w k (.got (p ++ [ck])) =
      if cksumByte hdrByte addr p = ck then k p else .raise .checksumMismatch := by
  subst hp
  have payload : (p ++ [ck]).take p.length = p := List.take_left' rfl
  have checksum : (p ++ [ck]).getD p.length 0 = ck := by simp
  rw [checkResponse, if_neg (by simp), payload, checksum]
  simp only [cksumMatches_iff]

theorem checkResponse_short {α : Type} {addr : Byte} {w : Nat} {b : List Byte} (k : List Byte → Prog α)
    (hb : b.length ≤ w) : checkResponse addr w k (.got b) = .raise .ioMissingBytes :=
  if_pos (Nat.lt_succ_of_le hb)

/-- The response of `RD_REG` for each answer of the transport to its receive (R81). -/
structure ReadResponse (addr : Byte) (w : Nat) (ans : RecvAnswer) (r : Response) : Prop where
  fail : ans = .fail → r = ⟨.ioError, .none⟩
  short : ∀ b, ans = .got b → b.length ≤ w → r = ⟨.ioMissingBytes, .none⟩
  full : ∀ p ck, ans = .got (p ++ [ck]) → p.length = w →
    (cksumByte hdrByte addr p = ck → r = ⟨.ok, .bytes p⟩) ∧
      (cksumByte hdrByte addr p ≠ ck → r = ⟨.checksumMismatch, .none⟩)

theorem readResponse_full {addr ck : Byte} {w : Nat} {p : List Byte} {r : Response} (hp : p.length = w)
    (right : cksumByte hdrByte addr p = ck → r = ⟨.ok, .bytes p⟩)
    (wrong : cksumByte hdrByte addr p ≠ ck → r = ⟨.checksumMismatch, .none⟩) :
    ReadResponse addr w (.got (p ++ [ck])) r := by
  refine ⟨nofun, fun b hb hlen => ?_, fun p' ck' hb _ => ?_⟩
  · obtain rfl := RecvAnswer.got.inj hb
    simp only [List.length_append, List.length_singleton] at hlen
    omega
  · obtain ⟨rfl, rfl⟩ := List.append_singleton_inj.1 (RecvAnswer.got.inj hb)
    exact ⟨right, wrong⟩

theorem readResponse_short {addr : Byte} {w : Nat} {b : List Byte} (hb : b.length ≤ w) :
    ReadResponse addr w (.got b) ⟨.ioMissingBytes, .none⟩ := by
  refine ⟨nofun, fun _ _ _ => rfl, ?_⟩
  rintro p ck ⟨⟩ rfl
  simp at hb

/-- Whatever the receive is answered, the check of the response ends the operation with R81's response. -/
theorem checkResponse_ends (c : Ctx) {addr : Byte} {w : Nat} {ans : RecvAnswer}
    (hlen : ∀ b, ans = .got b → b.length ≤ w + 1) :
    ∃ r, EndsAs c (checkResponse addr w (fun p => .ret (.bytes p, c)) ans) r c ∧ ReadResponse addr w ans r := by
  cases ans with
  | fail => exact ⟨_, .raise .ioError, fun _ => rfl, nofun, nofun⟩
  | got b =>
    by_cases hb : b.length ≤ w
    · exact ⟨_, checkResponse_short _ hb ▸ .raise .ioMissingBytes, readResponse_short hb⟩
    · have full : b.length = w + 1 := Nat.le_antisymm (hlen b rfl) (Nat.lt_of_not_le hb)
      obtain ⟨p, ck, rfl⟩ : ∃ p ck, b = p ++ [ck] := by
        rcases List.eq_nil_or_concat' b with rfl | hcat
        · cases full
        · exact hcat
      have hp : p.length = w := by simpa using full
      rw [checkResponse_append _ hp]
      split_ifs with hck
      · exact ⟨_, .ret (.bytes p) c, readResponse_full hp (fun _ => rfl) fun h => absurd hck h⟩
      · exact ⟨_, .raise .checksumMismatch, readResponse_full hp (fun h => absurd h hck) fun _ => rfl⟩

/-! ### The read -/

section Read
variable {s : State} {addr : Byte} {w : Nat} {a : SendAnswer} {as : List SendAnswer}
variable (hidle : Idle s) (hw : w ≤ s.board.val.nmax) (hs : s.sends = a :: as)
include hidle hw hs

/-- A request that is not taken whole ends the read without a receive (R80). -/
theorem endsAfter_rdReg_of_not_takes (ha : ¬ Takes (readFrame addr) a) :
    EndsAfter (.rdReg addr w) s ⟨.ioError, .none⟩ s.ctx [sendEvent (readFrame addr) a] as := by
  have hrun : runProg (progRdReg s.board.val addr w fun p => .ret (Result.bytes p, s.ctx)) (begun (.rdReg addr w) s) =
      runProg (.raise .ioError) (afterSend (begun (.rdReg addr w) s) (readFrame addr) a) := by
    rw [progRdReg, withinBuffer_of_le hw, runProg_sendFrame (s := begun (.rdReg addr w) s) _ hs,
      sendStatus_of_not_takes ha, if_neg nofun]
  exact endsAfter_of_sent rfl hidle hrun (.raise .ioError) (sent_first _ s _ a) (congrArg List.tail hs)

/-- A request taken whole is followed by one receive of `w + 1` bytes, whose answer decides. -/
theorem exec_rdReg_received {plan : RecvPlan} {plans : List RecvPlan} {d : Device} (ha : Takes (readFrame addr) a)
    (hr : s.recvs = plan :: plans) (hd : d = deviceAfterSend s.board.val s.dev (readFrame addr) (.sent 2)) :
    ∃ t r, exec (.rdReg addr w) s = .next t ∧ EndedWith s t r ∧ t.ctx = s.ctx ∧ t.sends = as ∧ t.recvs = plans ∧
      t.log = s.log ++ [.send (readFrame addr) (.sent 2), .recv (w + 1) (recvAnswerOf (w + 1) d.line plan).1] ∧
      t.dev = { d with line := (recvAnswerOf (w + 1) d.line plan).2 } ∧
      ReadResponse addr w (recvAnswerOf (w + 1) d.line plan).1 r := by
  have sent := sent_first (.rdReg addr w) s (readFrame addr) a
  rw [sendEvent_of_takes ha] at sent
  have dev := sent.dev.trans hd.symm
  obtain ⟨r, hends, hresponse⟩ := checkResponse_ends s.ctx (addr := addr) (recvAnswerOf_le (w + 1) d.line plan)
  have hrun := runProg_rdReg_received (s := begun (.rdReg addr w) s) (fun p => .ret (Result.bytes p, s.ctx)) hw hs ha hr
  rw [dev] at hrun
  obtain ⟨t, hnext, hended, hctx, hsends, hrecvs, hlog, hdev⟩ := exec_ends rfl hidle hrun hends
  rw [afterRecv_log, sent.log, List.append_assoc, dev] at hlog
  rw [afterRecv_dev, dev] at hdev
  exact ⟨t, r, hnext, hended, hctx, hsends.trans (congrArg List.tail hs), hrecvs.trans (congrArg List.tail hr),
    hlog, hdev, hresponse⟩

end Read

/-- Settles O10: the width, the request and the receive are checked in this order. -/
theorem readRegisterFollowsItsResponse : Obligations.ReadRegisterFollowsItsResponse := by
  intro s addr w hidle
  refine ⟨fun hw => ?_, fun hw a as hs => ⟨fun ha => endsAfter_rdReg_of_not_takes hidle hw hs ha, ?_⟩⟩
  · rw [exec, execRdReg, progRdReg, withinBuffer_of_gt hw, perform_raise _ _ _ hidle]
  · intro ha plan plans hr
    obtain ⟨t, r, hnext, hended, hctx, hsends, hrecvs, hlog, hdev, hfail, hshort, hfull⟩ :=
      exec_rdReg_received hidle hw hs ha hr rfl
    exact ⟨t, _, r, hnext, hended, hctx, hsends, hrecvs, rfl, hlog, hdev, hfail, hshort, hfull⟩

end Sys2Proof.Machine
end

section
/-! A write bracket under every answer of the transport (R82, R83), by itself and among the writes of `APPLY_CAL`
(R103, R104). -/

namespace Sys2Proof.Machine

/-! ### The bracket -/

/-- An enable frame that is not taken whole ends the write where `WR_CONTINUE_AFTER_WREN_FAIL` is false (R83). -/
theorem runProg_wrReg_stopped {α : Type} {s : State} {b : Board} {addr : Byte} {p : List Byte} {a : SendAnswer}
    {as : List SendAnswer} (k : Prog α) (hp : p.length ≤ b.nmax) (hs : s.sends = a :: as)
    (ha : ¬ Takes (cmdFrame ctrlAddr b.codes.wren) a) (hstop : b.wrContinue = false) :
    runProg (progWrReg b addr p k) s =
      runProg (.raise .ioError) (afterSend s (cmdFrame ctrlAddr b.codes.wren) a) := by
  rw [progWrReg, withinBuffer_of_le hp, runProg_sendFrame _ hs, sendStatus_of_not_takes ha,
    if_pos ⟨nofun, hstop⟩]

section Bracket
variable {s u : State} {es : List Event} {addr : Byte} {p : List Byte} {a1 a2 a3 : SendAnswer}

theorem Sent.bracket (h : Sent s u es)
    (enable : ActsAlone u.seq (cmdFrame ctrlAddr s.board.val.codes.wren) a1)
    (data : ActsAlone (afterSend u (cmdFrame ctrlAddr s.board.val.codes.wren) a1).seq
      (writeFrame (writeAddr addr) p) a2)
    (disable : ActsAlone (afterSend (afterSend u (cmdFrame ctrlAddr s.board.val.codes.wren) a1)
      (writeFrame (writeAddr addr) p) a2).seq (cmdFrame ctrlAddr s.board.val.codes.wrdis) a3) :
    Sent s (afterBracket u addr p a1 a2 a3) (es ++ writeEvents s.board.val addr p a1 a2 a3) := by
  have sent := ((h.send enable).send data).send disable
  rw [List.append_assoc, List.append_assoc] at sent
  rw [afterBracket, h.board]
  exact sent

/-- The bracket of an operation that is no `WR_REG` to the control address. -/
theorem Sent.plainBracket (h : Sent s u es) (hs : PlainSends s.seq) :
    Sent s (afterBracket u addr p a1 a2 a3) (es ++ writeEvents s.board.val addr p a1 a2 a3) :=
  have plain := h.plain hs
  h.bracket (actsAlone_of_plain plain _ _) (actsAlone_of_plain (q := (afterSend u _ a1).seq) plain _ _)
    (actsAlone_of_plain (q := (afterSend (afterSend u _ a1) _ a2).seq) plain _ _)

/-- A bracket in the middle of an operation goes on when it is taken whole, and ends the operation with `IO_ERROR`
else. -/
theorem runProg_wrReg_sent {α : Type} {sends : List SendAnswer} (k : Prog α) (h : Sent s u es)
    (plain : PlainSends s.seq) (hp : p.length ≤ s.board.val.nmax) (hu : u.sends = a1 :: a2 :: a3 :: sends)
    (hgo : Takes (cmdFrame ctrlAddr s.board.val.codes.wren) a1 ∨ s.board.val.wrContinue = true) :
    ∃ q v, runProg (progWrReg s.board.val addr p k) u = runProg q v ∧ v.sends = sends ∧
      Sent s v (es ++ writeEvents s.board.val addr p a1 a2 a3) ∧
      (BracketTaken s.board.val.codes addr p a1 a2 a3 → q = k) ∧
      (¬ BracketTaken s.board.val.codes addr p a1 a2 a3 → q = .raise .ioError) := by
  obtain ⟨q, hrun, hq, hq'⟩ := runProg_wrReg (addr := addr) k hp hu hgo
  refine ⟨q, afterBracket u addr p a1 a2 a3, ?_, congrArg (fun l => l.tail.tail.tail) hu, h.plainBracket plain, hq, hq'⟩
  rw [hrun, afterBracket, h.board]

end Bracket

/-- An operation that comes to its continuation when a bracket is taken whole, and to `IO_ERROR` else. -/
theorem bracket_ends {taken : Prop} {q : Prog (Result × Ctx)} {c : Ctx} (hq : taken → q = .ret (.none, c))
    (hq' : ¬ taken → q = .raise .ioError) :
    ∃ r, EndsAs c q r c ∧ (taken → r = ⟨.ok, .none⟩) ∧ (¬ taken → r = ⟨.ioError, .none⟩) := by
  by_cases h : taken
  · exact ⟨_, hq h ▸ .ret .none c, fun _ => rfl, fun hn => absurd h hn⟩
  · exact ⟨_, hq' h ▸ .raise .ioError, fun ht => absurd ht h, fun _ => rfl⟩

/-! ### `WR_REG` -/

section Write
variable {s : State} {addr : Byte} {p : List Byte} {a1 a2 a3 : SendAnswer}

/-- Where the data frame does not go to the control address, or a frame is lost by then, the frames act as in any
operation. -/
theorem sent_wrReg (h : writeAddr addr ≠ ctrlAddr ∨
      ¬ (Takes (cmdFrame ctrlAddr s.board.val.codes.wren) a1 ∧ Takes (writeFrame (writeAddr addr) p) a2)) :
    Sent (begun (.wrReg addr p) s) (afterBracket (begun (.wrReg addr p) s) addr p a1 a2 a3)
      (writeEvents s.board.val addr p a1 a2 a3) := by
  refine (sent_begun _ s).bracket (actsAlone_of_count (q := (begun _ s).seq) Nat.zero_ne_one _ a1)
    (fun hcontrol hdata => ?_) (actsAlone_of_count (by simp) _ a3)
  have address : writeAddr addr = ctrlAddr := by simpa [isControlData] using hcontrol
  have lost : ¬ Takes (cmdFrame ctrlAddr s.board.val.codes.wren) a1 :=
    h.elim (absurd address) fun hn h1 => hn ⟨h1, hdata⟩
  simpa [Takes] using lost

/-- The data frame at the control address, taken whole with the enable frame, is one the device should not get
(U6; log 22). -/
theorem wrReg_dev_of_control (address : writeAddr addr = ctrlAddr)
    (h1 : Takes (cmdFrame ctrlAddr s.board.val.codes.wren) a1) (h2 : Takes (writeFrame (writeAddr addr) p) a2) :
    (afterBracket (begun (.wrReg addr p) s) addr p a1 a2 a3).dev =
      deviceAfterEvents s.board.val
        (deviceUpset s.board.val.codes
          (deviceAfterEvents s.board.val s.dev [sendEvent (cmdFrame ctrlAddr s.board.val.codes.wren) a1])
          (writeFrame (writeAddr addr) p))
        [sendEvent (cmdFrame ctrlAddr s.board.val.codes.wrdis) a3] := by
  have enabled := (sent_first (.wrReg addr p) s (cmdFrame ctrlAddr s.board.val.codes.wren) a1).dev
  have whole :
      (afterSend (begun (.wrReg addr p) s) (cmdFrame ctrlAddr s.board.val.codes.wren) a1).seq.slipped = false :=
    afterSend_slipped_of_takes h1
  have written := sendEffect_of_controlData whole (by simp [isControlData, address]) h2
  rw [afterBracket, afterSend_dev, sendEffect_of_actsAlone (actsAlone_of_count (by simp) _ a3),
    afterSend_slipped_of_takes h2, begun_board, whole, afterSend_dev, written, enabled]
  rfl

end Write

/-- Settles O11: the bracket's run by `runProg_wrReg`, its device by whether the data frame is one of U6. -/
theorem writeRegisterSendsItsBracket : Obligations.WriteRegisterSendsItsBracket := by
  intro s addr p hidle
  refine ⟨fun hp => ?_, fun hp f1 f2 f3 hf1 hf2 hf3 => ?_⟩
  · rw [exec, execWrReg, progWrReg, withinBuffer_of_gt hp, perform_raise _ _ _ hidle]
  · obtain rfl : f2 = writeFrame (writeAddr addr) p := hf2
    subst hf1 hf3
    refine ⟨fun a1 as hs hlost hstop => ?_, fun a1 a2 a3 as hs hgo => ?_⟩
    · have hrun := runProg_wrReg_stopped (s := begun (.wrReg addr p) s) (addr := addr) (.ret (Result.none, s.ctx)) hp hs
        hlost hstop
      exact endsAfter_of_sent rfl hidle hrun (.raise .ioError) (sent_first _ s _ a1) (congrArg List.tail hs)
    · obtain ⟨q, hrun, hq, hq'⟩ := runProg_wrReg (s := begun (.wrReg addr p) s) (addr := addr)
        (.ret (Result.none, s.ctx)) hp hs hgo
      obtain ⟨r, hends, htaken, hlost⟩ := bracket_ends hq hq'
      obtain ⟨t, hnext, hended, hctx, hsends, hrecvs, hlog, hdev⟩ := exec_ends rfl hidle hrun hends
      exact ⟨t, r, hnext, hended, hctx, hsends.trans (congrArg (fun l => l.tail.tail.tail) hs), hrecvs,
        hlog.trans (by simp), fun h => hdev.trans (sent_wrReg h).dev,
        fun ⟨address, h1, h2⟩ => hdev.trans (wrReg_dev_of_control address h1 h2), htaken, hlost⟩

/-! ### `APPLY_CAL` -/

/-- The transactions of a write of `p` at `addr` that is taken whole (R82). -/
theorem writeEvents_of_taken {b : Board} {addr : Byte} {p : List Byte} {a1 a2 a3 : SendAnswer}
    (h : BracketTaken b.codes addr p a1 a2 a3) :
    writeEvents b addr p a1 a2 a3 =
      [.send (cmdFrame ctrlAddr b.codes.wren) (.sent 4), .send (writeFrame (writeAddr addr) p) (.sent (p.length + 3)),
        .send (cmdFrame ctrlAddr b.codes.wrdis) (.sent 4)] := by
  obtain ⟨h1, h2, h3⟩ := h
  change [sendEvent (cmdFrame ctrlAddr b.codes.wren) a1, sendEvent (writeFrame (writeAddr addr) p) a2,
    sendEvent (cmdFrame ctrlAddr b.codes.wrdis) a3] = _
  rw [sendEvent_of_takes h1, sendEvent_of_takes h2, sendEvent_of_takes h3, length_writeFrame]
  rfl

/-- The transactions of the writes of the fields `xs` to the registers `es` that are taken whole (R103). -/
def calEvents (b : Board) (rec : CalRec) (xs : List (CalField × RegId)) (es : List RegEntry) : List Event :=
  (xs.zip es).flatMap fun x =>
    [.send (cmdFrame ctrlAddr b.codes.wren) (.sent 4),
      .send (writeFrame (writeAddr x.2.raddr) (calBytes rec x.1.1 x.2)) (.sent (x.2.width + 3)),
      .send (cmdFrame ctrlAddr b.codes.wrdis) (.sent 4)]

theorem calEvents_cons {b : Board} {rec : CalRec} {x : CalField × RegId} {e : RegEntry}
    {xs : List (CalField × RegId)} {es : List RegEntry} {a1 a2 a3 : SendAnswer}
    (h : BracketTaken b.codes e.raddr (calBytes rec x.1 e) a1 a2 a3) :
    calEvents b rec (x :: xs) (e :: es) =
      writeEvents b e.raddr (calBytes rec x.1 e) a1 a2 a3 ++ calEvents b rec xs es := by
  rw [writeEvents_of_taken h, length_calBytes]
  rfl

theorem length_calBytes_le {b : WfBoard} {r : RegId} {e : RegEntry} (rec : CalRec) (f : CalField)
    (he : b.val.entry r = some e) : (calBytes rec f e).length ≤ b.val.nmax :=
  (length_calBytes rec f e).trans_le ((conditions b).width he)

theorem plainSends_applyCal (rec : CalRec) (s : State) : PlainSends (begun (.applyCal rec) s).seq := nofun

/-- Writes of which the transport takes every frame: the run goes on with the writes after them, and has sent these
brackets, whatever the device is. -/
theorem runProg_applyCal_sent {α : Type} {rec : CalRec} {xs : List (CalField × RegId)} {es : List RegEntry}
    {as sends : List SendAnswer} {s u : State} {evs : List Event} (rest : List (CalField × RegId)) (k : Prog α)
    (plain : PlainSends s.seq) (hsent : Sent s u evs)
    (hentries : xs.map (fun x => s.board.val.entry x.2) = es.map some) (hlen : as.length = 3 * es.length)
    (htakes : ∀ a ∈ as, TakesAny s.board.val a) (hsends : u.sends = as ++ sends) :
    ∃ v, runProg (progApplyCal s.board.val rec (xs ++ rest) k) u = runProg (progApplyCal s.board.val rec rest k) v ∧
      v.sends = sends ∧ Sent s v (evs ++ calEvents s.board.val rec xs es) := by
  induction xs generalizing es as u evs with
  | nil =>
    obtain rfl : es = [] := by simpa using hentries.symm
    obtain rfl : as = [] := List.eq_nil_of_length_eq_zero hlen
    exact ⟨u, rfl, hsends, by rwa [calEvents, List.zip_nil_left, List.flatMap_nil, List.append_nil]⟩
  | cons x xs ih =>
    cases es with
    | nil => cases hentries
    | cons e es =>
      obtain ⟨he, hentries⟩ := List.cons.inj hentries
      match as, hlen, htakes, hsends with
      | a1 :: a2 :: a3 :: as, hlen, htakes, hsends =>
        simp only [List.forall_mem_cons] at htakes
        obtain ⟨h1, h2, h3, htakes⟩ := htakes
        have hp := length_calBytes_le rec x.1 he
        have taken := bracketTaken_of_takesAny (addr := e.raddr) hp h1 h2 h3
        have hlen' : as.length = 3 * es.length := by
          simp only [List.length_cons] at hlen
          omega
        obtain ⟨q, v, hrun, hv, sent, hq, -⟩ := runProg_wrReg_sent (addr := e.raddr)
          (progApplyCal s.board.val rec (xs ++ rest) k) hsent plain hp hsends (.inl taken.1)
        obtain ⟨z, hrest, hz, sent'⟩ := ih sent hentries hlen' htakes hv
        refine ⟨z, ?_, hz, ?_⟩
        · rw [List.cons_append, progApplyCal_cons he, hrun, hq taken, hrest]
        · rwa [calEvents_cons taken, ← List.append_assoc]

/-- The writes of `CAL_ORDER` before the `k`-th, counted from 0, are sent, and the run comes to that one. -/
theorem runProg_applyCal_until {α : Type} {rec : CalRec} {k : Nat} {es : List RegEntry} {f : CalField} {r : RegId}
    {e : RegEntry} {as sends : List SendAnswer} {s : State} (p : Prog α)
    (hentries : (s.board.val.calOrder.take k).map (fun x => s.board.val.entry x.2) = es.map some)
    (hk : es.length = k) (hf : s.board.val.calOrder[k]? = some (f, r)) (he : s.board.val.entry r = some e)
    (has : as.length = 3 * k) (htakes : ∀ a ∈ as, TakesAny s.board.val a) (hs : s.sends = as ++ sends) :
    ∃ u, runProg (progApplyCal s.board.val rec s.board.val.calOrder p) (begun (.applyCal rec) s) =
        runProg (progWrReg s.board.val e.raddr (calBytes rec f e)
          (progApplyCal s.board.val rec (s.board.val.calOrder.drop (k + 1)) p)) u ∧
      u.sends = sends ∧
      Sent (begun (.applyCal rec) s) u (calEvents s.board.val rec (s.board.val.calOrder.take k) es) := by
  subst hk
  obtain ⟨u, hrun, hu, sent⟩ := runProg_applyCal_sent (rec := rec)
    ((f, r) :: s.board.val.calOrder.drop (es.length + 1)) p (plainSends_applyCal rec s) (sent_begun _ s) hentries has
    htakes hs
  rw [begun_board, ← eq_take_append_cons_drop hf, progApplyCal_cons he] at hrun
  exact ⟨u, hrun, hu, sent⟩

/-- Settles O25: the brackets before the failed one are sent, and that one ends the operation. -/
theorem applyCalibrationStopsAtAFailedWrite : Obligations.ApplyCalibrationStopsAtAFailedWrite := by
  intro s rec k es f r e q as sends a1 f1 f2 f3 evs hidle hentries hk hf he hq has htakes hf1 hf2 hf3 hevs
  obtain rfl : q = calBytes rec f e := hq
  obtain rfl : f2 = writeFrame (writeAddr e.raddr) (calBytes rec f e) := hf2
  subst hf1 hf3
  obtain rfl : evs = calEvents s.board.val rec (s.board.val.calOrder.take k) es := hevs
  have hp := length_calBytes_le rec f he
  have plain := plainSends_applyCal rec s
  refine ⟨fun a2 a3 hs hgo hlost => ?_, fun hs hlost hstop => ?_⟩
  · obtain ⟨u, hrun, hu, sent⟩ := runProg_applyCal_until (.ret (Result.none, s.ctx)) hentries hk hf he has htakes hs
    obtain ⟨q, v, hwrite, hv, sent', -, hq⟩ := runProg_wrReg_sent (addr := e.raddr)
      (progApplyCal s.board.val rec (s.board.val.calOrder.drop (k + 1)) (.ret (Result.none, s.ctx))) sent plain hp hu
      hgo
    rw [hq hlost] at hwrite
    exact endsAfter_of_sent rfl hidle (hrun.trans hwrite) (.raise .ioError) sent' hv
  · obtain ⟨u, hrun, hu, sent⟩ := runProg_applyCal_until (.ret (Result.none, s.ctx)) hentries hk hf he has htakes hs
    exact endsAfter_of_sent rfl hidle (hrun.trans (runProg_wrReg_stopped _ hp hu hlost hstop)) (.raise .ioError)
      (sent.send (actsAlone_of_plain (sent.plain plain) _ a1)) (congrArg List.tail hu)

end Sys2Proof.Machine
end

section
/-! The context operations (R89 to R92), and the statuses of the operations (the table after R132). -/

namespace Sys2Proof.Machine

/-! ### Ratios -/

theorem pos_of_ratioOf {r : RawRatio} {x : Ratio} (h : ratioOf r = some x) : 0 < r.num ∧ 0 < r.den := by
  by_contra hn
  rw [ratioOf, if_neg hn] at h
  cases h

/-- The rational in lowest terms is the one presented (R89): the two cross products agree. -/
theorem reduce_cross (n d : Nat) : (Ratio.reduce n d).num * d = n * (Ratio.reduce n d).den := by
  have hn : Nat.gcd n d ∣ n := Nat.gcd_dvd_left n d
  have hd : Nat.gcd n d ∣ d := Nat.gcd_dvd_right n d
  calc n / Nat.gcd n d * d = n * d / Nat.gcd n d := Nat.div_mul_right_comm hn d
    _ = n * (d / Nat.gcd n d) := Nat.mul_div_assoc n hd

/-- A positive rational is taken as its form in lowest terms. -/
theorem exists_ratioOf {r : RawRatio} (h : 0 < r.num ∧ 0 < r.den) :
    ∃ x, ratioOf r = some x ∧ x.wf = true ∧ (x.num : Int) * r.den = r.num * x.den := by
  have hx : ratioOf r = some (Ratio.reduce r.num.toNat r.den) := if_pos h
  have hnum : (r.num.toNat : Int) = r.num := Int.toNat_of_nonneg h.1.le
  refine ⟨_, hx, ratioOf_wf hx, ?_⟩
  rw [← hnum]
  exact_mod_cast reduce_cross r.num.toNat r.den

/-! ### The statements -/

/-- Settles O16: a triple of three positive rationals is returned, and any other raises before a transaction. -/
theorem setRatioStoresTheTriple : Obligations.SetRatioStoresTheTriple := by
  intro s k1A k1B k2 hidle
  refine ⟨fun ⟨hA, hB, h2⟩ => ?_, fun hbad => ?_⟩
  · obtain ⟨a, ha, hawf, hacross⟩ := exists_ratioOf hA
    obtain ⟨b, hb, hbwf, hbcross⟩ := exists_ratioOf hB
    obtain ⟨c, hc, hcwf, hccross⟩ := exists_ratioOf h2
    refine ⟨a, b, c, ⟨hawf, hacross⟩, ⟨hbwf, hbcross⟩, ⟨hcwf, hccross⟩, ?_⟩
    rw [exec, execSetRatio, ha, hb, hc, orInvalid_some, orInvalid_some, orInvalid_some, perform_ret _ _ _ _ hidle]
  · rw [exec, execSetRatio]
    cases hA : ratioOf k1A with
    | none => rw [orInvalid_none, perform_raise _ _ _ hidle]
    | some a =>
      cases hB : ratioOf k1B with
      | none => rw [orInvalid_some, orInvalid_none, perform_raise _ _ _ hidle]
      | some b =>
        cases h2 : ratioOf k2 with
        | none => rw [orInvalid_some, orInvalid_some, orInvalid_none, perform_raise _ _ _ hidle]
        | some c => exact absurd ⟨pos_of_ratioOf hA, pos_of_ratioOf hB, pos_of_ratioOf h2⟩ hbad

/-- Settles O17: each getter returns, or raises, before any transaction. -/
theorem gettersReturnTheContext : Obligations.GettersReturnTheContext := by
  intro s hidle
  have returns (i : Instr) (r : Result) : Host.Outcome.next (perform i (.ret (r, s.ctx)) s) =
      (.next { s with out := some ⟨.ok, r⟩ } : Host.Outcome State Fault Refusal) :=
    congrArg _ (perform_ret i r s.ctx s hidle)
  exact ⟨returns _ _, returns _ _, returns _ _, returns _ _, returns _ _,
    congrArg Host.Outcome.next (perform_raise (.getPga 3) .invalidParam s hidle)⟩

theorem ok_mem_allowedStatuses {i : Instr} (hport : i.port = .host) : .ok ∈ allowedStatuses i := by
  cases i with
  | rq | wf | cf | rs | wren | wrdis | selA | selB | devreset => cases hport
  | _ => exact List.mem_cons_self

/-- Settles O57: an operation that has ended returned `OK` or raised a status of its row. -/
theorem operationsEndWithTheirStatuses : Obligations.OperationsEndWithTheirStatuses := by
  intro s t i r hport hexec hout
  obtain ⟨-, ⟨x, hok, -⟩ | ⟨st, hst, hraised, -⟩ | ⟨hwaiting, -⟩⟩ := exec_outcome hport hexec
  · cases hout.symm.trans hok
    exact ok_mem_allowedStatuses hport
  · cases hout.symm.trans hraised
    exact hst
  · cases hout.symm.trans hwaiting

end Sys2Proof.Machine
end

section
/-! Values as bytes and bits: `SER` (R95), the field of a register that `RMW_FIELD` replaces (R94), and the entries of
R96 that are made of it. -/

namespace Sys2Proof.Machine

/-! ### Values and their bytes -/

theorem serBytes_beNat (p : List Byte) : serBytes (beNat p) p.length = p := by
  induction p using List.reverseRecOn with
  | nil => rfl
  | append_singleton p d ih =>
    have hd : d.toNat < 256 := d.isLt
    have high : (beNat p * 256 + d.toNat) / 256 = beNat p := by omega
    have low : BitVec.ofNat 8 ((beNat p * 256 + d.toNat) % 256) = d := BitVec.eq_of_toNat_eq (by
      rw [BitVec.toNat_ofNat]; omega)
    rw [List.length_append, List.length_singleton, beNat_append_singleton, serBytes_succ, high, low, ih]

theorem toNat_of_getElem?_serBytes {v w i : Nat} {d : Byte} (h : (serBytes v w)[i]? = some d) :
    d.toNat = (v >>> (8 * (w - 1 - i))) &&& 0xFF := by
  obtain ⟨j, hj, rfl⟩ := by simpa only [serBytes, List.getElem?_map, Option.map_eq_some_iff] using h
  obtain rfl : i = j := by
    obtain ⟨_, hij⟩ := List.getElem?_eq_some_iff.1 hj
    simpa using hij
  rw [BitVec.toNat_ofNat]
  exact Nat.mod_eq_of_lt (Nat.lt_of_le_of_lt Nat.and_le_right (by decide))

/-- Settles O3: the value loses nothing where it fits, the bytes are recovered one by one from the last. -/
theorem serialisedValueDecodesToItself : Obligations.SerialisedValueDecodesToItself :=
  ⟨fun v w hv => ⟨(beNat_serBytes_mod v w).trans (Nat.mod_eq_of_lt hv), length_serBytes v w⟩, serBytes_beNat,
    fun _ _ _ _ h => toNat_of_getElem?_serBytes h⟩

theorem beNat_lt (p : List Byte) : beNat p < 256 ^ p.length := by
  rw [← serBytes_beNat p, beNat_serBytes_mod, length_serBytes]
  exact Nat.mod_lt _ (Nat.pow_pos (by decide))

theorem pow_256_eq (w : Nat) : 256 ^ w = 2 ^ (8 * w) := (Nat.pow_mul 2 8 w).symm

/-! ### The field that is replaced -/

section Bits
variable {w j : Nat}

theorem testBit_fieldOf (v : Nat) (hj : j < 8 * w) : (fieldOf w v).testBit j = v.testBit j := by
  rw [fieldOf, pow_256_eq, Nat.testBit_mod_two_pow, decide_eq_true hj, Bool.true_and]

theorem testBit_mergeField (old mask value : Nat) (hj : j < 8 * w) :
    (mergeField w old mask value).testBit j = if mask.testBit j then value.testBit j else old.testBit j := by
  rw [mergeField, pow_256_eq, Nat.testBit_or, Nat.testBit_and, Nat.testBit_and, Nat.testBit_xor,
    Nat.testBit_two_pow_sub_one, decide_eq_true hj]
  cases mask.testBit j <;> simp

theorem testBit_beNat_serBytes (v : Nat) (hj : j < 8 * w) : (beNat (serBytes v w)).testBit j = v.testBit j := by
  rw [beNat_serBytes_mod]
  exact testBit_fieldOf v hj

end Bits

/-- The bytes `RMW_FIELD` writes back to a register of width `w` that read as `p` (R94). -/
def mergedBytes (w : Nat) (p : List Byte) (mask value : RegVal) : List Byte :=
  serBytes (mergeField w (beNat p) (fieldOf w mask) (fieldOf w value)) w

theorem length_mergedBytes (w : Nat) (p : List Byte) (mask value : RegVal) :
    (mergedBytes w p mask value).length = w := length_serBytes _ _

theorem testBit_mergedBytes {w j : Nat} (p : List Byte) (mask value : RegVal) (hj : j < 8 * w) :
    (beNat (mergedBytes w p mask value)).testBit j =
      if mask.testBit j then value.testBit j else (beNat p).testBit j := by
  rw [mergedBytes, testBit_beNat_serBytes _ hj, testBit_mergeField _ _ _ hj, testBit_fieldOf _ hj,
    testBit_fieldOf _ hj]

/-- A field whose bits are those of a code that fits it reads as that code (R96). -/
theorem fieldValue_of_testBit {f : FieldDesc} {code w : Nat} {p q : List Byte} (hmask : f.mask < 256 ^ w)
    (hfits : code * 2 ^ f.shift &&& f.mask = code * 2 ^ f.shift)
    (hbits : ∀ j < 8 * w, (beNat q).testBit j =
      if f.mask.testBit j then (code * 2 ^ f.shift).testBit j else (beNat p).testBit j) :
    fieldValue f q = code := by
  have field : beNat q &&& f.mask = code * 2 ^ f.shift := by
    refine Nat.eq_of_testBit_eq fun j => ?_
    rw [← hfits, Nat.testBit_and, Nat.testBit_and]
    by_cases hj : j < 8 * w
    · rw [hbits j hj]
      cases f.mask.testBit j <;> simp
    · have above : f.mask.testBit j = false := Nat.testBit_lt_two_pow
        (hmask.trans_le (pow_256_eq w ▸ Nat.pow_le_pow_right (by decide) (Nat.le_of_not_lt hj)))
      rw [above, Bool.and_false, Bool.and_false]
  rw [fieldValue, field, Nat.shiftRight_eq_div_pow, Nat.mul_div_cancel _ (Nat.two_pow_pos _)]

/-! ### The entries of R96 -/

/-- A descriptor is of a register of the table, within whose width its mask is (R97). -/
theorem entry_of_fieldWf {b : Board} {f : FieldDesc} (h : b.fieldWf f = true) :
    ∃ e, b.entry f.reg = some e ∧ f.mask < 256 ^ e.width := by
  unfold Board.fieldWf at h
  split at h
  · rename_i e he
    simp only [List.any_eq_true, Bool.and_eq_true, decide_eq_true_eq, beq_iff_eq] at h
    obtain ⟨n, -, ⟨-, hwidth⟩, hmask⟩ := h
    refine ⟨e, he, ?_⟩
    calc f.mask = (2 ^ n - 1) * 2 ^ f.shift := hmask
      _ < 2 ^ n * 2 ^ f.shift :=
        Nat.mul_lt_mul_of_pos_right (Nat.sub_lt (Nat.two_pow_pos n) (by decide)) (Nat.two_pow_pos _)
      _ = 2 ^ (f.shift + n) := by rw [Nat.add_comm, Nat.pow_add]
      _ ≤ 2 ^ (8 * e.width) := Nat.pow_le_pow_right (by decide) hwidth
      _ = 256 ^ e.width := (pow_256_eq _).symm
  · cases h

theorem mem_featureAll (f : Feature) : f ∈ Feature.all := by
  rcases f with (_ | _ | _) | _ | _ | _ | _ | _ | _ <;> decide

/-- Every entry has its descriptor and its codes, two of them where it is a switch (R97; log 37). -/
theorem exists_featureDesc (b : WfBoard) (f : Feature) : ∃ d, b.val.features.lookup f = some d ∧
    b.val.fieldWf d.field = true ∧ d.codes ≠ [] ∧ (f.isSwitch = true → ∃ off on, d.codes = [off, on]) := by
  obtain ⟨b, hb⟩ := b
  simp only [Board.wf, Bool.and_eq_true, and_assoc, List.all_eq_true] at hb
  obtain ⟨-, -, -, -, -, -, -, -, -, -, -, features, -⟩ := hb
  have hwf := features f (mem_featureAll f)
  unfold Board.featureWf at hwf
  split at hwf
  · rename_i d hd
    obtain ⟨hfield, hcodes⟩ := Bool.and_eq_true_iff.1 hwf
    refine ⟨d, hd, hfield, ?_, fun hswitch => ?_⟩
    · rintro hnil
      rw [hnil] at hcodes
      split at hcodes <;> cases hcodes
    · rw [if_pos hswitch] at hcodes
      exact List.length_eq_two.1 (beq_iff_eq.1 hcodes)
  · cases hwf

section Entries
variable {b : Board} {f : Feature} {d : FeatureDesc} (hd : b.features.lookup f = some d)
include hd

theorem featureSet_of_code {n code : Nat} (h : d.codes[n]? = some code) :
    featureSet b f n = some (.rmwField d.field.reg d.field.mask (code * 2 ^ d.field.shift)) := by
  simp only [featureSet, hd, h, Option.map_some, Nat.shiftLeft_eq]

theorem featureGet_of_entry {e : RegEntry} (he : b.entry d.field.reg = some e) :
    featureGet b f = some (.rdReg e.raddr e.width) := by
  simp only [featureGet, hd, he, Option.map_some]

theorem featureValue_of_lookup (p : List Byte) : featureValue b f p = some (fieldValue d.field p) := by
  simp only [featureValue, hd, Option.map_some]

end Entries

/-- Settles O19: the descriptor gives the register and the codes, and its mask lies within the register's width. -/
theorem featureEntriesAreReadModifyWrites : Obligations.FeatureEntriesAreReadModifyWrites := by
  intro b f
  obtain ⟨d, hd, hfield, hcodes, hswitch⟩ := exists_featureDesc b f
  obtain ⟨e, he, hmask⟩ := entry_of_fieldWf hfield
  refine ⟨d, e, hd, he, hcodes, featureGet_of_entry hd he, fun n code h => featureSet_of_code hd h, fun h => ?_,
    fun code p q hfits _ hbits => ?_⟩
  · obtain ⟨off, on, hpair⟩ := hswitch h
    refine ⟨off, on, hpair, ?_, ?_⟩
    · rw [featureDisable, if_pos h, featureSet_of_code hd (by rw [hpair]; rfl)]
    · rw [featureEnable, if_pos h, featureSet_of_code hd (by rw [hpair]; rfl)]
  · rw [featureValue_of_lookup hd, fieldValue_of_testBit hmask hfits hbits]

end Sys2Proof.Machine
end

section
/-! The read-modify-write (R94) and `SET_PGA` (R93). A run does not depend on which operation makes it, unless that is a
`WR_REG`, nor on what the program goes on with where it does not come to it: so `SET_PGA` runs as the read-modify-write
of its field, and the read-modify-write fails as the read does. -/

namespace Sys2Proof.Machine

/-! ### A program that goes on -/

/-- The program that goes on with `k` where `p` returns. -/
def Prog.bind {α β : Type} (k : α → Prog β) : Prog α → Prog β
  | .ret a => k a
  | .raise st => .raise st
  | .send f c => .send f fun a => (c a).bind k
  | .recv n c => .recv n fun a => (c a).bind k

/-- What a run of the first part comes to when it goes on with `k`. -/
def runOn {α β : Type} (k : α → Prog β) : RunEnd α × State → RunEnd β × State
  | (.done a, u) => runProg (k a) u
  | (.raised st, u) => (.raised st, u)
  | (.waiting, u) => (.waiting, u)

theorem runProg_bind {α β : Type} (k : α → Prog β) (p : Prog α) (s : State) :
    runProg (p.bind k) s = runOn k (runProg p s) := by
  induction p generalizing s with
  | ret | raise => rfl
  | send f c ih =>
    simp only [Prog.bind, runProg]
    cases transSend f s with
    | none => rfl
    | some x => exact ih x.1 x.2
  | recv n c ih =>
    simp only [Prog.bind, runProg]
    cases transRecv n s with
    | none => rfl
    | some x => exact ih x.1 x.2

theorem map_eq_bind {α β : Type} (f : α → β) (p : Prog α) : p.map f = p.bind fun a => .ret (f a) := by
  induction p with
  | ret | raise => rfl
  | send frame c ih => exact congrArg (Prog.send frame) (funext ih)
  | recv n c ih => exact congrArg (Prog.recv n) (funext ih)

theorem runProg_map {α β : Type} (f : α → β) (p : Prog α) (s : State) :
    runProg (p.map f) s = ((runProg p s).1.map f, (runProg p s).2) := by
  rw [map_eq_bind, runProg_bind]
  obtain ⟨e, u⟩ := runProg p s
  cases e <;> rfl

/-- A read is the read of the payload, which then goes on. -/
theorem progRdReg_eq_bind {α : Type} (b : Board) (addr : Byte) (w : Nat) (k : List Byte → Prog α) :
    progRdReg b addr w k = (progRdReg b addr w .ret).bind k := by
  have check (a : RecvAnswer) : checkResponse addr w k a = (checkResponse addr w .ret a).bind k := by
    cases a with
    | fail => rfl
    | got bs =>
      simp only [checkResponse]
      split_ifs <;> rfl
  unfold progRdReg withinBuffer sendFrame
  split
  · rfl
  · refine congrArg (Prog.send _) (funext fun a => ?_)
    dsimp only
    split
    · exact congrArg (Prog.recv _) (funext check)
    · rfl

/-! ### The operation that makes a run -/

/-- The state with operation `i` in progress. -/
def State.withOp (i : Instr) (s : State) : State := { s with seq := { s.seq with op := some i } }

section WithOp
variable {i : Instr} {s : State} (hi : ∀ addr p, i ≠ .wrReg addr p)
include hi

theorem plainSends_withOp : PlainSends (s.withOp i).seq := fun addr p h => absurd (Option.some.inj h) (hi addr p)

theorem transSend_withOp (hs : PlainSends s.seq) (f : List Byte) :
    transSend f (s.withOp i) = (transSend f s).map fun x => (x.1, x.2.withOp i) := by
  have effect (a : SendAnswer) : sendEffect (s.withOp i) f a = sendEffect s f a := by
    rw [sendEffect_of_plain hs, sendEffect_of_plain (plainSends_withOp hi)]
    rfl
  cases h : s.sends with
  | nil => rw [transSend_nil h, transSend_nil (s := s.withOp i) h]; rfl
  | cons plan rest => rw [transSend_cons h, transSend_cons (s := s.withOp i) h, effect]; rfl

omit hi in
theorem transRecv_withOp (n : Nat) :
    transRecv n (s.withOp i) = (transRecv n s).map fun x => (x.1, x.2.withOp i) := by
  cases h : s.recvs with
  | nil => rw [transRecv_nil h, transRecv_nil (s := s.withOp i) h]; rfl
  | cons plan rest => rw [transRecv_cons h, transRecv_cons (s := s.withOp i) h]; rfl

/-- A run that is no `WR_REG`'s is any other such operation's too. -/
theorem runProg_withOp {α : Type} (p : Prog α) (hs : PlainSends s.seq) :
    runProg p (s.withOp i) = ((runProg p s).1, (runProg p s).2.withOp i) := by
  induction p generalizing s with
  | ret | raise => rfl
  | send f c ih =>
    simp only [runProg, transSend_withOp hi hs]
    cases h : transSend f s with
    | none => rfl
    | some x =>
      have keeps := (transSend_keeps h).op
      exact ih x.1 (s := x.2) fun addr p hop => hs addr p (keeps.symm.trans hop)
  | recv n c ih =>
    simp only [runProg, transRecv_withOp]
    cases h : transRecv n s with
    | none => rfl
    | some x =>
      have keeps := (transRecv_keeps h).op
      exact ih x.1 (s := x.2) fun addr p hop => hs addr p (keeps.symm.trans hop)

end WithOp

theorem plainSends_begun {i : Instr} (hi : ∀ addr p, i ≠ .wrReg addr p) (s : State) : PlainSends (begun i s).seq :=
  fun addr p h => absurd (Option.some.inj h) (hi addr p)

/-- An operation ends as the run of its program in another operation does. -/
theorem perform_as {i j : Instr} {s : State} (hi : ∀ addr p, i ≠ .wrReg addr p) (hj : ∀ addr p, j ≠ .wrReg addr p)
    (hidle : Idle s) (p : Prog (Result × Ctx)) :
    perform i p s = endOp ((runProg p (begun j s)).1, (runProg p (begun j s)).2.withOp i) := by
  rw [perform_of_idle hidle, ← runProg_withOp hi p (plainSends_begun hj s)]
  rfl

/-- Which operation it was is forgotten at its end. -/
theorem finishOp_withOp (i : Instr) (u : State) (r : Response) (c : Ctx) :
    finishOp (u.withOp i) r c = finishOp u r c := rfl

theorem finishOp_withCtx (u : State) (r : Response) (c c' : Ctx) :
    { finishOp u r c with ctx := c' } = finishOp u r c' := by
  unfold finishOp
  split <;> rfl

/-! ### The read-modify-write -/

theorem progRmw_of_entry {α : Type} {b : WfBoard} {r : RegId} {e : RegEntry} (mask value : RegVal) (k : Prog α)
    (he : b.val.entry r = some e) :
    progRmw b.val r mask value k = (progRdReg b.val e.raddr e.width .ret).bind fun p =>
      progDecU b.val p fun old => progWrReg b.val e.raddr
        (serBytes (mergeField e.width old (fieldOf e.width mask) (fieldOf e.width value)) e.width) k := by
  rw [progRmw, he, orInvalid_some, progRdReg_eq_bind]

/-- An operation in progress in `v` that began in `s` has read the register at `addr` as `p`, and nothing else; the
device is then `d`, and these answers are left. -/
structure HasRead (s v : State) (addr : Byte) (p : List Byte) (d : Device) (sends : List SendAnswer)
    (recvs : List RecvPlan) : Prop where
  board : v.board = s.board
  plain : PlainSends v.seq
  whole : v.seq.slipped = false
  sends : v.sends = sends
  recvs : v.recvs = recvs
  log : v.log = s.log ++ readEvents addr p
  dev : v.dev = d

/-- A right response, from wherever it is received, brings the run to the write of the merged bytes. -/
theorem runProg_rmw_read {s : State} {r : RegId} {e : RegEntry} {a : SendAnswer} {as : List SendAnswer}
    {p line : List Byte} {plan : RecvPlan} {plans : List RecvPlan} {d : Device} (mask value : RegVal)
    (he : s.board.val.entry r = some e) (hp : p.length = e.width) (hs : s.sends = a :: as)
    (ha : Takes (readFrame e.raddr) a) (hr : s.recvs = plan :: plans)
    (hd : d = deviceAfterSend s.board.val s.dev (readFrame e.raddr) (.sent 2))
    (hanswer : recvAnswerOf (e.width + 1) d.line plan = (.got (goodResponse e.raddr p), line)) :
    ∃ v, HasRead s v e.raddr p { d with line := line } as plans ∧
      ∀ k : Prog (Result × Ctx), runProg (progRmw s.board.val r mask value k) (begun (.rmwField r mask value) s) =
        runProg (progWrReg s.board.val e.raddr (mergedBytes e.width p mask value) k) v := by
  have hw : e.width ≤ s.board.val.nmax := (conditions s.board).width he
  have requested := sent_first (.rmwField r mask value) s (readFrame e.raddr) a
  rw [sendEvent_of_takes ha] at requested
  have dev : (afterSend (begun (.rmwField r mask value) s) (readFrame e.raddr) a).dev = d := requested.dev.trans hd.symm
  refine ⟨afterRecv (afterSend (begun (.rmwField r mask value) s) (readFrame e.raddr) a) (e.width + 1) plan,
    { board := rfl, plain := nofun, whole := ?_, sends := congrArg List.tail hs, recvs := congrArg List.tail hr,
      log := ?_, dev := ?_ }, fun k => ?_⟩
  · exact afterSend_slipped_of_takes (s := begun (.rmwField r mask value) s) ha
  · rw [afterRecv_log, requested.log, dev, hanswer, List.append_assoc, readEvents, hp]
    rfl
  · rw [afterRecv_dev, dev, hanswer]
  · rw [progRmw, he, orInvalid_some, runProg_rdReg_received (s := begun (.rmwField r mask value) s) _ hw hs ha hr, dev,
      hanswer, checkResponse_goodResponse _ hp, progDecU, withinBuffer_of_le (hp.trans_le hw), mergedBytes]

theorem bracket_ends_with_status {taken : Prop} {q : Prog (Result × Ctx)} {c : Ctx} (hq : taken → q = .ret (.none, c))
    (hq' : ¬ taken → q = .raise .ioError) :
    ∃ st, EndsAs c q ⟨st, .none⟩ c ∧ (taken → st = .ok) ∧ (¬ taken → st = .ioError) := by
  obtain ⟨r, hends, hok, hfailed⟩ := bracket_ends hq hq'
  by_cases h : taken
  · exact ⟨.ok, hok h ▸ hends, fun _ => rfl, fun hn => absurd h hn⟩
  · exact ⟨.ioError, hfailed h ▸ hends, fun ht => absurd ht h, fun _ => rfl⟩

/-- The end of a read-modify-write whose write made these transactions after its read. -/
theorem exec_rmwField_ends {s v u : State} {r : RegId} {mask value : RegVal} {addr : Byte} {p : List Byte} {d : Device}
    {as sends : List SendAnswer} {plans : List RecvPlan} {resp : Response} {q : Prog (Result × Ctx)} {es : List Event}
    (hidle : Idle s) (read : HasRead s v addr p d as plans)
    (hrun : runProg (progRmw s.board.val r mask value (.ret (.none, s.ctx))) (begun (.rmwField r mask value) s) =
      runProg q u)
    (hends : EndsAs s.ctx q resp s.ctx) (sent : Sent v u es) (hu : u.sends = sends) :
    ∃ t, exec (.rmwField r mask value) s = .next t ∧ EndedWith s t resp ∧ t.ctx = s.ctx ∧ t.sends = sends ∧
      t.recvs = plans ∧ t.log = s.log ++ readEvents addr p ++ es ∧ t.dev = deviceAfterEvents s.board.val d es := by
  obtain ⟨t, hnext, hended, hctx, hsends, hrecvs, hlog, hdev⟩ := exec_ends rfl hidle hrun hends
  refine ⟨t, hnext, hended, hctx, hsends.trans hu, hrecvs.trans (sent.recvs.trans read.recvs), ?_, ?_⟩
  · rw [hlog, sent.log, read.log]
  · rw [hdev, sent.dev, read.board, read.dev]

/-- A read that ends with an error ends the read-modify-write in the same state. -/
theorem exec_rmwField_of_read_failed {s t : State} {r : RegId} {mask value : RegVal} {e : RegEntry} {resp : Response}
    (hidle : Idle s) (he : s.board.val.entry r = some e) (hread : exec (.rdReg e.raddr e.width) s = .next t)
    (hout : t.out = some resp) (hfailed : resp.status ≠ .ok) : exec (.rmwField r mask value) s = .next t := by
  injection hread with hread
  have keeps := runProg_keeps (progRdReg s.board.val e.raddr e.width .ret) (begun (.rdReg e.raddr e.width) s)
  rw [perform_of_idle hidle, progRdReg_eq_bind, runProg_bind] at hread
  rw [exec, execRmwField, perform_as (i := .rmwField r mask value) (j := .rdReg e.raddr e.width) nofun nofun hidle,
    progRmw_of_entry mask value _ he, runProg_bind, ← hread]
  rw [← hread] at hout
  generalize runProg (progRdReg s.board.val e.raddr e.width .ret) (begun (.rdReg e.raddr e.width) s) = x at *
  obtain ⟨x, u⟩ := x
  cases x with
  | done p =>
    rw [runOn, runProg, endOp, finishOp_out] at hout
    cases hout
    exact absurd rfl hfailed
  | raised st => exact congrArg Host.Outcome.next (finishOp_withOp (.rmwField r mask value) u ⟨st, .none⟩ u.ctx)
  | waiting => cases keeps.out.symm.trans hout

/-- Settles O18: the read brings the run to the bracket of the merged bytes, and a failed read ends it. -/
theorem readModifyWriteReplacesTheField : Obligations.ReadModifyWriteReplacesTheField := by
  intro s r mask value hidle
  refine ⟨fun hnone => ?_, fun e a0 as p line plan plans d he hp hs h0 hr hd hanswer => ?_,
    fun e t resp he hread hout hfailed => exec_rmwField_of_read_failed hidle he hread hout hfailed⟩
  · rw [exec, execRmwField, progRmw, hnone, orInvalid_none, perform_raise _ _ _ hidle]
  · obtain ⟨v, read, hrun⟩ := runProg_rmw_read mask value he hp hs h0 hr hd hanswer
    have start : Sent v v [] := .nil read.whole
    have hq := (length_mergedBytes e.width p mask value).trans_le ((conditions s.board).width he)
    refine ⟨mergedBytes e.width p mask value, length_mergedBytes .., fun j hj => testBit_mergedBytes p mask value hj,
      fun a1 a2 a3 rest has hgo => ?_, fun a1 rest has hlost hstop => ?_⟩
    · rw [← read.board] at hq hgo
      obtain ⟨q, u, hwrite, hu, sent, htaken, hlost⟩ := runProg_wrReg_sent (addr := e.raddr)
        (.ret (Result.none, s.ctx)) start read.plain hq (read.sends.trans has) hgo
      rw [read.board] at hwrite sent htaken hlost
      obtain ⟨st, hends, hok, hfailed⟩ := bracket_ends_with_status htaken hlost
      obtain ⟨t, hnext, hended, hctx, hsends, hrecvs, hlog, hdev⟩ :=
        exec_rmwField_ends hidle read ((hrun _).trans hwrite) hends sent hu
      exact ⟨t, st, hnext, hended, hctx, hsends, hrecvs, hlog, hdev, hok, hfailed⟩
    · have hwrite := runProg_wrReg_stopped (addr := e.raddr) (.ret (Result.none, s.ctx)) hq (read.sends.trans has) hlost
        hstop
      exact exec_rmwField_ends hidle read ((hrun _).trans hwrite) (.raise .ioError)
        (start.send (actsAlone_of_plain read.plain _ a1)) (congrArg List.tail (read.sends.trans has))

/-! ### `SET_PGA` -/

/-- With a channel in its domain and a gain of `PgaSet`, the program is the read-modify-write of the channel's field,
which returns the context with the new gain (R93). -/
theorem exec_setPga {s : State} {ch : BitVec 2} {c : Ch3} {g code : Nat} (hch : ch3Of ch = some c)
    (hg : s.board.val.gains.lookup g = some code) :
    exec (.setPga ch g) s = .next (perform (.setPga ch g)
      (progRmw s.board.val (s.board.val.pgaField c).reg (s.board.val.pgaField c).mask
        (code * 2 ^ (s.board.val.pgaField c).shift)
        (.ret (.none, { s.ctx with pga := setGain s.ctx.pga g c }))) s) := by
  rw [exec, execSetPga, hch, hg, orInvalid_some, orInvalid_some, ← Nat.shiftLeft_eq]
  rfl

/-- A read-modify-write that ended, and the same one of another operation that returns the context `c`: the state is
the same, but for the context where it ended with `OK`. -/
theorem perform_rmw_of_rmwField {i : Instr} {s t : State} {r : RegId} {mask value : RegVal} {c : Ctx} {resp : Response}
    (hi : ∀ addr p, i ≠ .wrReg addr p) (hidle : Idle s) (hexec : exec (.rmwField r mask value) s = .next t)
    (hout : t.out = some resp) :
    (resp.status = .ok → perform i (progRmw s.board.val r mask value (.ret (.none, c))) s = { t with ctx := c }) ∧
    (resp.status ≠ .ok → perform i (progRmw s.board.val r mask value (.ret (.none, c))) s = t) := by
  injection hexec with hexec
  have returns (c : Ctx) : progRmw s.board.val r mask value (.ret (Result.none, c)) =
      (progRmw s.board.val r mask value (.ret ())).map fun _ => (Result.none, c) := by rw [map_progRmw, map_ret]
  have raises : ComesTo s.board (fun _ => True) (· ≠ .ok) (progRmw s.board.val r mask value (.ret ())) :=
    comesTo_rmw nofun (by simp [readStatuses]) trivial
  obtain ⟨hend, -⟩ := runProg_all (I := fun _ => True) (fun _ _ _ _ => trivial) (fun _ _ _ _ _ _ _ => trivial)
    (fun _ _ _ _ _ _ _ => trivial) _ raises (begun (.rmwField r mask value) s) trivial
  have keeps := runProg_keeps (progRmw s.board.val r mask value (.ret ())) (begun (.rmwField r mask value) s)
  rw [perform_of_idle hidle, returns, runProg_map] at hexec
  rw [perform_as (j := .rmwField r mask value) hi nofun hidle, returns, runProg_map, ← hexec]
  rw [← hexec] at hout
  generalize runProg (progRmw s.board.val r mask value (.ret ())) (begun (.rmwField r mask value) s) = x at *
  obtain ⟨x, u⟩ := x
  cases x with
  | done =>
    rw [RunEnd.map, endOp, finishOp_out] at hout
    cases hout
    exact ⟨fun _ => (finishOp_withOp i u _ c).trans (finishOp_withCtx u _ _ c).symm, fun h => absurd rfl h⟩
  | raised st =>
    rw [RunEnd.map, endOp, finishOp_out] at hout
    cases hout
    exact ⟨fun h => absurd h hend, fun _ => finishOp_withOp i u ⟨st, .none⟩ u.ctx⟩
  | waiting => cases keeps.out.symm.trans hout

theorem lookup_eq_none_iff_not_mem (m : List (Nat × Nat)) (k : Nat) : m.lookup k = none ↔ k ∉ m.map Prod.fst := by
  simp only [List.lookup_eq_none_iff, bne_iff_ne, ne_eq, List.mem_map, not_exists, not_and]
  exact forall₂_congr fun x _ => not_congr eq_comm

/-- A channel or a gain out of its domain raises before any transaction. -/
theorem exec_setPga_invalid {s : State} {ch : BitVec 2} {g : Nat} (hidle : Idle s)
    (hbad : ch3Of ch = none ∨ s.board.val.gains.lookup g = none) :
    exec (.setPga ch g) s = .next { s with out := some ⟨.invalidParam, .none⟩ } := by
  rw [exec, execSetPga]
  rcases hbad with hch | hg
  · rw [hch, orInvalid_none, perform_raise _ _ _ hidle]
  · cases ch3Of ch with
    | none => rw [orInvalid_none, perform_raise _ _ _ hidle]
    | some c => rw [orInvalid_some, hg, orInvalid_none, perform_raise _ _ _ hidle]

/-- Settles O20: `SET_PGA` runs the program of the read-modify-write, but for the context it returns. -/
theorem setGainIsAReadModifyWrite : Obligations.SetGainIsAReadModifyWrite := by
  intro s ch g hidle
  refine ⟨fun hbad => exec_setPga_invalid hidle (hbad.imp (by rintro rfl; rfl) (lookup_eq_none_iff_not_mem _ _).2),
    fun f code ctx' hch hg t r hexec hout => ?_⟩
  have isRmw (c : Ch3) (hc : ch3Of ch = some c) (hf : f = s.board.val.pgaField c)
      (hctx : ctx' = { s.ctx with pga := setGain s.ctx.pga g c }) :
      (r.status = .ok → exec (.setPga ch g) s = .next { t with ctx := ctx' }) ∧
        (r.status ≠ .ok → exec (.setPga ch g) s = .next t) := by
    subst hf hctx
    rw [exec_setPga hc hg]
    obtain ⟨hok, hfailed⟩ := perform_rmw_of_rmwField (i := .setPga ch g)
      (c := { s.ctx with pga := setGain s.ctx.pga g c }) nofun hidle hexec hout
    exact ⟨fun h => congrArg _ (hok h), fun h => congrArg _ (hfailed h)⟩
  rcases hch with ⟨rfl, hf, hctx⟩ | ⟨rfl, hf, hctx⟩ | ⟨rfl, hf, hctx⟩
  · exact isRmw .A rfl hf hctx
  · exact isRmw .B rfl hf hctx
  · exact isRmw .U rfl hf hctx

theorem getGain_setGain_self (x : Pga) (g : Nat) (c : Ch3) : getGain (setGain x g c) c = g := by cases c <;> rfl

theorem getGain_setGain_of_ne (x : Pga) (g : Nat) {c d : Ch3} (h : d ≠ c) :
    getGain (setGain x g c) d = getGain x d := by
  cases c <;> cases d <;> first | rfl | exact absurd rfl h

theorem takes_of_takesAny {b : Board} {f : List Byte} {a : SendAnswer} (hf : frameOk b.nmax f) (ha : TakesAny b a) :
    Takes f a := by
  obtain ⟨n, rfl, hn⟩ := ha
  exact (takes_iff _ _).2 ⟨n, rfl, hf.2.2.trans hn⟩

/-- A right response of the environment is received whole, and leaves the line as it was. -/
theorem recvAnswerOf_goodResponse {addr : Byte} {w : Nat} {p line : List Byte} (hp : p.length = w) :
    recvAnswerOf (w + 1) line (.bytes (goodResponse addr p)) = (.got (goodResponse addr p), line) := by
  rw [recvAnswerOf, List.take_of_length_le (by simp [goodResponse, hp])]

/-- Settles O21: the read-modify-write of the channel's field ends with `OK` (O18), and so does `SET_PGA` (O20). -/
theorem setGainCompletes : Obligations.SetGainCompletes := by
  intro s ch c g e p a0 a1 a2 a3 as plans hidle hch hg he hp hsends hrecvs htakes
  simp only [List.forall_mem_cons] at htakes
  obtain ⟨h0, h1, h2, h3, -⟩ := htakes
  obtain ⟨code, hcode⟩ := Option.ne_none_iff_exists'.1 fun hnone => (lookup_eq_none_iff_not_mem _ _).1 hnone hg
  have h0 : Takes (readFrame e.raddr) a0 := takes_of_takesAny (frameOk_readFrame _) h0
  obtain ⟨q, hq, -, hall, -⟩ := (readModifyWriteReplacesTheField s _ (s.board.val.pgaField c).mask
    (code * 2 ^ (s.board.val.pgaField c).shift) hidle).2.1 e a0 _ p _ _ plans _ he hp hsends h0 hrecvs rfl
    (recvAnswerOf_goodResponse hp)
  have taken : BracketTaken s.board.val.codes e.raddr q a1 a2 a3 :=
    bracketTaken_of_takesAny (hq.trans_le ((conditions s.board).width he)) h1 h2 h3
  obtain ⟨t, st, hrmw, ⟨hout, hidle', hports⟩, hctx, -, -, -, -, hok, -⟩ := hall a1 a2 a3 as rfl (.inl taken.1)
  obtain rfl := hok taken
  have hexec : exec (.setPga ch g) s = .next { t with ctx := { s.ctx with pga := setGain s.ctx.pga g c } } := by
    refine ((setGainIsAReadModifyWrite s ch g hidle).2 (s.board.val.pgaField c) code _ ?_ hcode t _ hrmw hout).1 rfl
    rcases hch with ⟨rfl, rfl⟩ | ⟨rfl, rfl⟩ | ⟨rfl, rfl⟩
    · exact .inl ⟨rfl, rfl, rfl⟩
    · exact .inr (.inl ⟨rfl, rfl, rfl⟩)
    · exact .inr (.inr ⟨rfl, rfl, rfl⟩)
  exact ⟨_, hexec, ⟨hout, hidle', hports⟩, getGain_setGain_self _ _ _, fun d hd => getGain_setGain_of_ne _ _ hd,
    rfl, rfl, rfl, rfl⟩

end Sys2Proof.Machine
end

section
/-! Registers read one after another (R101, R110): what a run has done after reads that are answered well, and the end
of an operation at a read that fails (R81, R134). -/

namespace Sys2Proof.Machine

/-! ### Reads that are answered well -/

/-- From `s` to `u` a run has made these transactions, their frames taken whole. What comes next acts on the device of
`u` as it does after these. -/
structure Completed (s u : State) (es : List Event) : Prop where
  board : u.board = s.board
  op : u.seq.op = s.seq.op
  whole : u.seq.slipped = false
  log : u.log = s.log ++ es
  next : ∀ es', deviceAfterEvents s.board.val s.dev (es ++ es') = deviceAfterEvents s.board.val u.dev es'

theorem completed_begun (i : Instr) (s : State) : Completed (begun i s) (begun i s) [] :=
  ⟨rfl, rfl, rfl, (List.append_nil _).symm, fun _ => rfl⟩

section Completed
variable {s u v : State} {es es' : List Event}

theorem Completed.dev (h : Completed s u es) : u.dev = deviceAfterEvents s.board.val s.dev es := by
  simpa [deviceAfterEvents] using (h.next []).symm

theorem Completed.plain (h : Completed s u es) (hs : PlainSends s.seq) : PlainSends u.seq :=
  fun addr p hop => hs addr p (h.op.symm.trans hop)

/-- The sends after other transactions, seen from the beginning. -/
theorem Completed.sent (h : Completed s u es) (hsent : Sent u v es') :
    v.log = s.log ++ (es ++ es') ∧ v.dev = deviceAfterEvents s.board.val s.dev (es ++ es') := by
  refine ⟨?_, ?_⟩
  · rw [hsent.log, h.log, List.append_assoc]
  · rw [hsent.dev, h.next, h.board]

/-- One more frame taken whole. -/
theorem Completed.send {f : List Byte} {a : SendAnswer} (h : Completed s u es) (hs : PlainSends s.seq)
    (ha : Takes f a) : Completed s (afterSend u f a) (es ++ [.send f (.sent f.length)]) := by
  have hsent : Sent u (afterSend u f a) [sendEvent f a] := (Sent.nil h.whole).send (actsAlone_of_plain (h.plain hs) f a)
  have whole : (afterSend u f a).seq.slipped = false := (afterSend_slipped_of_takes ha).trans h.whole
  rw [sendEvent_of_takes ha] at hsent
  refine ⟨h.board, h.op, whole, (h.sent hsent).1, fun es' => ?_⟩
  rw [List.append_assoc, h.next, ← h.board]
  have next := hsent.next es'
  rwa [whole] at next

/-- One more receive, of bytes that were not on the line. -/
theorem Completed.recv {n : Nat} {plan : RecvPlan} {ans : RecvAnswer} (h : Completed s u es)
    (hanswer : recvAnswerOf n u.dev.line plan = (ans, u.dev.line)) :
    Completed s (afterRecv u n plan) (es ++ [.recv n ans]) := by
  refine ⟨h.board, h.op, h.whole, ?_, fun es' => ?_⟩
  · rw [afterRecv_log, hanswer, h.log, List.append_assoc]
  · rw [afterRecv_dev, hanswer, List.append_assoc, h.next]
    rfl

end Completed

/-- The first of the reads that the transport will answer, and what it will answer after it. -/
theorem readsAnswered_cons {u : State} {addr : Byte} {p : List Byte} {rs : List (Byte × List Byte)}
    {sends : List SendAnswer} {recvs : List RecvPlan} (h : ReadsAnswered u ((addr, p) :: rs) sends recvs) :
    ∃ a as plans, u.sends = a :: as ∧ Takes (readFrame addr) a ∧ u.recvs = .bytes (goodResponse addr p) :: plans ∧
      ∀ v : State, v.sends = as → v.recvs = plans → ReadsAnswered v rs sends recvs := by
  obtain ⟨⟨as, hlen, htakes, hsends⟩, hrecvs⟩ := h
  cases as with
  | nil => cases hlen
  | cons a as =>
    obtain ⟨⟨n, ha, hn⟩, htakes⟩ := List.forall_mem_cons.1 htakes
    exact ⟨a, _, _, hsends, (takes_iff _ _).2 ⟨n, ha, hn⟩, hrecvs, fun v hv hv' =>
      ⟨⟨as, Nat.succ.inj hlen, htakes, hv⟩, hv'⟩⟩

theorem readsAnswered_nil {u : State} {sends : List SendAnswer} {recvs : List RecvPlan}
    (h : ReadsAnswered u [] sends recvs) : u.sends = sends ∧ u.recvs = recvs := by
  obtain ⟨⟨as, hlen, -, hsends⟩, hrecvs⟩ := h
  obtain rfl := List.eq_nil_of_length_eq_zero hlen
  exact ⟨hsends, hrecvs⟩

/-- A read that is answered well, after other transactions. -/
theorem runProg_rdReg_answered {α : Type} {b : Board} {s u : State} {es : List Event} {addr : Byte} {w : Nat}
    {p : List Byte} {rs : List (Byte × List Byte)} {sends : List SendAnswer} {recvs : List RecvPlan}
    (k : List Byte → Prog α) (h : Completed s u es) (plain : PlainSends s.seq) (hp : p.length = w) (hw : w ≤ b.nmax)
    (hanswers : ReadsAnswered u ((addr, p) :: rs) sends recvs) :
    ∃ v, runProg (progRdReg b addr w k) u = runProg (k p) v ∧ ReadsAnswered v rs sends recvs ∧
      Completed s v (es ++ readEvents addr p) := by
  obtain ⟨a, as, plans, hs, ha, hr, hrest⟩ := readsAnswered_cons hanswers
  have hanswer := recvAnswerOf_goodResponse (addr := addr) (line := (afterSend u (readFrame addr) a).dev.line) hp
  have done := (h.send plain ha).recv hanswer
  rw [List.append_assoc] at done
  refine ⟨_, ?_, hrest _ (congrArg List.tail hs) (congrArg List.tail hr), hp ▸ done⟩
  rw [runProg_rdReg_received k hw hs ha hr, hanswer, checkResponse_goodResponse k hp, hp]

/-! ### A read that fails -/

/-- Whatever a receive is answered but the right response, the check of it raises R81's status. -/
theorem checkResponse_raises {α : Type} {addr : Byte} {w : Nat} {ans : RecvAnswer} (k : List Byte → Prog α)
    (hlen : ∀ bs, ans = .got bs → bs.length ≤ w + 1)
    (hbad : ∀ p : List Byte, p.length = w → ans ≠ .got (goodResponse addr p)) :
    ∃ st, checkResponse addr w k ans = .raise st ∧ (ans = .fail → st = .ioError) ∧
      (∀ bs, ans = .got bs → bs.length ≤ w → st = .ioMissingBytes) ∧
      (∀ bs, ans = .got bs → bs.length = w + 1 → st = .checksumMismatch) := by
  cases ans with
  | fail => exact ⟨_, rfl, fun _ => rfl, nofun, nofun⟩
  | got bs =>
    by_cases hshort : bs.length ≤ w
    · refine ⟨_, checkResponse_short k hshort, nofun, fun _ _ _ => rfl, fun bs' hbs hfull => ?_⟩
      cases hbs
      omega
    · obtain ⟨p, ck, rfl⟩ : ∃ p ck, bs = p ++ [ck] :=
        (List.eq_nil_or_concat' bs).resolve_left (by rintro rfl; exact hshort (Nat.zero_le w))
      have hfull := hlen _ rfl
      rw [List.length_append, List.length_singleton] at hshort hfull
      have hp : p.length = w := by omega
      have wrong : cksumByte hdrByte addr p ≠ ck := fun h => hbad p hp (by rw [← h, goodResponse])
      refine ⟨_, (checkResponse_append k hp).trans (if_neg wrong), nofun, fun bs' hbs hle => ?_, fun _ _ _ => rfl⟩
      cases hbs
      rw [List.length_append, List.length_singleton] at hle
      omega

/-- An operation that comes to a read after the reads `rs` ends with that read's status when it fails. -/
theorem endsAtFailedRead_of_run {i : Instr} {prog : Prog (Result × Ctx)} {s : State} {rs : List (Byte × List Byte)}
    {addr : Byte} {w : Nat} (hexec : exec i s = .next (perform i prog s)) (hidle : Idle s)
    (hi : ∀ addr p, i ≠ .wrReg addr p) (hw : w ≤ s.board.val.nmax)
    (hreach : ∀ sends recvs, ReadsAnswered s rs sends recvs → ∃ u k,
      runProg prog (begun i s) = runProg (progRdReg s.board.val addr w k) u ∧ u.sends = sends ∧ u.recvs = recvs ∧
      Completed (begun i s) u (rs.flatMap fun q => readEvents q.1 q.2)) :
    EndsAtFailedRead i s rs addr w := by
  intro a sends recvs evs hanswers hevs
  obtain ⟨u, k, hrun, hs, hr, done⟩ := hreach _ _ hanswers
  rw [← hevs] at done
  have plain := plainSends_begun hi s
  refine ⟨fun ha => ?_, fun ha plan plans d ans line hplans hd hanswer hbad => ?_⟩
  · have hread : runProg (progRdReg s.board.val addr w k) u =
        runProg (.raise .ioError) (afterSend u (readFrame addr) a) := by
      rw [progRdReg, withinBuffer_of_le hw, runProg_sendFrame _ hs, sendStatus_of_not_takes ha, if_neg nofun]
    obtain ⟨hlog, hdev⟩ := done.sent
      ((Sent.nil done.whole).send (actsAlone_of_plain (done.plain plain) (readFrame addr) a))
    obtain ⟨t, hnext, hended, hctx, hsends, hrecvs, hlog', hdev'⟩ :=
      exec_ends hexec hidle (hrun.trans hread) (.raise .ioError)
    exact ⟨t, hnext, hended, hctx, hsends.trans (congrArg List.tail hs), hrecvs.trans hr, hlog'.trans hlog,
      hdev'.trans hdev⟩
  · have requested := done.send plain ha
    have dev : (afterSend u (readFrame addr) a).dev = d := requested.dev.trans hd.symm
    have hread := runProg_rdReg_received k hw hs ha (hr.trans hplans)
    rw [dev, hanswer] at hread
    have hlen := recvAnswerOf_le (w + 1) d.line plan
    rw [hanswer] at hlen
    obtain ⟨st, hraise, hstatus⟩ := checkResponse_raises k hlen hbad
    rw [hraise] at hread
    obtain ⟨t, hnext, hended, hctx, hsends, hrecvs, hlog, hdev⟩ :=
      exec_ends hexec hidle (hrun.trans hread) (.raise st)
    rw [afterRecv_log, requested.log, dev, hanswer, List.append_assoc, List.append_assoc] at hlog
    rw [afterRecv_dev, dev, hanswer] at hdev
    exact ⟨t, st, hnext, hended, hctx, hsends.trans (congrArg List.tail hs),
      hrecvs.trans (congrArg List.tail (hr.trans hplans)), hlog, hdev, hstatus⟩

end Sys2Proof.Machine
end

section
/-! `LOAD_COEF` (R99 to R101) and `APPLY_CAL` (R103) when the transport answers well, and `LOAD_COEF` at a read that
fails (R104). -/

namespace Sys2Proof.Machine

/-! ### The cache -/

theorem getCoef_setCoef_self (cs : CoefSet) (v : BitVec 16) (f : CoefField) : getCoef (setCoef cs v f) f = v := by
  cases f <;> rfl

theorem getCoef_setCoef_of_ne (cs : CoefSet) (v : BitVec 16) {f g : CoefField} (h : g ≠ f) :
    getCoef (setCoef cs v f) g = getCoef cs g := by
  cases f <;> cases g <;> first | rfl | exact absurd rfl h

/-- The set of `LOAD_COEF` after the reads of the fields `xs` that gave the payloads `ps` (R101). -/
def coefsRead (tmp : CoefSet) : List (CoefField × RegId) → List (List Byte) → CoefSet
  | x :: xs, p :: ps => coefsRead (setCoef tmp (BitVec.ofNat 16 (beNat p)) x.1) xs ps
  | _, _ => tmp

theorem getCoef_coefsRead_of_not_mem {f : CoefField} {xs : List (CoefField × RegId)} (tmp : CoefSet)
    (ps : List (List Byte)) (h : f ∉ xs.map Prod.fst) : getCoef (coefsRead tmp xs ps) f = getCoef tmp f := by
  induction xs generalizing tmp ps with
  | nil => rfl
  | cons x xs ih =>
    cases ps with
    | nil => rfl
    | cons p ps =>
      obtain ⟨hx, hxs⟩ := not_or.1 fun hor => h (List.mem_cons.2 hor)
      rw [coefsRead, ih _ _ hxs, getCoef_setCoef_of_ne _ _ hx]

/-- With distinct fields, each holds what its register gave. -/
theorem getCoef_coefsRead {f : CoefField} {r : RegId} {p : List Byte} {k : Nat} {xs : List (CoefField × RegId)}
    {ps : List (List Byte)} (tmp : CoefSet) (hnodup : (xs.map Prod.fst).Nodup) (hf : xs[k]? = some (f, r))
    (hp : ps[k]? = some p) : getCoef (coefsRead tmp xs ps) f = BitVec.ofNat 16 (beNat p) := by
  induction xs generalizing tmp ps k with
  | nil => cases hf
  | cons x xs ih =>
    obtain ⟨hx, hxs⟩ := List.nodup_cons.1 hnodup
    cases ps with
    | nil => cases hp
    | cons q ps =>
      cases k with
      | zero =>
        cases hf
        cases hp
        rw [coefsRead, getCoef_coefsRead_of_not_mem _ _ hx, getCoef_setCoef_self]
      | succ k => exact ih _ hxs hf hp

/-! ### `COEF_ORDER` -/

theorem nodup_of_keysDistinct {α β : Type} [DecidableEq α] {m : List (α × β)} (h : keysDistinct m = true) :
    (m.map Prod.fst).Nodup := by
  induction m with
  | nil => exact List.nodup_nil
  | cons x m ih =>
    obtain ⟨hx, hm⟩ := Bool.and_eq_true_iff.1 h
    refine List.nodup_cons.2 ⟨fun hmem => ?_, ih hm⟩
    obtain ⟨y, hy, hyx⟩ := List.mem_map.1 hmem
    have : (m.any fun p => decide (p.1 = x.1)) = true := List.any_eq_true.2 ⟨y, hy, decide_eq_true hyx⟩
    simp [this] at hx

/-- `COEF_ORDER` names each of the nine fields once, and registers of width 2 (R12, R100). -/
theorem coefOrder_wf (b : WfBoard) : b.val.coefOrder.length = 9 ∧ (b.val.coefOrder.map Prod.fst).Nodup ∧
    ∀ x ∈ b.val.coefOrder, ∀ e, b.val.entry x.2 = some e → e.width = 2 := by
  obtain ⟨b, hb⟩ := b
  simp only [Board.wf, Bool.and_eq_true, and_assoc, List.all_eq_true] at hb
  obtain ⟨-, -, -, -, -, -, -, -, -, -, -, -, -, -, hlen, hkeys, hwidth, -⟩ := hb
  refine ⟨beq_iff_eq.1 hlen, nodup_of_keysDistinct hkeys, fun x hx e he => ?_⟩
  simpa only [Board.hasWidthTwo, he, beq_iff_eq] using hwidth x hx

/-! ### The reads of `LOAD_COEF` -/

theorem progLoadCoefs_cons {α : Type} {b : Board} {x : CoefField × RegId} {e : RegEntry}
    {rest : List (CoefField × RegId)} {tmp : CoefSet} {k : CoefSet → Prog α} (he : b.entry x.2 = some e) :
    progLoadCoefs b (x :: rest) tmp k = progRdReg b e.raddr e.width fun p =>
      progDecU b p fun v => progLoadCoefs b rest (setCoef tmp (BitVec.ofNat 16 v) x.1) k := by
  rw [progLoadCoefs, progRead, he]
  rfl

/-- Reads of `LOAD_COEF` that are answered well: the run goes on with the reads after them. -/
theorem runProg_loadCoefs_answered {α : Type} {s u : State} {evs : List Event} {xs : List (CoefField × RegId)}
    {es : List RegEntry} {ps : List (List Byte)} {tmp : CoefSet} {sends : List SendAnswer} {recvs : List RecvPlan}
    (rest : List (CoefField × RegId)) (k : CoefSet → Prog α) (h : Completed s u evs) (plain : PlainSends s.seq)
    (hentries : xs.map (fun x => s.board.val.entry x.2) = es.map some)
    (hxs : ∀ x ∈ xs, ∀ e, s.board.val.entry x.2 = some e → e.width = 2) (hlen : ps.length = es.length)
    (hps : ∀ p ∈ ps, p.length = 2) (hanswers : ReadsAnswered u ((es.map RegEntry.raddr).zip ps) sends recvs) :
    ∃ v, runProg (progLoadCoefs s.board.val (xs ++ rest) tmp k) u =
        runProg (progLoadCoefs s.board.val rest (coefsRead tmp xs ps) k) v ∧ v.sends = sends ∧ v.recvs = recvs ∧
      Completed s v (evs ++ ((es.map RegEntry.raddr).zip ps).flatMap fun q => readEvents q.1 q.2) := by
  induction xs generalizing es ps u evs tmp with
  | nil =>
    obtain rfl : es = [] := by simpa using hentries.symm
    obtain rfl : ps = [] := List.eq_nil_of_length_eq_zero hlen
    obtain ⟨hs, hr⟩ := readsAnswered_nil hanswers
    exact ⟨u, rfl, hs, hr, (List.append_nil evs).symm ▸ h⟩
  | cons x xs ih =>
    match es, ps, hentries, hlen, hps, hanswers with
    | e :: es, p :: ps, hentries, hlen, hps, hanswers =>
      obtain ⟨he, hentries⟩ := List.cons.inj hentries
      obtain ⟨hx, hxs⟩ := List.forall_mem_cons.1 hxs
      obtain ⟨hp, hps⟩ := List.forall_mem_cons.1 hps
      have hpw : p.length = e.width := hp.trans (hx e he).symm
      have hw : e.width ≤ s.board.val.nmax := (conditions s.board).width he
      obtain ⟨v, hrun, hrest, done⟩ := runProg_rdReg_answered (b := s.board.val)
        (fun p => progDecU s.board.val p fun v =>
          progLoadCoefs s.board.val (xs ++ rest) (setCoef tmp (BitVec.ofNat 16 v) x.1) k) h plain hpw hw hanswers
      rw [progDecU, withinBuffer_of_le (hpw.trans_le hw)] at hrun
      obtain ⟨z, hrun', hs, hr, done'⟩ := ih (tmp := setCoef tmp (BitVec.ofNat 16 (beNat p)) x.1) done hentries hxs
        (Nat.succ.inj hlen) hps hrest
      refine ⟨z, ?_, hs, hr, ?_⟩
      · rw [List.cons_append, progLoadCoefs_cons he, hrun, hrun', coefsRead]
      · rwa [List.append_assoc] at done'

/-- Settles O22: after the nine reads the set holds what each gave, and the context is written once. -/
theorem loadCoefficientsFillsTheCache : Obligations.LoadCoefficientsFillsTheCache := by
  intro s es ps sends recvs hidle hentries hlen hps hanswers
  obtain ⟨hnine, hnodup, hwidth⟩ := coefOrder_wf s.board
  have hes : ps.length = es.length := by
    have := congrArg List.length hentries
    rw [List.length_map, List.length_map] at this
    omega
  obtain ⟨u, hrun, hs, hr, done⟩ := runProg_loadCoefs_answered (s := begun .loadCoef s) (tmp := emptyCoefs) []
    (fun cs => .ret (Result.none, { s.ctx with coef := .loaded cs })) (completed_begun .loadCoef s)
    (plainSends_begun (i := .loadCoef) nofun s) hentries hwidth hes hps hanswers
  rw [begun_board, List.append_nil] at hrun
  obtain ⟨t, hnext, hended, hctx, hsends, hrecvs, hlog, hdev⟩ := exec_ends rfl hidle hrun (.ret _ _)
  refine ⟨t, _, hnext, hended, hctx, fun k f r p hf hp => ?_, hsends.trans hs, hrecvs.trans hr, hlog.trans done.log,
    hdev.trans done.dev⟩
  have fits : beNat p < 2 ^ 16 := by
    have := beNat_lt p
    rwa [hps p (List.mem_of_getElem? hp)] at this
  rw [getCoef_coefsRead emptyCoefs hnodup hf hp, BitVec.toNat_ofNat, Nat.mod_eq_of_lt fits]

/-- A list whose beginning maps to these entries, cut before the last of them. -/
theorem exists_append_cons_of_take {α β : Type} {l : List α} {g : α → Option β} {es : List β} {e : β}
    (h : (l.map g).take (es.length + 1) = (es ++ [e]).map some) :
    ∃ xs x rest, l = xs ++ x :: rest ∧ xs.map g = es.map some ∧ g x = some e := by
  induction es generalizing l with
  | nil =>
    cases l with
    | nil => cases h
    | cons x l => exact ⟨[], x, l, rfl, rfl, (List.cons.inj h).1⟩
  | cons y es ih =>
    cases l with
    | nil => cases h
    | cons x l =>
      obtain ⟨hx, hl⟩ := List.cons.inj h
      obtain ⟨xs, z, rest, rfl, hxs, hz⟩ := ih hl
      exact ⟨x :: xs, z, rest, rfl, congrArg₂ List.cons hx hxs, hz⟩

/-- Settles O23: the reads before the failed one bring the run to it, and `ctx.coef` is assigned after the ninth. -/
theorem loadCoefficientsStopsAtAFailedRead : Obligations.LoadCoefficientsStopsAtAFailedRead := by
  intro s es ps e hidle htake hlen hps
  obtain ⟨-, -, hwidth⟩ := coefOrder_wf s.board
  obtain ⟨xs, x, rest, horder, hentries, he⟩ := exists_append_cons_of_take htake
  rw [horder] at hwidth
  have hw : e.width = 2 := hwidth x (by simp) e he
  have hmax : e.width ≤ s.board.val.nmax := (conditions s.board).width he
  refine endsAtFailedRead_of_run rfl hidle nofun (hw ▸ hmax) fun sends recvs hanswers => ?_
  obtain ⟨u, hrun, hs, hr, done⟩ := runProg_loadCoefs_answered (s := begun .loadCoef s) (tmp := emptyCoefs) (x :: rest)
    (fun cs => .ret (Result.none, { s.ctx with coef := .loaded cs })) (completed_begun .loadCoef s)
    (plainSends_begun (i := .loadCoef) nofun s) hentries (fun y hy => hwidth y (List.mem_append_left _ hy)) hlen hps
    hanswers
  rw [begun_board, ← horder, progLoadCoefs_cons he, hw] at hrun
  exact ⟨u, _, hrun, hs, hr, done⟩

/-! ### `APPLY_CAL` -/

/-- Settles O24: all the brackets of `CAL_ORDER` are sent, and nothing is left of the program. -/
theorem applyCalibrationWritesEveryField : Obligations.ApplyCalibrationWritesEveryField := by
  intro s rec es as sends hidle hentries hlen htakes hsends
  obtain ⟨u, hrun, hu, sent⟩ := runProg_applyCal_sent (rec := rec) [] (.ret (Result.none, s.ctx))
    (plainSends_applyCal rec s) (sent_begun _ s) hentries hlen htakes hsends
  rw [begun_board, List.append_nil] at hrun
  obtain ⟨t, hnext, hended, hctx, hsends, hrecvs, hlog, hdev⟩ :=
    endsAfter_of_sent rfl hidle hrun (.ret .none s.ctx) sent hu
  refine ⟨t, hnext, hended, hctx, hsends, hrecvs, fun evs hevs => ?_⟩
  obtain rfl : evs = calEvents s.board.val rec s.board.val.calOrder es := hevs
  exact ⟨hlog, hdev⟩

end Sys2Proof.Machine
end

section
/-! The converter's kernels (R105 to R107): the payload of `DEC_U` and `DEC_S` as a number in base 256 with a sign bit,
and the rounding division as the nearest integer. -/

namespace Sys2Proof.Machine

/-! ### Payload values -/

/-- The base-256 digits of a payload's value are its bytes, most significant first (R62, R105). -/
theorem beNat_div_pow_mod (p : List Byte) (i : Nat) (hi : i < p.length) :
    beNat p / 256 ^ (p.length - 1 - i) % 256 = p[i].toNat := by
  have digit : (serBytes (beNat p) p.length)[i]? = some p[i] := by
    rw [serBytes_beNat]
    exact List.getElem?_eq_getElem hi
  have low (n : Nat) : n &&& 0xFF = n % 256 := Nat.and_two_pow_sub_one_eq_mod n 8
  rw [toNat_of_getElem?_serBytes digit, low, Nat.shiftRight_eq_div_pow, ← pow_256_eq]

/-- The top bit of a payload's value is bit 7 of its first byte (R106). -/
theorem testBit_beNat_cons (d : Byte) (p : List Byte) :
    (beNat (d :: p)).testBit (8 * (d :: p).length - 1) = d.msb := by
  have first : beNat (d :: p) / 2 ^ (8 * p.length) % 2 ^ 8 = d.toNat := by
    rw [← pow_256_eq]
    exact beNat_div_pow_mod (d :: p) 0 (Nat.succ_pos _)
  have place : 8 * (d :: p).length - 1 = 7 + 8 * p.length := by
    rw [List.length_cons]
    omega
  calc (beNat (d :: p)).testBit (8 * (d :: p).length - 1)
      = (beNat (d :: p) / 2 ^ (8 * p.length) % 2 ^ 8).testBit 7 := by
        rw [place, Nat.testBit_mod_two_pow, Nat.testBit_div_two_pow]
        rfl
    _ = d.msb := by rw [first, BitVec.msb_eq_getLsbD_last]; rfl

theorem beInt_cons (d : Byte) (p : List Byte) :
    beInt (d :: p) = if d.msb then (beNat (d :: p) : Int) - 2 ^ (8 * (d :: p).length) else beNat (d :: p) := by
  rw [beInt, sextInt, testBit_beNat_cons]

/-- Settles O27: the value is `beNat`, whose digits are the bytes and whose top bit decides its sign. -/
theorem decodersReturnThePayloadValue : Obligations.DecodersReturnThePayloadValue := by
  intro s p hidle
  refine ⟨fun hfits => ?_, fun hlong => ?_, ?_⟩
  · refine ⟨beNat p, beNat_lt p, beNat_div_pow_mod p, ?_, ?_⟩
    · rw [exec, execDecU, progDecU, withinBuffer_of_le hfits, perform_ret _ _ _ _ hidle]
    · rintro d r rfl
      have nonempty : (d :: r).length ≠ 0 := Nat.succ_ne_zero _
      rw [exec, execDecS, progDecS, if_neg nonempty, withinBuffer_of_le hfits, perform_ret _ _ _ _ hidle, beInt_cons]
  · refine ⟨?_, ?_⟩
    · rw [exec, execDecU, progDecU, withinBuffer_of_gt hlong, perform_raise _ _ _ hidle]
    · have nonempty : p.length ≠ 0 := by omega
      rw [exec, execDecS, progDecS, if_neg nonempty, withinBuffer_of_gt hlong, perform_raise _ _ _ hidle]
  · rintro rfl
    rw [exec, execDecS, progDecS, if_pos List.length_nil, perform_raise _ _ _ hidle]

/-! ### The rounding division -/

theorem natAbs_rdivInt (n : Int) (d : Nat) : (rdivInt n d).natAbs = (2 * n.natAbs + d) / (2 * d) := by
  unfold rdivInt
  split <;> simp only [Int.natAbs_neg, Int.natAbs_natCast]

theorem rdivInt_of_nonneg {n : Int} (hn : 0 ≤ n) (d : Nat) : rdivInt n d = ((2 * n.natAbs + d) / (2 * d) : Nat) :=
  if_pos hn

/-- The division is symmetric about zero (R107). -/
theorem rdivInt_neg (n : Int) {d : Nat} (hd : 0 < d) : rdivInt (-n) d = -rdivInt n d := by
  have zero : (2 * (0 : Int).natAbs + d) / (2 * d) = 0 := Nat.div_eq_of_lt (by simp only [Int.natAbs_zero]; omega)
  rcases lt_trichotomy n 0 with hn | rfl | hn
  · simp only [rdivInt, if_pos (show (0 : Int) ≤ -n by omega), if_neg (show ¬ (0 : Int) ≤ n by omega), Int.natAbs_neg,
      neg_neg]
  · rw [neg_zero, rdivInt_of_nonneg le_rfl, zero]
    rfl
  · simp only [rdivInt, if_neg (show ¬ (0 : Int) ≤ -n by omega), if_pos (show (0 : Int) ≤ n by omega), Int.natAbs_neg]

theorem rdivInt_nonneg {n : Int} (hn : 0 ≤ n) (d : Nat) : 0 ≤ rdivInt n d := by
  rw [rdivInt_of_nonneg hn]
  exact Int.natCast_nonneg _

theorem rdivInt_nonpos {n : Int} {d : Nat} (hd : 0 < d) (hn : n ≤ 0) : rdivInt n d ≤ 0 := by
  have := rdivInt_nonneg (n := -n) (by omega) d
  rw [rdivInt_neg n hd] at this
  omega

/-- The result is at most half a divisor away from the quotient. -/
theorem two_mul_abs_rdivInt_sub_le (n : Int) {d : Nat} (hd : 0 < d) : 2 * |rdivInt n d * d - n| ≤ d := by
  wlog hn : 0 ≤ n generalizing n
  · have opposite := this (-n) (by omega)
    rwa [rdivInt_neg n hd, neg_mul, neg_sub_neg, abs_sub_comm] at opposite
  obtain ⟨n, rfl⟩ := Int.eq_ofNat_of_zero_le hn
  rw [rdivInt_of_nonneg hn, Int.natAbs_natCast]
  have below := Nat.div_mul_le_self (2 * n + d) (2 * d)
  have above := Nat.lt_div_mul_add (a := 2 * n + d) (b := 2 * d) (by omega)
  generalize (2 * n + d) / (2 * d) = m at below above
  have product : m * (2 * d) = 2 * (m * d) := Nat.mul_left_comm m 2 d
  have cast : (m : Int) * d = (m * d : Nat) := (Int.natCast_mul m d).symm
  rw [cast, Int.abs_eq_natAbs]
  omega

/-- No other integer as near is of larger magnitude: halves go away from zero. -/
theorem abs_le_abs_rdivInt {n q : Int} {d : Nat} (hd : 0 < d) (hq : 2 * |q * d - n| ≤ d) : |q| ≤ |rdivInt n d| := by
  have triangle : |q * d| ≤ |q * d - n| + |n| := by simpa using abs_add_le (q * d - n) n
  rw [abs_mul, Nat.abs_cast, Int.abs_eq_natAbs q, Int.abs_eq_natAbs n] at triangle
  rw [Int.abs_eq_natAbs, Int.abs_eq_natAbs, natAbs_rdivInt, Int.ofNat_le, Nat.le_div_iff_mul_le (by omega)]
  have product : q.natAbs * (2 * d) = 2 * (q.natAbs * d) := Nat.mul_left_comm _ 2 d
  have cast : (q.natAbs : Int) * d = (q.natAbs * d : Nat) := (Int.natCast_mul _ d).symm
  omega

theorem exec_rdiv_of_pos {s : State} (hidle : Idle s) (num : Int) {den : Int} (hden : 0 < den) :
    exec (.rdiv num den) s = .next { s with out := some ⟨.ok, .int (rdivInt num den.toNat)⟩ } := by
  rw [exec, execRdiv, if_neg (not_le.2 hden), perform_ret _ _ _ _ hidle]

/-- Settles O28: the divisor is a positive natural number, and `rdivInt` rounds to the nearest. -/
theorem roundingDivisionIsNearest : Obligations.RoundingDivisionIsNearest := by
  intro s num den hidle
  refine ⟨fun hden => ?_, fun hden => ?_⟩
  · rw [exec, execRdiv, if_pos hden, perform_raise _ _ _ hidle]
  · obtain ⟨d, rfl⟩ := Int.eq_ofNat_of_zero_le hden.le
    have hd : 0 < d := Int.natCast_pos.1 hden
    refine ⟨rdivInt num d, exec_rdiv_of_pos hidle num hden, ?_, two_mul_abs_rdivInt_sub_le num hd,
      fun q => abs_le_abs_rdivInt hd, fun hn => rdivInt_nonneg hn d, rdivInt_nonpos hd⟩
    rw [exec_rdiv_of_pos hidle (-num) hden, Int.toNat_natCast, rdivInt_neg num hd]

end Sys2Proof.Machine
end

section
/-! The converter (R108 to R118): the map of readings that the reads of `Regs_q` make, the result on the port, and the
conversions as reads after the two checks. -/

namespace Sys2Proof.Machine

/-! ### The readings -/

/-- A payload's value by the signedness of its register (R110 step 3). -/
def decoded (b : Board) (r : RegId) (p : List Byte) : Int := if b.isSigned r then beInt p else (beNat p : Int)

theorem progDec_of_fits {α : Type} {b : Board} {r : RegId} {p : List Byte} (k : Int → Prog α)
    (hsign : b.isSigned r = true → 1 ≤ p.length) (hp : p.length ≤ b.nmax) :
    progDec b r p k = k (decoded b r p) := by
  unfold progDec decoded
  split
  · have nonempty : p.length ≠ 0 := by have := hsign ‹_›; omega
    rw [progDecS, if_neg nonempty, withinBuffer_of_le hp]
  · rw [progDecU, withinBuffer_of_le hp]

theorem beInt_eq_zero_iff (p : List Byte) : beInt p = 0 ↔ beNat p = 0 := by
  cases p with
  | nil => exact iff_of_true rfl rfl
  | cons d p =>
    have below : (beNat (d :: p) : Int) < 2 ^ (8 * (d :: p).length) := by
      have := beNat_lt (d :: p)
      rw [pow_256_eq] at this
      exact_mod_cast this
    rw [beInt_cons]
    split
    · rename_i hneg
      refine iff_of_false (by omega) fun hzero => ?_
      have top := testBit_beNat_cons d p
      rw [hzero, Nat.zero_testBit, hneg] at top
      cases top
    · exact Int.natCast_eq_zero

theorem decoded_eq_zero_iff (b : Board) (r : RegId) (p : List Byte) : decoded b r p = 0 ↔ beNat p = 0 := by
  unfold decoded
  split
  · exact beInt_eq_zero_iff p
  · exact Int.natCast_eq_zero

/-- The payload of a register's last reading. -/
def lastPayload (m : List (RegId × List Byte)) (r : RegId) : List Byte := (m.reverse.lookup r).getD []

theorem lastPayload_concat (m : List (RegId × List Byte)) (x : RegId × List Byte) (r : RegId) :
    lastPayload (m ++ [x]) r = if r = x.1 then x.2 else lastPayload m r := by
  obtain ⟨k, p⟩ := x
  rw [lastPayload, List.reverse_concat, List.lookup_cons]
  by_cases h : r = k
  · rw [if_pos h, beq_iff_eq.2 h]
    rfl
  · rw [if_neg h, beq_false_of_ne h]
    rfl

/-- The map of readings after more of them (R110's `raw[reg]`, with the payloads). -/
def readings (b : Board) (acc : List (RegId × List Byte × Int)) (m : List (RegId × List Byte)) :
    List (RegId × List Byte × Int) :=
  m.foldl (fun acc x => assign acc x.1 (x.2, decoded b x.1 x.2)) acc

theorem eraseDups_concat {α : Type} [DecidableEq α] (l : List α) (x : α) :
    (l ++ [x]).eraseDups = if x ∈ l then l.eraseDups else l.eraseDups ++ [x] := by
  rw [List.eraseDups_append]
  by_cases h : x ∈ l <;> simp [List.removeAll, h, List.eraseDups_cons]

theorem nodup_eraseDups {α : Type} [DecidableEq α] (l : List α) : l.eraseDups.Nodup := by
  induction l using List.reverseRecOn with
  | nil => exact List.nodup_nil
  | append_singleton l x ih =>
    rw [eraseDups_concat]
    split
    · exact ih
    · rw [← List.concat_eq_append]
      exact ih.concat (mt List.mem_eraseDups.1 ‹_›)

/-- An assignment to a map that is a function on its keys. -/
theorem assign_map {α : Type} {ks : List RegId} (h : ks.Nodup) (f : RegId → α) (r : RegId) (x : α) :
    assign (ks.map fun k => (k, f k)) r x =
      (if r ∈ ks then ks else ks ++ [r]).map fun k => (k, if k = r then x else f k) := by
  induction ks with
  | nil => simp [assign]
  | cons k ks ih =>
    obtain ⟨hk, hks⟩ := List.nodup_cons.1 h
    by_cases hkr : k = r
    · subst hkr
      have others : ∀ j ∈ ks, (j, f j) = (j, if j = k then x else f j) := fun j hj =>
        by rw [if_neg (ne_of_mem_of_not_mem hj hk)]
      simp [assign, List.map_congr_left others]
    · have place : (if r ∈ k :: ks then k :: ks else k :: ks ++ [r]) = k :: if r ∈ ks then ks else ks ++ [r] := by
        simp only [List.mem_cons, Ne.symm hkr, false_or]
        split <;> rfl
      rw [place, List.map_cons, List.map_cons, if_neg hkr, assign, if_neg hkr, ih hks]

/-- Each register has one entry, in the order of its first reading, with its last payload and the value of that. -/
theorem readings_nil_eq (b : Board) (m : List (RegId × List Byte)) :
    readings b [] m = (m.map Prod.fst).eraseDups.map fun r => (r, lastPayload m r, decoded b r (lastPayload m r)) := by
  induction m using List.reverseRecOn with
  | nil => rfl
  | append_singleton m x ih =>
    have step : readings b [] (m ++ [x]) = assign (readings b [] m) x.1 (x.2, decoded b x.1 x.2) := List.foldl_append
    rw [step, ih, assign_map (nodup_eraseDups _), List.map_append, List.map_singleton, eraseDups_concat]
    simp only [List.mem_eraseDups, lastPayload_concat]
    refine List.map_congr_left fun r _ => ?_
    split
    · subst r; rfl
    · rfl

/-! ### The reads of `Regs_q` -/

theorem progReads_cons {α : Type} {b : Board} {r : RegId} {e : RegEntry} {rest : List RegId}
    {acc : List (RegId × List Byte × Int)} {k : List (RegId × List Byte × Int) → Prog α} (he : b.entry r = some e) :
    progReads b (r :: rest) acc k = progRdReg b e.raddr e.width fun p =>
      progDec b r p fun v => progReads b rest (assign acc r (p, v)) k := by
  rw [progReads, progRead, he]
  rfl

/-- Reads of a conversion that are answered well: the run goes on with the reads after them. -/
theorem runProg_reads_answered {α : Type} {s u : State} {evs : List Event} {rs : List RegId}
    {es : List RegEntry} {ps : List (List Byte)} {acc : List (RegId × List Byte × Int)} {sends : List SendAnswer}
    {recvs : List RecvPlan} (rest : List RegId) (k : List (RegId × List Byte × Int) → Prog α)
    (h : Completed s u evs) (plain : PlainSends s.seq)
    (hsign : ∀ r ∈ rs, ∃ e, s.board.val.entry r = some e ∧ (s.board.val.isSigned r = true → 1 ≤ e.width))
    (hentries : rs.map s.board.val.entry = es.map some) (hps : ps.map List.length = es.map RegEntry.width)
    (hanswers : ReadsAnswered u ((es.map RegEntry.raddr).zip ps) sends recvs) :
    ∃ v, runProg (progReads s.board.val (rs ++ rest) acc k) u =
        runProg (progReads s.board.val rest (readings s.board.val acc (rs.zip ps)) k) v ∧ v.sends = sends ∧
      v.recvs = recvs ∧
      Completed s v (evs ++ ((es.map RegEntry.raddr).zip ps).flatMap fun q => readEvents q.1 q.2) := by
  induction rs generalizing es ps u evs acc with
  | nil =>
    obtain rfl : es = [] := by simpa using hentries.symm
    obtain rfl : ps = [] := by simpa using hps
    obtain ⟨hs, hr⟩ := readsAnswered_nil hanswers
    exact ⟨u, rfl, hs, hr, (List.append_nil evs).symm ▸ h⟩
  | cons r rs ih =>
    match es, ps, hentries, hps, hanswers with
    | e :: es, p :: ps, hentries, hps, hanswers =>
      obtain ⟨he, hentries⟩ := List.cons.inj hentries
      obtain ⟨hp, hps⟩ := List.cons.inj hps
      obtain ⟨⟨e', he', hsigned⟩, hsign⟩ := List.forall_mem_cons.1 hsign
      obtain rfl : e = e' := Option.some.inj (he.symm.trans he')
      have hw : e.width ≤ s.board.val.nmax := (conditions s.board).width he
      obtain ⟨v, hrun, hrest, done⟩ := runProg_rdReg_answered (b := s.board.val)
        (fun p => progDec s.board.val r p fun v =>
          progReads s.board.val (rs ++ rest) (assign acc r (p, v)) k) h plain hp hw hanswers
      rw [progDec_of_fits _ (fun hs => (hsigned hs).trans_eq hp.symm) (hp.trans_le hw)] at hrun
      obtain ⟨z, hrun', hs, hr, done'⟩ := ih (acc := assign acc r (p, decoded s.board.val r p)) done hsign hentries hps
        hrest
      refine ⟨z, ?_, hs, hr, ?_⟩
      · rw [List.cons_append, progReads_cons he, hrun, hrun']
        rfl
      · rwa [List.append_assoc] at done'

/-! ### The result -/

theorem portInt_of_fits {n : Nat} {v : Int} (hlow : -2147483648 ≤ v) (hhigh : v ≤ 2147483647) : portInt n v = v := by
  rw [portInt, fitsPort, decide_eq_true hlow, decide_eq_true hhigh]
  rfl

/-- What leaves on the port is a signed 32-bit value (R118). -/
theorem portInt_bounds (n : Nat) (v : Int) : -2147483648 ≤ portInt n v ∧ portInt n v ≤ 2147483647 := by
  unfold portInt
  split
  · rename_i hfits
    simpa only [fitsPort, Bool.and_eq_true, decide_eq_true_eq] using hfits
  · have low := BitVec.le_toInt (Config.freeInt32 n)
    have high := BitVec.toInt_lt (x := Config.freeInt32 n)
    omega

section Result
variable {b : Board} {q : Quantity} {a : ScaleArgs} {p : List Byte}
  (hraw : mainRaw b q a = decoded b (b.mainRegister q) p)
include hraw

theorem convResult_rms_of_zero {ch : Ch3} (hq : q = .rms ch) (hp : beNat p = 0) : convResult b q a p = 0 := by
  have zero : mainRaw b q a = 0 := hraw.trans ((decoded_eq_zero_iff b _ p).2 hp)
  subst hq
  rw [convResult, specialCase, if_pos zero]

omit hraw in
theorem convResult_power_of_ones {ch : CurCh} (hq : q = .power ch) (hp : ∀ d ∈ p, d = 0xFF) :
    convResult b q a p = 0 := by
  have ones : p.all (fun d => d == 0xFF) = true := List.all_eq_true.2 fun d hd => beq_iff_eq.2 (hp d hd)
  subst hq
  rw [convResult, specialCase, if_pos ones]

/-- Outside the special cases the result is the rounded quotient (R110 step 5). -/
theorem convResult_of_scaled (hrms : ∀ ch, q = .rms ch → beNat p ≠ 0)
    (hpower : ∀ ch, q = .power ch → ¬ ∀ d ∈ p, d = 0xFF) :
    convResult b q a p = rdivInt (scaleNum b q a) (scaleDen b q a) := by
  have ordinary : specialCase q p (mainRaw b q a) = none := by
    cases q with
    | rms ch => exact if_neg fun hzero => hrms ch rfl ((decoded_eq_zero_iff b _ p).1 (hraw.symm.trans hzero))
    | power ch => exact if_neg fun hones => hpower ch rfl fun d hd => beq_iff_eq.1 (List.all_eq_true.1 hones d hd)
    | energy | freq | pf | phase => rfl
  rw [convResult, ordinary]

end Result

/-! ### The conversions -/

/-- A conversion with a meaning runs its quantity's program. -/
theorem exec_conversion {i : Instr} {q : Quantity} (h : (i, q) ∈ conversions) (s : State) :
    exec i s = .next (perform i (progConv s q) s) ∧ ∀ addr p, i ≠ .wrReg addr p := by
  simp only [conversions, List.mem_cons, Prod.mk.injEq, List.not_mem_nil, or_false] at h
  rcases h with ⟨rfl, rfl⟩ | ⟨rfl, rfl⟩ | ⟨rfl, rfl⟩ | ⟨rfl, rfl⟩ | ⟨rfl, rfl⟩ | ⟨rfl, rfl⟩ | ⟨rfl, rfl⟩ | ⟨rfl, rfl⟩ |
    ⟨rfl, rfl⟩ | ⟨rfl, rfl⟩ <;> exact ⟨rfl, nofun⟩

/-- What a conversion returns for its map of readings (R110 steps 4 and 5). -/
def convReturn (s : State) (q : Quantity) (cs : CoefSet) (xs : List (RegId × List Byte × Int)) : Prog (Result × Ctx) :=
  .ret (.int (portInt s.draws (convResult s.board.val q (scaleArgs s.ctx cs (xs.map fun x => (x.1, x.2.2)))
    ((xs.lookup (s.board.val.mainRegister q)).map Prod.fst |>.getD []))), s.ctx)

theorem progConv_of_loaded {s : State} {q : Quantity} {cs : CoefSet} (h : s.ctx.coef = .loaded cs) :
    progConv s q = progReads s.board.val (s.board.val.regsOf q) [] (convReturn s q cs) := by
  rw [progConv, h]
  rfl

theorem progConv_of_notLoaded {s : State} {q : Quantity} (h : s.ctx.coef = .notLoaded) :
    progConv s q = .raise .invalidData := by
  rw [progConv, h]

/-- The map `raw` of R110 after the readings `m`. -/
def rawValues (b : Board) (m : List (RegId × List Byte)) : List (RegId × Int) :=
  (m.map Prod.fst).eraseDups.map fun r => (r, decoded b r (lastPayload m r))

/-- After the readings `m`, the last of the main register's being `p`, a conversion returns the result on them. -/
theorem convReturn_readings {s : State} {q : Quantity} {cs : CoefSet} {m : List (RegId × List Byte)} {p : List Byte}
    (h : m.reverse.lookup (s.board.val.mainRegister q) = some p) :
    mainRaw s.board.val q (scaleArgs s.ctx cs (rawValues s.board.val m)) =
        decoded s.board.val (s.board.val.mainRegister q) p ∧
      convReturn s q cs (readings s.board.val [] m) =
        .ret (.int (portInt s.draws
          (convResult s.board.val q (scaleArgs s.ctx cs (rawValues s.board.val m)) p)), s.ctx) := by
  have main : s.board.val.mainRegister q ∈ (m.map Prod.fst).eraseDups :=
    List.mem_eraseDups.2 (List.mem_map_of_mem (List.mem_reverse.1 (mem_of_lookup_eq_some h)))
  have last : lastPayload m (s.board.val.mainRegister q) = p := by rw [lastPayload, h]; rfl
  refine ⟨?_, ?_⟩
  · rw [mainRaw, scaleArgs, rawValues, List.lookup_graph _ main, last]
    rfl
  · rw [convReturn, readings_nil_eq, List.lookup_graph _ main, last, List.map_map]
    rfl

/-- Settles O29: the reads make the map of readings, and the result on it ends the operation. -/
theorem conversionsReturnTheScaledReading : Obligations.ConversionsReturnTheScaledReading := by
  intro s i q cs es ps p0 sends recvs hidle hi hcoef hentries hps hmain hanswers
  obtain ⟨hexec, hplain⟩ := exec_conversion hi s
  have hlen : (s.board.val.regsOf q).length = ps.length := by
    have entries := congrArg List.length hentries
    have widths := congrArg List.length hps
    simp only [List.length_map] at entries widths
    exact entries.trans widths.symm
  obtain ⟨u, hrun, hs, hr, done⟩ := runProg_reads_answered (s := begun i s) (acc := []) [] (convReturn s q cs)
    (completed_begun i s) (plainSends_begun hplain s) ((conditions s.board).quantity q) hentries hps hanswers
  obtain ⟨hraw, hreturn⟩ := convReturn_readings (cs := cs) hmain
  rw [begun_board, List.append_nil, ← progConv_of_loaded hcoef, progReads, hreturn] at hrun
  obtain ⟨t, hnext, hended, hctx, hsends, hrecvs, hlog, hdev⟩ := exec_ends hexec hidle hrun (.ret _ _)
  obtain ⟨hlow, hhigh⟩ := portInt_bounds s.draws (convResult s.board.val q
    (scaleArgs s.ctx cs (rawValues s.board.val ((s.board.val.regsOf q).zip ps))) p0)
  have zero : portInt s.draws 0 = 0 := portInt_of_fits (by decide) (by decide)
  refine ⟨t, _, hnext, hended, hctx, hsends.trans hs, hrecvs.trans hr, hlog.trans done.log, hdev.trans done.dev,
    fun ch hq hp => ?_, fun ch hq hp => ?_, fun raws exact hraws hrms hpower hexact hmin hmax => ?_, hlow, hhigh⟩
  · rw [convResult_rms_of_zero hraw hq hp, zero]
  · rw [convResult_power_of_ones hq hp, zero]
  · have same : raws = rawValues s.board.val ((s.board.val.regsOf q).zip ps) := by
      rw [hraws, rawValues, List.map_fst_zip hlen.le]
      rfl
    subst same
    rw [convResult_of_scaled hraw hrms hpower]
    exact hexact ▸ portInt_of_fits hmin hmax

theorem beNat_of_zeros {p : List Byte} (h : ∀ d ∈ p, d = 0) : beNat p = 0 := by
  induction p using List.reverseRecOn with
  | nil => rfl
  | append_singleton p d ih =>
    have zero : d = 0 := h d (by simp)
    rw [beNat_append_singleton, ih fun x hx => h x (List.mem_append_left _ hx), zero]
    rfl

/-- Settles O30: with one register to read, the special cases of O29 speak of its payload. -/
theorem specialReadingsGiveZero : Obligations.SpecialReadingsGiveZero := by
  intro s i q cs e p n sends recvs hidle hspecial hcoef hregs hentry hlen hsends hn hrecvs
  have hi : (i, q) ∈ conversions := hspecial.elim (fun h => List.mem_of_mem_take (l := conversions) (i := 3) h.1)
    fun h => List.mem_of_mem_drop (l := conversions) (i := 3) (List.mem_of_mem_take (i := 2) h.1)
  have hentries : (s.board.val.regsOf q).map s.board.val.entry = [e].map some := by
    rw [hregs]
    exact congrArg (fun x => [x]) hentry
  have hmain : lastReading (s.board.val.regsOf q) [p] (s.board.val.mainRegister q) = some p := by
    simp [lastReading, Board.mainRegister, hregs]
  have hanswers : ReadsAnswered s (([e].map RegEntry.raddr).zip [p]) sends recvs :=
    ⟨⟨[.sent n], rfl, fun a ha => ⟨n, List.mem_singleton.1 ha, hn⟩, hsends⟩, hrecvs⟩
  obtain ⟨t, v, hnext, hended, hctx, -, -, -, -, hrms, hpower, -⟩ :=
    conversionsReturnTheScaledReading s i q cs [e] [p] p sends recvs hidle hi hcoef hentries (congrArg (fun w => [w]) hlen) hmain hanswers
  suffices hv : v = 0 from ⟨t, hnext, hv ▸ hended, hctx⟩
  rcases hspecial with ⟨h, hzeros⟩ | ⟨h, hones⟩ <;>
    simp only [List.mem_cons, Prod.mk.injEq, List.not_mem_nil, or_false] at h
  · rcases h with ⟨-, hq⟩ | ⟨-, hq⟩ | ⟨-, hq⟩ <;> exact hrms _ hq (beNat_of_zeros hzeros)
  · rcases h with ⟨-, hq⟩ | ⟨-, hq⟩ <;> exact hpower _ hq hones

/-- Settles O31: the readings before it bring the run to the read that fails. -/
theorem conversionsPassOnAFailedRead : Obligations.ConversionsPassOnAFailedRead := by
  intro s i q cs es ps e hidle hi hcoef htake hps
  obtain ⟨hexec, hplain⟩ := exec_conversion hi s
  have hquantity := (conditions s.board).quantity q
  obtain ⟨rs, r, rest, hregs, hentries, he⟩ := exists_append_cons_of_take htake
  rw [hregs] at hquantity
  have hw : e.width ≤ s.board.val.nmax := (conditions s.board).width he
  refine endsAtFailedRead_of_run hexec hidle hplain hw fun sends recvs hanswers => ?_
  obtain ⟨u, hrun, hs, hr, done⟩ := runProg_reads_answered (s := begun i s) (acc := []) (r :: rest) (convReturn s q cs)
    (completed_begun i s) (plainSends_begun hplain s) (fun x hx => hquantity x (List.mem_append_left _ hx)) hentries hps
    hanswers
  rw [begun_board, ← hregs, ← progConv_of_loaded hcoef, progReads_cons he] at hrun
  exact ⟨u, _, hrun, hs, hr, done⟩

/-- Settles O32: both checks raise before the program of a conversion makes a transaction. -/
theorem conversionChecksCostNoTransaction : Obligations.ConversionChecksCostNoTransaction := by
  intro s hidle
  refine ⟨fun i hi => ?_, fun hcoef i hi => ?_⟩
  · have raises : exec i s = .next (perform i (.raise .invalidParam) s) := by
      simp only [List.mem_cons, List.not_mem_nil, or_false] at hi
      rcases hi with rfl | rfl | rfl | rfl <;> rfl
    rw [raises, perform_raise _ _ _ hidle]
  · obtain ⟨x, hx, hxi⟩ := List.mem_map.1 (show i ∈ conversions.map Prod.fst from hi)
    obtain ⟨hexec, -⟩ := exec_conversion (q := x.2) hx s
    rw [← hxi, hexec, progConv_of_notLoaded hcoef, perform_raise _ _ _ hidle]

/-- Settles O33: the selector is looked at before the state. -/
theorem apparentPowerIsRefused : Obligations.ApparentPowerIsRefused := fun _ => rfl

end Sys2Proof.Machine
end

section
/-! Errors (R123, R135): a failed operation returns no result and leaves the context. -/

namespace Sys2Proof.Machine

/-- Settles O56: of the outcomes of an operation, only the one that raised a status responds with an error. -/
theorem failedOperationLeavesTheContext : Obligations.FailedOperationLeavesTheContext := by
  intro s t i r hport hexec hout herror
  obtain ⟨-, ⟨x, hok, -⟩ | ⟨st, -, hraised, hidle, hctx⟩ | ⟨hwaiting, -⟩⟩ := exec_outcome hport hexec
  · cases hout.symm.trans hok
    exact absurd rfl herror
  · cases hout.symm.trans hraised
    exact ⟨hctx, rfl, hidle⟩
  · cases hout.symm.trans hwaiting

end Sys2Proof.Machine
end

section
/-! The events at the ports that no operation makes (R145, R151, R157, R159): destruction, the settle event, frames of a
second agent, and a power cycle of the device. -/

namespace Sys2Proof.Machine

/-! ### What arrives from outside -/

theorem decodeCommand_port (c : Codes) (k ck : Byte) : (decodeCommand c k ck).port = .down := by
  unfold decodeCommand
  split_ifs <;> rfl

theorem decodeWrite_port {n : Nat} {wa : Byte} {bs : List Byte} {i : Instr} (h : decodeWrite n wa bs = .ok i) :
    i.port = .down := by
  unfold decodeWrite at h
  split at h
  · cases h
  · split_ifs at h
    cases h
    rfl

/-- What `decodeFrame` names is one of the rows that arrive at the device. -/
theorem decodeFrame_port {b : Board} {bs : List Byte} {i : Instr} (h : decodeFrame b bs = .ok i) : i.port = .down := by
  unfold decodeFrame at h
  split at h
  · cases h
  · split_ifs at h
    split at h
    · cases h
    · cases h; rfl
    · split_ifs at h <;> cases h
      · exact decodeCommand_port _ _ _
      · rfl
    · exact decodeWrite_port h

/-- While an operation is in progress a frame of a second agent is refused, whatever its bytes (U12). -/
theorem downArrives_of_busy {s : State} (bs : List Byte) (h : s.seq.busy = true) :
    downArrives bs s = .refused .interleavedAgent := by
  obtain ⟨i, hop⟩ := Option.isSome_iff_exists.1 h
  simp only [downArrives, hop]

/-- While none is, its bytes arrive at the device, whether they are a row of the table or not. -/
theorem downArrives_of_not_busy {s : State} (bs : List Byte) (h : s.seq.busy = false) :
    ∃ f, downArrives bs s = .next (frameArrives f s) := by
  have hop : s.seq.op = none := Option.isNone_iff_eq_none.1 (Option.isSome_eq_false_iff.1 h)
  simp only [downArrives, hop]
  split
  · next hi => exact exec_of_port_down (decodeFrame_port hi) s
  · exact ⟨bs, rfl⟩

/-- Bytes on the line to the block arrive as they are, whether they are a response or not. -/
theorem upArrives_eq (bs : List Byte) (s : State) : upArrives bs s = .next (responseArrives bs s) := by
  unfold upArrives
  split
  · next hi =>
    unfold decodeResponse at hi
    split at hi
    · cases hi
    · next hlast =>
      split_ifs at hi
      cases hi
      rw [exec, execRs, List.dropLast_append_getLast? _ hlast]
  · rfl

/-- Nothing that arrives from outside reaches the sequencer or makes or ends a context. -/
theorem worldStep_keeps_block {w : WorldItem} {s t : State} (h : worldStep w s = .next t) :
    t.seq = s.seq ∧ t.created = s.created := by
  cases w with
  | down bs =>
    cases hbusy : s.seq.busy with
    | true => cases h.symm.trans (downArrives_of_busy bs hbusy)
    | false =>
      obtain ⟨f, hf⟩ := downArrives_of_not_busy bs hbusy
      cases h.symm.trans hf
      exact ⟨rfl, rfl⟩
  | up bs =>
    cases h.symm.trans (upArrives_eq bs s)
    exact ⟨rfl, rfl⟩
  | sendAnswer | recvAnswer | powerCycle =>
    cases h
    exact ⟨rfl, rfl⟩

/-- Settles O52: the step takes the frame first, and only the sequencer decides whether it is refused. -/
theorem interleavedAgentIsRefused : Obligations.InterleavedAgentIsRefused := by
  intro s bs rest hworld
  rw [step_of_world_cons hworld]
  refine ⟨fun hbusy => downArrives_of_busy bs hbusy, fun hbusy => ?_⟩
  obtain ⟨f, hf⟩ := downArrives_of_not_busy (s := { s with world := rest }) bs hbusy
  exact ⟨_, hf⟩

/-- Settles O53: `devicePowerCycle` draws what the power cycle leaves open. -/
theorem powerCycleLeavesTheContext : Obligations.PowerCycleLeavesTheContext :=
  fun _ _ hworld => ⟨_, _, _, step_of_world_cons hworld⟩

/-! ### What the host presents -/

theorem step_destroy {s : State} {rest : List HostItem} (hworld : s.world = []) (hhost : s.host = .destroy :: rest) :
    step s = .next (destroyContext { s with host := rest }) := by
  rw [step_of_world_nil hworld, hostStep, hhost]

theorem step_settled {s : State} {rest : List HostItem} (hworld : s.world = []) (hhost : s.host = .settled :: rest) :
    step s = .next (deviceSettled { s with host := rest }) := by
  rw [step_of_world_nil hworld, hostStep, hhost]

/-- Settles O51: the step is `deviceSettled`, which sets the one flag. -/
theorem settleEventMakesTheDeviceReady : Obligations.SettleEventMakesTheDeviceReady :=
  fun _ _ => step_settled

/-- A block without a context accepts no operation (U17). -/
theorem acceptOp_of_not_created {s : State} (bs : List Byte) (h : s.created = false) :
    acceptOp bs s = .refused .contextDestroyed := by
  rw [acceptOp, h]
  rfl

/-- An idle block goes on with nothing (R144). -/
theorem advance_of_idle {s : State} (h : Idle s) : advance s = .next s := by
  unfold Idle at h
  rw [advance, h]
  rfl

/-- No presentation but a creation gives a destroyed block a context or an operation in progress. -/
theorem hostStep_of_destroyed {s t : State} (hcreated : s.created = false) (hidle : Idle s)
    (h : hostStep s = .next t) : t.created = false ∧ Idle t ∨ ∃ k rest, s.host = .create k :: rest := by
  have hop : s.seq.op = none := congrArg Seq.op hidle
  unfold hostStep at h
  split at h
  · cases h.symm.trans (advance_of_idle hidle)
    exact .inl ⟨hcreated, hidle⟩
  · next hhost => exact .inr ⟨_, _, hhost⟩
  · cases h
    exact .inl ⟨rfl, rfl⟩
  · cases h
    exact .inl ⟨hcreated, hidle⟩
  · next bs rest _ =>
    rw [hop] at h
    cases h.symm.trans (acceptOp_of_not_created (s := { s with host := rest }) bs hcreated)

/-- Settles O50: the step is `destroyContext`; after it neither what arrives nor what the host presents, but a creation,
starts anything. -/
theorem destroyedBlockRunsNoOperation : Obligations.DestroyedBlockRunsNoOperation := by
  refine ⟨fun s rest hworld hhost => ?_, fun s t hcreated hidle h => ?_,
    fun s bs rest hcreated hidle hworld hhost => ?_⟩
  · exact ⟨_, step_destroy hworld hhost, rfl, rfl, rfl, rfl, rfl, fun hpending => deviceAbandoned_none hpending,
      fun f hpending => deviceAbandoned_some hpending⟩
  · cases hworld : s.world with
    | nil =>
      rw [step_of_world_nil hworld] at h
      exact (hostStep_of_destroyed hcreated hidle h).imp_right fun hcreate => ⟨rfl, hcreate⟩
    | cons w rest =>
      rw [step_of_world_cons hworld] at h
      obtain ⟨hseq, hkept⟩ := worldStep_keeps_block h
      exact .inl ⟨hkept.trans hcreated, hseq.trans hidle⟩
  · rw [step_of_idle hidle hworld hhost]
    exact acceptOp_of_not_created bs hcreated

end Sys2Proof.Machine
end
